-- ==== Sys2Proof/Word.lean ====
section
/-! DEFINITION. The word types and the small closed sets of names every layer shares: operand
widths, shift kinds and branch conditions (00_scope.md R6, 30_encoding.md R119, R120). -/

namespace Sys2Proof

/-- One byte of memory (10_state.md R41). -/
abbrev Byte := BitVec 8

/-- An instruction word, the spec's `u32` (30_encoding.md R100). -/
abbrev Word := BitVec 32

/-- A register, an address or the program counter, the spec's `u64` (00_scope.md R6). -/
abbrev DWord := BitVec 64

/-- A register index 0 to 31, as the 5-bit fields hold it (10_state.md R30, 30_encoding.md R118). -/
abbrev RegIdx := BitVec 5

/-- Index 31, the zero register in every field (10_state.md R33). -/
abbrev zr : RegIdx := 31#5

/-- The operand width an instruction's `sf` bit selects (00_scope.md R6, R16). -/
inductive Width where
  /-- `sf = 0`: 32-bit operands, 4-byte transfers. -/
  | w32
  /-- `sf = 1`: 64-bit operands, 8-byte transfers. -/
  | w64
deriving DecidableEq, Repr

/-- The width in bits, the spec's `w` (00_scope.md R16). -/
abbrev Width.bits : Width → Nat
  | .w32 => 32
  | .w64 => 64

/-- The transfer size in bytes, the spec's `n` (20_memory.md R69). -/
abbrev Width.bytes : Width → Nat
  | .w32 => 4
  | .w64 => 8

/-- The four shift kinds of a register operand (30_encoding.md R120). -/
inductive ShiftKind where
  | lsl
  | lsr
  | asr
  | ror
deriving DecidableEq, Repr

/-- The seven branch conditions the core recognises (30_encoding.md R119). -/
inductive Cond where
  | eq
  | ne
  | ge
  | lt
  | gt
  | le
  | al
deriving DecidableEq, Repr

end Sys2Proof
end

