-- ==== Sys2Proof/Config.lean ====
section
/-! DEFINITION. What the spec fixes for this hardware as named parameters (00_scope.md R6) and the
values it leaves open (70_reset_and_hazards.md R412). -/

namespace Sys2Proof

/-- The two named implementation parameters (00_scope.md R6, 92_eei_decisions.md preamble). -/
structure Config where
  /-- `MEM_SIZE`: the bytes of memory. -/
  memSize : Nat
  /-- `FETCH_ALIGN_FAULT`: whether a fetch at an unaligned PC faults. -/
  fetchAlignFault : Bool
deriving DecidableEq, Repr

/-- This hardware's values: 2 MiB, and no alignment fault on fetch (00_scope.md R6, D9). -/
def hardware : Config := { memSize := 0x200000, fetchAlignFault := false }

/-- `MEM_SIZE` of this hardware. -/
abbrev memSize : Nat := hardware.memSize

/-- FREE VALUE. The exit status of a failed run is nonzero and its number is unspecified
(70_reset_and_hazards.md R412, 93_implementation_defined.md I6): the status of a fault with code
`c` is `failureStatusPred c + 1`, and nothing constrains this function. -/
opaque failureStatusPred : Nat → Nat

/-- FREE VALUE. The exit status of an assembly that fails is nonzero and its number is unspecified
(70_reset_and_hazards.md R412, 93_implementation_defined.md I6): the status of an encode error with
index `k` is `encodeFailureStatusPred k + 1`, and nothing constrains this function. -/
opaque encodeFailureStatusPred : Nat → Nat

end Sys2Proof
end

