-- ==== Sys2Proof/Machine/State.lean ====
section
/-! DEFINITION. The machine state of 40_execution_cycle.md R160 as plain data, the faults of
60_exceptions.md R370, and the state after reset (10_state.md R43). -/

namespace Sys2Proof.Machine

/-- The four condition flags (10_state.md R35). -/
structure Flags where
  /-- Negative. -/
  n : Bool
  /-- Zero. -/
  z : Bool
  /-- Carry. -/
  c : Bool
  /-- Overflow. -/
  v : Bool
deriving DecidableEq, Repr

/-- The faults of 60_exceptions.md R370, each with the values R370 records. A fault ends the run
(R379); the failed state is unobservable (10_state.md R40), so a fault carries no state. Stopping
is what the hardware does here, so each is exact, and safe. -/
inductive Fault where
  /-- `FETCH_BOUNDS`: raised by the fetch when `PC + 4 > MEM_SIZE` (20_memory.md R62). Safe. -/
  | fetchBounds (pc : DWord)
  /-- `FETCH_ALIGN`: raised by the fetch at an unaligned PC, only with `FETCH_ALIGN_FAULT = true`,
  which this hardware does not have (20_memory.md R68). Safe. -/
  | fetchAlign (pc : DWord)
  /-- `DECODE_CATEGORY`: raised by decoding a word of no category (30_encoding.md R102). Safe. -/
  | decodeCategory (w : Word) (pc : DWord)
  /-- `DECODE_CONDITION`: raised by decoding a B.cond word with an unknown condition (R119). Safe. -/
  | decodeCondition (w : Word) (pc : DWord)
  /-- `DECODE_ILLEGAL_SHIFT`: raised by decoding a rotated arithmetic register word (R127). Safe. -/
  | decodeIllegalShift (w : Word) (pc : DWord)
  /-- `DECODE_UNALLOCATED`: raised by decoding any other word the subset lacks (R127). Safe. -/
  | decodeUnallocated (w : Word) (pc : DWord)
  /-- `DATA_BOUNDS`: raised by LDR and STR when `ea + n > MEM_SIZE` (43_load_store.md R292). Safe. -/
  | dataBounds (ea : DWord) (n : Nat) (pc : DWord)
deriving DecidableEq, Repr

/-- The run state of the state machine (10_state.md R39). -/
inductive RunState where
  /-- A next step exists. -/
  | running
  /-- The run ended at the terminate word. -/
  | halted
  /-- The run ended on a fault. -/
  | failed (f : Fault)
deriving DecidableEq, Repr

/-- Why a step has no meaning. -/
inductive Refusal where
  /-- An instruction with no meaning in this model, raised by an arm of exec; no arm does. Safe. -/
  | notModelled (mnemonic : String)
  /-- No step exists from `Halted` or `Failed(f)` (40_execution_cycle.md R161): raised by a step
  taken there. Safe. -/
  | noStep
deriving DecidableEq, Repr

/-- The memory array as its bytes other than the reset byte, addresses strictly rising
(`Memory.wf`); an unlisted address reads as `unlistedByte`. -/
abbrev Memory := List Host.Cell

/-- What an unlisted address reads as: every byte of memory is 0 after reset (10_state.md R43). -/
abbrev unlistedByte : Byte := 0#8

/-- The machine state `(REG[0..30], NZCV, PC, MEM, run)` (40_execution_cycle.md R160). -/
structure State where
  /-- `X0` to `X30` (10_state.md R30). Index 31 is not stored. -/
  regs : Vector DWord 31
  /-- `NZCV` (10_state.md R35). -/
  flags : Flags
  /-- `PC`, the address of the instruction being fetched and executed (10_state.md R38). -/
  pc : DWord
  /-- `MEM[0 .. MEM_SIZE-1]` (10_state.md R41). -/
  mem : Memory
  /-- The run state (10_state.md R39). -/
  run : RunState
deriving DecidableEq, Repr

/-- The state after reset, before an image is loaded (10_state.md R43, 70_reset_and_hazards.md R400):
registers, PC and memory zero, flags `-Z--`, running. -/
def State.reset : State where
  regs := Vector.replicate 31 0#64
  flags := { n := false, z := true, c := false, v := false }
  pc := 0#64
  mem := []
  run := .running

end Sys2Proof.Machine
end

