-- ==== Sys2Proof/Machine/Flags.lean ====
section
/-! DEFINITION. Every flag computation (40_execution_cycle.md R172, R174) and the branch condition
evaluator (R178). -/

namespace Sys2Proof.Machine

/-- The flags of `a + b` with result `r` (40_execution_cycle.md R172): C is the unsigned carry out,
V says that the signed sum is out of range. -/
def addFlags {n : Nat} (a b r : BitVec n) : Flags where
  n := r.msb
  z := r == 0
  c := 2 ^ n ≤ a.toNat + b.toNat
  v := a.toInt + b.toInt != r.toInt

/-- The flags of `a - b` with result `r` (40_execution_cycle.md R172): C is 1 when there is no
borrow, V says that the signed difference is out of range. -/
def subFlags {n : Nat} (a b r : BitVec n) : Flags where
  n := r.msb
  z := r == 0
  c := b.toNat ≤ a.toNat
  v := a.toInt - b.toInt != r.toInt

/-- The flags of a flag-setting logical result: N and Z from the result, C and V cleared
(40_execution_cycle.md R174). -/
def logicFlags {n : Nat} (r : BitVec n) : Flags where
  n := r.msb
  z := r == 0
  c := false
  v := false

/-- `CondHolds(cond, NZCV)` (40_execution_cycle.md R178). -/
def condHolds (cond : Cond) (f : Flags) : Bool :=
  match cond with
  | .eq => f.z
  | .ne => !f.z
  | .ge => f.n == f.v
  | .lt => f.n != f.v
  | .gt => !f.z && f.n == f.v
  | .le => !(!f.z && f.n == f.v)
  | .al => true

/-- The flag register as the 4-bit value `N:Z:C:V` (10_state.md R35). -/
def Flags.nzcv (f : Flags) : BitVec 4 :=
  BitVec.ofBool f.n ++ BitVec.ofBool f.z ++ BitVec.ofBool f.c ++ BitVec.ofBool f.v

end Sys2Proof.Machine
end

