-- ==== Sys2Proof/Syntax.lean ====
section
/-! DEFINITION. The instructions: one constructor for each row of spec/opcode_table.json, its fields
the row's operand fields in the order of the row's encoding, high bits first. -/

namespace Sys2Proof

/-- The instructions, one constructor per row of the opcode map (30_encoding.md R146, R126). The
first 34 are the canonical rows, which the decoder answers. The last 20 are the alias rows
(30_encoding.md R135): spellings of canonical instructions, which the encoder takes and the decoder
never answers (30_encoding.md R136). -/
inductive Instr where
  /-- The terminate word `0x8A000000` (40_execution_cycle.md R165). -/
  | halt
  /-- ADD (immediate), 41_dp_immediate.md R200. `sh` shifts the immediate left by 12. -/
  | addImm (w : Width) (sh : Bool) (imm12 : BitVec 12) (rn rd : RegIdx)
  /-- ADDS (immediate), R201. -/
  | addsImm (w : Width) (sh : Bool) (imm12 : BitVec 12) (rn rd : RegIdx)
  /-- SUB (immediate), R202. -/
  | subImm (w : Width) (sh : Bool) (imm12 : BitVec 12) (rn rd : RegIdx)
  /-- SUBS (immediate), R203. -/
  | subsImm (w : Width) (sh : Bool) (imm12 : BitVec 12) (rn rd : RegIdx)
  /-- MOVN, R210. `hw` is the halfword position. -/
  | movn (w : Width) (hw : BitVec 2) (imm16 : BitVec 16) (rd : RegIdx)
  /-- MOVZ, R211. -/
  | movz (w : Width) (hw : BitVec 2) (imm16 : BitVec 16) (rd : RegIdx)
  /-- MOVK, R212. -/
  | movk (w : Width) (hw : BitVec 2) (imm16 : BitVec 16) (rd : RegIdx)
  /-- ADD (shifted register), 42_dp_register.md R240. -/
  | addReg (w : Width) (shift : ShiftKind) (rm : RegIdx) (imm6 : BitVec 6) (rn rd : RegIdx)
  /-- ADDS (shifted register), R241. -/
  | addsReg (w : Width) (shift : ShiftKind) (rm : RegIdx) (imm6 : BitVec 6) (rn rd : RegIdx)
  /-- SUB (shifted register), R242. -/
  | subReg (w : Width) (shift : ShiftKind) (rm : RegIdx) (imm6 : BitVec 6) (rn rd : RegIdx)
  /-- SUBS (shifted register), R243. -/
  | subsReg (w : Width) (shift : ShiftKind) (rm : RegIdx) (imm6 : BitVec 6) (rn rd : RegIdx)
  /-- AND (shifted register), R250. -/
  | andReg (w : Width) (shift : ShiftKind) (rm : RegIdx) (imm6 : BitVec 6) (rn rd : RegIdx)
  /-- BIC, R251. -/
  | bicReg (w : Width) (shift : ShiftKind) (rm : RegIdx) (imm6 : BitVec 6) (rn rd : RegIdx)
  /-- ORR, R252. -/
  | orrReg (w : Width) (shift : ShiftKind) (rm : RegIdx) (imm6 : BitVec 6) (rn rd : RegIdx)
  /-- ORN, R253. -/
  | ornReg (w : Width) (shift : ShiftKind) (rm : RegIdx) (imm6 : BitVec 6) (rn rd : RegIdx)
  /-- EOR, R254. -/
  | eorReg (w : Width) (shift : ShiftKind) (rm : RegIdx) (imm6 : BitVec 6) (rn rd : RegIdx)
  /-- EON, R255. -/
  | eonReg (w : Width) (shift : ShiftKind) (rm : RegIdx) (imm6 : BitVec 6) (rn rd : RegIdx)
  /-- ANDS, R256. -/
  | andsReg (w : Width) (shift : ShiftKind) (rm : RegIdx) (imm6 : BitVec 6) (rn rd : RegIdx)
  /-- BICS, R257. -/
  | bicsReg (w : Width) (shift : ShiftKind) (rm : RegIdx) (imm6 : BitVec 6) (rn rd : RegIdx)
  /-- MADD, R260. -/
  | madd (w : Width) (rm ra rn rd : RegIdx)
  /-- MSUB, R261. -/
  | msub (w : Width) (rm ra rn rd : RegIdx)
  /-- LDR (unsigned offset), 43_load_store.md R320. -/
  | ldrUoff (w : Width) (imm12 : BitVec 12) (rn rt : RegIdx)
  /-- STR (unsigned offset), R321. -/
  | strUoff (w : Width) (imm12 : BitVec 12) (rn rt : RegIdx)
  /-- LDR (pre-index), R322. -/
  | ldrPre (w : Width) (simm9 : BitVec 9) (rn rt : RegIdx)
  /-- STR (pre-index), R323. -/
  | strPre (w : Width) (simm9 : BitVec 9) (rn rt : RegIdx)
  /-- LDR (post-index), R324. -/
  | ldrPost (w : Width) (simm9 : BitVec 9) (rn rt : RegIdx)
  /-- STR (post-index), R325. -/
  | strPost (w : Width) (simm9 : BitVec 9) (rn rt : RegIdx)
  /-- LDR (register offset), R326. -/
  | ldrReg (w : Width) (rm rn rt : RegIdx)
  /-- STR (register offset), R327. -/
  | strReg (w : Width) (rm rn rt : RegIdx)
  /-- LDR (literal), R328. -/
  | ldrLit (w : Width) (simm19 : BitVec 19) (rt : RegIdx)
  /-- B, 44_branch.md R340. -/
  | b (simm26 : BitVec 26)
  /-- B.cond, R341. -/
  | bCond (simm19 : BitVec 19) (cond : Cond)
  /-- BR, R342. -/
  | br (rn : RegIdx)
  /-- `cmp rn, #imm`: SUBS (immediate) with `Rd = 31` (30_encoding.md R135). -/
  | cmpImm (w : Width) (sh : Bool) (imm12 : BitVec 12) (rn : RegIdx)
  /-- `cmn rn, #imm`: ADDS (immediate) with `Rd = 31`. -/
  | cmnImm (w : Width) (sh : Bool) (imm12 : BitVec 12) (rn : RegIdx)
  /-- `neg rd, #imm`: SUB (immediate) with `Rn = 31`. -/
  | negImm (w : Width) (sh : Bool) (imm12 : BitVec 12) (rd : RegIdx)
  /-- `negs rd, #imm`: SUBS (immediate) with `Rn = 31`. -/
  | negsImm (w : Width) (sh : Bool) (imm12 : BitVec 12) (rd : RegIdx)
  /-- `cmp rn, rm`: SUBS (shifted register) with `Rd = 31`. -/
  | cmpReg (w : Width) (shift : ShiftKind) (rm : RegIdx) (imm6 : BitVec 6) (rn : RegIdx)
  /-- `cmn rn, rm`: ADDS (shifted register) with `Rd = 31`. -/
  | cmnReg (w : Width) (shift : ShiftKind) (rm : RegIdx) (imm6 : BitVec 6) (rn : RegIdx)
  /-- `neg rd, rm`: SUB (shifted register) with `Rn = 31`. -/
  | negReg (w : Width) (shift : ShiftKind) (rm : RegIdx) (imm6 : BitVec 6) (rd : RegIdx)
  /-- `negs rd, rm`: SUBS (shifted register) with `Rn = 31`. -/
  | negsReg (w : Width) (shift : ShiftKind) (rm : RegIdx) (imm6 : BitVec 6) (rd : RegIdx)
  /-- `tst rn, rm`: ANDS with `Rd = 31`. -/
  | tst (w : Width) (shift : ShiftKind) (rm : RegIdx) (imm6 : BitVec 6) (rn : RegIdx)
  /-- `mvn rd, rm`: ORN with `Rn = 31`. -/
  | mvn (w : Width) (shift : ShiftKind) (rm : RegIdx) (imm6 : BitVec 6) (rd : RegIdx)
  /-- `mov rd, rm`: ORR with `Rn = 31` and no shift. -/
  | mov (w : Width) (rm rd : RegIdx)
  /-- `mul rd, rn, rm`: MADD with `Ra = 31`. -/
  | mul (w : Width) (rm rn rd : RegIdx)
  /-- `mneg rd, rn, rm`: MSUB with `Ra = 31`. -/
  | mneg (w : Width) (rm rn rd : RegIdx)
  /-- `b.eq`: B.cond with condition EQ (44_branch.md R341). -/
  | bEq (simm19 : BitVec 19)
  /-- `b.ne`. -/
  | bNe (simm19 : BitVec 19)
  /-- `b.ge`. -/
  | bGe (simm19 : BitVec 19)
  /-- `b.lt`. -/
  | bLt (simm19 : BitVec 19)
  /-- `b.gt`. -/
  | bGt (simm19 : BitVec 19)
  /-- `b.le`. -/
  | bLe (simm19 : BitVec 19)
  /-- `b.al`. -/
  | bAl (simm19 : BitVec 19)
deriving DecidableEq, Repr

end Sys2Proof
end

