-- ==== Sys2Proof/WellFormed.lean ====
section
/-! DEFINITION. The well-formed instructions: those some word encodes (30_encoding.md R127, R146,
column "also"). -/

namespace Sys2Proof

/-- A wide move's halfword position fits its width: `sf = 0` implies `hw < 2` (30_encoding.md R127, D7). -/
def halfwordFits (w : Width) (hw : BitVec 2) : Bool :=
  w == .w64 || hw.toNat < 2

/-- A shift amount is less than its width: `sf = 0` implies `imm6 < 32` (30_encoding.md R127, D6). -/
def amountFits (w : Width) (imm6 : BitVec 6) : Bool :=
  w == .w64 || imm6.toNat < 32

/-- An arithmetic instruction takes no rotate-right (30_encoding.md R108, R127, D38). -/
def arithShiftAllowed (shift : ShiftKind) : Bool :=
  shift != .ror

/-- The operands that spell the terminate word: `and x0, x0, x0` (30_encoding.md R103). -/
def spellsTerminate (w : Width) (shift : ShiftKind) (rm : RegIdx) (imm6 : BitVec 6)
    (rn rd : RegIdx) : Bool :=
  w == .w64 && shift == .lsl && rm == 0#5 && imm6 == 0#6 && rn == 0#5 && rd == 0#5

/-- Whether an instruction has an encoding of its own. Every field fits its width by its type; what
is left are the four checks above. An AND that spells the terminate word is not well-formed, since
that word is HALT (30_encoding.md R103). -/
def Instr.wf : Instr → Bool
  | .halt => true
  | .addImm _ _ _ _ _ => true
  | .addsImm _ _ _ _ _ => true
  | .subImm _ _ _ _ _ => true
  | .subsImm _ _ _ _ _ => true
  | .movn w hw _ _ => halfwordFits w hw
  | .movz w hw _ _ => halfwordFits w hw
  | .movk w hw _ _ => halfwordFits w hw
  | .addReg w shift _ imm6 _ _ => arithShiftAllowed shift && amountFits w imm6
  | .addsReg w shift _ imm6 _ _ => arithShiftAllowed shift && amountFits w imm6
  | .subReg w shift _ imm6 _ _ => arithShiftAllowed shift && amountFits w imm6
  | .subsReg w shift _ imm6 _ _ => arithShiftAllowed shift && amountFits w imm6
  | .andReg w shift rm imm6 rn rd =>
      amountFits w imm6 && !spellsTerminate w shift rm imm6 rn rd
  | .bicReg w _ _ imm6 _ _ => amountFits w imm6
  | .orrReg w _ _ imm6 _ _ => amountFits w imm6
  | .ornReg w _ _ imm6 _ _ => amountFits w imm6
  | .eorReg w _ _ imm6 _ _ => amountFits w imm6
  | .eonReg w _ _ imm6 _ _ => amountFits w imm6
  | .andsReg w _ _ imm6 _ _ => amountFits w imm6
  | .bicsReg w _ _ imm6 _ _ => amountFits w imm6
  | .madd _ _ _ _ _ => true
  | .msub _ _ _ _ _ => true
  | .ldrUoff _ _ _ _ => true
  | .strUoff _ _ _ _ => true
  | .ldrPre _ _ _ _ => true
  | .strPre _ _ _ _ => true
  | .ldrPost _ _ _ _ => true
  | .strPost _ _ _ _ => true
  | .ldrReg _ _ _ _ => true
  | .strReg _ _ _ _ => true
  | .ldrLit _ _ _ => true
  | .b _ => true
  | .bCond _ _ => true
  | .br _ => true
  | .cmpImm _ _ _ _ => true
  | .cmnImm _ _ _ _ => true
  | .negImm _ _ _ _ => true
  | .negsImm _ _ _ _ => true
  | .cmpReg w shift _ imm6 _ => arithShiftAllowed shift && amountFits w imm6
  | .cmnReg w shift _ imm6 _ => arithShiftAllowed shift && amountFits w imm6
  | .negReg w shift _ imm6 _ => arithShiftAllowed shift && amountFits w imm6
  | .negsReg w shift _ imm6 _ => arithShiftAllowed shift && amountFits w imm6
  | .tst w _ _ imm6 _ => amountFits w imm6
  | .mvn w _ _ imm6 _ => amountFits w imm6
  | .mov _ _ _ => true
  | .mul _ _ _ _ => true
  | .mneg _ _ _ _ => true
  | .bEq _ => true
  | .bNe _ => true
  | .bGe _ => true
  | .bLt _ => true
  | .bGt _ => true
  | .bLe _ => true
  | .bAl _ => true

end Sys2Proof
end

