-- ==== Sys2Proof/Decode.lean ====
section
/-! DEFINITION. The decoder of 30_encoding.md R125, from words to instructions or a named decode
error, and after it the encoder from instructions to words, the rewriting of alias rows to
canonical ones (R135), the opcode map (R146) and the decoding of the opcode table's own words. -/

namespace Sys2Proof

/-! ## Bit fields -/

/-- `v[hi:lo]`, the field from bit `hi` down to bit `lo` inclusive, right-aligned (00_scope.md R8).
Every use has `hi >= lo`. -/
def slice (hi lo : Nat) {n : Nat} (v : BitVec n) : BitVec (hi - lo + 1) :=
  v.extractLsb' lo (hi - lo + 1)

/-- `insert(word, lo, hi, value)`: the low `hi - lo + 1` bits of `value` in bits `hi` to `lo` of
`word`, the other bits untouched (00_scope.md R9). -/
def insertField (hi lo : Nat) {n : Nat} (word value : BitVec n) : BitVec n :=
  let mask := BitVec.ofNat n (2 ^ (hi - lo + 1) - 1)
  (word &&& ~~~(mask <<< lo)) ||| ((value &&& mask) <<< lo)

/-- The width an `sf` bit selects (00_scope.md R16). -/
def widthOfBit : Bool → Width
  | true => .w64
  | false => .w32

/-- The `sf` bit of a width (30_encoding.md R104, R112). -/
def Width.sf : Width → BitVec 1
  | .w64 => 1#1
  | .w32 => 0#1

/-- The shift kind of `w[23:22]` (30_encoding.md R120). -/
def shiftKindOfBits (hi lo : Bool) : ShiftKind :=
  match hi, lo with
  | false, false => .lsl
  | false, true => .lsr
  | true, false => .asr
  | true, true => .ror

/-- The two bits of a shift kind (30_encoding.md R120). -/
def ShiftKind.code : ShiftKind → BitVec 2
  | .lsl => 0b00#2
  | .lsr => 0b01#2
  | .asr => 0b10#2
  | .ror => 0b11#2

/-- The condition a 4-bit field names, none outside the table of 30_encoding.md R119. -/
def condOfCode (c : BitVec 4) : Option Cond :=
  if c = 0b0000#4 then some .eq
  else if c = 0b0001#4 then some .ne
  else if c = 0b1010#4 then some .ge
  else if c = 0b1011#4 then some .lt
  else if c = 0b1100#4 then some .gt
  else if c = 0b1101#4 then some .le
  else if c = 0b1110#4 then some .al
  else none

/-- The 4-bit value of a condition (30_encoding.md R119). -/
def Cond.code : Cond → BitVec 4
  | .eq => 0b0000#4
  | .ne => 0b0001#4
  | .ge => 0b1010#4
  | .lt => 0b1011#4
  | .gt => 0b1100#4
  | .le => 0b1101#4
  | .al => 0b1110#4

/-! ## The decoder -/

/-- Why the decoder refuses a word: the four decode faults of 60_exceptions.md R370. -/
inductive DecodeError where
  /-- `DECODE_CATEGORY`: `w[28:25]` in none of the four categories (30_encoding.md R102). -/
  | category
  /-- `DECODE_CONDITION`: a B.cond word whose condition is outside R119. -/
  | condition
  /-- `DECODE_ILLEGAL_SHIFT`: rotate-right on an arithmetic register word (R108, R127). -/
  | illegalShift
  /-- `DECODE_UNALLOCATED`: any other word of a category that the subset does not have (R127). -/
  | unallocated
deriving DecidableEq, Repr

/-- The terminate word (30_encoding.md R103). -/
def terminateWord : Word := 0x8A000000#32

/-- `DecodeDPImm` of 30_encoding.md R125. -/
def decodeDPImm (v : Word) : Except DecodeError Instr :=
  let w := widthOfBit (v.getLsbD 31)
  let rd := slice 4 0 v
  if slice 25 23 v = 0b010#3 then
    let sh := v.getLsbD 22
    let imm12 := slice 21 10 v
    let rn := slice 9 5 v
    match v.getLsbD 30, v.getLsbD 29 with
    | false, false => .ok (.addImm w sh imm12 rn rd)
    | false, true => .ok (.addsImm w sh imm12 rn rd)
    | true, false => .ok (.subImm w sh imm12 rn rd)
    | true, true => .ok (.subsImm w sh imm12 rn rd)
  else if slice 25 23 v = 0b101#3 then
    let hw := slice 22 21 v
    let imm16 := slice 20 5 v
    match v.getLsbD 30, v.getLsbD 29 with
    | false, true => .error .unallocated
    | false, false => if halfwordFits w hw then .ok (.movn w hw imm16 rd) else .error .unallocated
    | true, false => if halfwordFits w hw then .ok (.movz w hw imm16 rd) else .error .unallocated
    | true, true => if halfwordFits w hw then .ok (.movk w hw imm16 rd) else .error .unallocated
  else .error .unallocated

/-- `DecodeDPReg` of 30_encoding.md R125: arithmetic, logical and multiply words. -/
def decodeDPReg (v : Word) : Except DecodeError Instr :=
  let w := widthOfBit (v.getLsbD 31)
  let shift := shiftKindOfBits (v.getLsbD 23) (v.getLsbD 22)
  let rm := slice 20 16 v
  let imm6 := slice 15 10 v
  let rn := slice 9 5 v
  let rd := slice 4 0 v
  match v.getLsbD 28, v.getLsbD 24, v.getLsbD 21 with
  | false, true, false =>
    if arithShiftAllowed shift then
      if amountFits w imm6 then
        match v.getLsbD 30, v.getLsbD 29 with
        | false, false => .ok (.addReg w shift rm imm6 rn rd)
        | false, true => .ok (.addsReg w shift rm imm6 rn rd)
        | true, false => .ok (.subReg w shift rm imm6 rn rd)
        | true, true => .ok (.subsReg w shift rm imm6 rn rd)
      else .error .unallocated
    else .error .illegalShift
  | false, true, true => .error .unallocated
  | false, false, complemented =>
    if amountFits w imm6 then
      match v.getLsbD 30, v.getLsbD 29, complemented with
      | false, false, false => .ok (.andReg w shift rm imm6 rn rd)
      | false, false, true => .ok (.bicReg w shift rm imm6 rn rd)
      | false, true, false => .ok (.orrReg w shift rm imm6 rn rd)
      | false, true, true => .ok (.ornReg w shift rm imm6 rn rd)
      | true, false, false => .ok (.eorReg w shift rm imm6 rn rd)
      | true, false, true => .ok (.eonReg w shift rm imm6 rn rd)
      | true, true, false => .ok (.andsReg w shift rm imm6 rn rd)
      | true, true, true => .ok (.bicsReg w shift rm imm6 rn rd)
    else .error .unallocated
  | true, _, _ =>
    if slice 30 29 v = 0b00#2 ∧ slice 24 21 v = 0b1000#4 then
      let ra := slice 14 10 v
      match v.getLsbD 15 with
      | false => .ok (.madd w rm ra rn rd)
      | true => .ok (.msub w rm ra rn rd)
    else .error .unallocated

/-- `DecodeLdSt` of 30_encoding.md R125: the single data transfers and the literal load. -/
def decodeLdSt (v : Word) : Except DecodeError Instr :=
  let w := widthOfBit (v.getLsbD 30)
  let rn := slice 9 5 v
  let rt := slice 4 0 v
  if v.getLsbD 31 = true ∧ slice 29 25 v = 0b11100#5 ∧ v.getLsbD 23 = false then
    if v.getLsbD 24 = true then
      let imm12 := slice 21 10 v
      match v.getLsbD 22 with
      | true => .ok (.ldrUoff w imm12 rn rt)
      | false => .ok (.strUoff w imm12 rn rt)
    else if v.getLsbD 21 = true ∧ slice 15 10 v = 0b011010#6 then
      let rm := slice 20 16 v
      match v.getLsbD 22 with
      | true => .ok (.ldrReg w rm rn rt)
      | false => .ok (.strReg w rm rn rt)
    else if v.getLsbD 21 = false ∧ v.getLsbD 10 = true then
      let simm9 := slice 20 12 v
      match v.getLsbD 22, v.getLsbD 11 with
      | true, true => .ok (.ldrPre w simm9 rn rt)
      | false, true => .ok (.strPre w simm9 rn rt)
      | true, false => .ok (.ldrPost w simm9 rn rt)
      | false, false => .ok (.strPost w simm9 rn rt)
    else .error .unallocated
  else if v.getLsbD 31 = false ∧ slice 29 24 v = 0b011000#6 then
    .ok (.ldrLit w (slice 23 5 v) rt)
  else .error .unallocated

/-- `DecodeBranch` of 30_encoding.md R125. -/
def decodeBranch (v : Word) : Except DecodeError Instr :=
  if slice 31 26 v = 0b000101#6 then .ok (.b (slice 25 0 v))
  else if slice 31 24 v = 0b01010100#8 ∧ v.getLsbD 4 = false then
    match condOfCode (slice 3 0 v) with
    | some cond => .ok (.bCond (slice 23 5 v) cond)
    | none => .error .condition
  else if slice 31 10 v = 0b1101011000011111000000#22 ∧ slice 4 0 v = 0b00000#5 then
    .ok (.br (slice 9 5 v))
  else .error .unallocated

/-- `Decode` of 30_encoding.md R125, total on every word: the terminate word first, then the four
categories of `w[28:25]` (R102). -/
def decode (v : Word) : Except DecodeError Instr :=
  if v = terminateWord then .ok .halt
  else if slice 28 26 v = 0b100#3 then decodeDPImm v
  else if slice 27 25 v = 0b101#3 then decodeDPReg v
  else if v.getLsbD 27 = true ∧ v.getLsbD 25 = false then decodeLdSt v
  else if slice 28 26 v = 0b101#3 then decodeBranch v
  else .error .category

/-- Byte `k` of a value: bits `8k+7` to `8k` (20_memory.md R61). -/
def byteAt {n : Nat} (v : BitVec n) (k : Nat) : Byte :=
  v.extractLsb' (8 * k) 8

/-- The value of `bits` bits whose byte `k` is the `k`-th of a list, the first byte least significant
(20_memory.md R60, R63). -/
def valueOfBytes (bits : Nat) : List Byte → BitVec bits
  | [] => 0#bits
  | b :: bs => b.setWidth bits ||| valueOfBytes bits bs <<< 8

/-- The decoder on stored bytes, the byte at the lowest address first (30_encoding.md R100,
20_memory.md R63); bytes past the fourth are of later words. -/
def decodeBytes (bs : List Byte) : Except DecodeError Instr :=
  decode (valueOfBytes 32 (bs.take 4))

/-- The instruction word of an opcode-table word of `nbits` bits, the bits above `nbits` zero. -/
def tableWord (nbits w : Nat) : Word :=
  BitVec.ofNat 32 (w % 2 ^ nbits)

/-- The instruction the decoder reads from an opcode-table word laid out in memory order. -/
def decodeTableWord (nbits w : Nat) : Option Instr :=
  let v := tableWord nbits w
  match decodeBytes [byteAt v 0, byteAt v 1, byteAt v 2, byteAt v 3] with
  | .ok i => some i
  | .error _ => none

/-! ## The encoder -/

/-- A field in its place in a word: its lowest bit at bit `lo`, zeros elsewhere. -/
def place (lo : Nat) {n : Nat} (v : BitVec n) : Word :=
  v.setWidth 32 <<< lo

/-- The arithmetic immediate layout (30_encoding.md R105; 41_dp_immediate.md R220). -/
def layoutArithImm (w : Width) (opc : BitVec 2) (sh : Bool) (imm12 : BitVec 12) (rn rd : RegIdx) :
    Word :=
  place 31 w.sf ||| place 29 opc ||| place 23 0b100010#6 ||| place 22 (BitVec.ofBool sh)
    ||| place 10 imm12 ||| place 5 rn ||| place 0 rd

/-- The wide-move layout (30_encoding.md R106; 41_dp_immediate.md R221). -/
def layoutWideMove (w : Width) (opc : BitVec 2) (hw : BitVec 2) (imm16 : BitVec 16) (rd : RegIdx) :
    Word :=
  place 31 w.sf ||| place 29 opc ||| place 23 0b100101#6 ||| place 21 hw ||| place 5 imm16
    ||| place 0 rd

/-- The arithmetic shifted-register layout (30_encoding.md R108; 42_dp_register.md R270). -/
def layoutArithReg (w : Width) (opc : BitVec 2) (shift : ShiftKind) (rm : RegIdx)
    (imm6 : BitVec 6) (rn rd : RegIdx) : Word :=
  place 31 w.sf ||| place 29 opc ||| place 24 0b01011#5 ||| place 22 shift.code ||| place 16 rm
    ||| place 10 imm6 ||| place 5 rn ||| place 0 rd

/-- The logical shifted-register layout, `N` complementing the operand (30_encoding.md R110;
42_dp_register.md R271). -/
def layoutLogicReg (w : Width) (opc : BitVec 2) (N : Bool) (shift : ShiftKind) (rm : RegIdx)
    (imm6 : BitVec 6) (rn rd : RegIdx) : Word :=
  place 31 w.sf ||| place 29 opc ||| place 24 0b01010#5 ||| place 22 shift.code
    ||| place 21 (BitVec.ofBool N) ||| place 16 rm ||| place 10 imm6 ||| place 5 rn ||| place 0 rd

/-- The multiply layout, `x` selecting subtract (30_encoding.md R111; 42_dp_register.md R272). -/
def layoutMultiply (w : Width) (x : Bool) (rm ra rn rd : RegIdx) : Word :=
  place 31 w.sf ||| place 21 0b0011011000#10 ||| place 16 rm ||| place 15 (BitVec.ofBool x)
    ||| place 10 ra ||| place 5 rn ||| place 0 rd

/-- The unsigned-offset layout, `L` selecting a load (30_encoding.md R112, R113; 43_load_store.md R302). -/
def layoutUnsignedOffset (w : Width) (L : Bool) (imm12 : BitVec 12) (rn rt : RegIdx) : Word :=
  place 31 1#1 ||| place 30 w.sf ||| place 27 0b111#3 ||| place 24 1#1 ||| place 22 (BitVec.ofBool L)
    ||| place 10 imm12 ||| place 5 rn ||| place 0 rt

/-- The pre-index (`I` set) and post-index layout (30_encoding.md R113; 43_load_store.md R306). -/
def layoutIndexed (w : Width) (L : Bool) (simm9 : BitVec 9) (I : Bool) (rn rt : RegIdx) : Word :=
  place 31 1#1 ||| place 30 w.sf ||| place 27 0b111#3 ||| place 22 (BitVec.ofBool L)
    ||| place 12 simm9 ||| place 11 (BitVec.ofBool I) ||| place 10 1#1 ||| place 5 rn ||| place 0 rt

/-- The register-offset layout (30_encoding.md R113; 43_load_store.md R307). -/
def layoutRegOffset (w : Width) (L : Bool) (rm rn rt : RegIdx) : Word :=
  place 31 1#1 ||| place 30 w.sf ||| place 27 0b111#3 ||| place 22 (BitVec.ofBool L)
    ||| place 21 1#1 ||| place 16 rm ||| place 10 0b011010#6 ||| place 5 rn ||| place 0 rt

/-- The literal-load layout (30_encoding.md R114; 43_load_store.md R312). -/
def layoutLiteral (w : Width) (simm19 : BitVec 19) (rt : RegIdx) : Word :=
  place 30 w.sf ||| place 24 0b011000#6 ||| place 5 simm19 ||| place 0 rt

/-- The unconditional-branch layout (30_encoding.md R115; 44_branch.md R351). -/
def layoutBranch (simm26 : BitVec 26) : Word :=
  place 26 0b000101#6 ||| place 0 simm26

/-- The conditional-branch layout (30_encoding.md R116; 44_branch.md R352). -/
def layoutCondBranch (simm19 : BitVec 19) (cond : Cond) : Word :=
  place 24 0b01010100#8 ||| place 5 simm19 ||| place 0 cond.code

/-- The register-branch layout (30_encoding.md R117; 44_branch.md R353). -/
def layoutRegBranch (rn : RegIdx) : Word :=
  place 25 0b1101011#7 ||| place 16 0b11111#5 ||| place 5 rn

/-- The canonical instruction an alias row is another spelling of, index 31 filling the operand the
alias leaves out (30_encoding.md R135). A canonical instruction is its own. -/
def Instr.canonical : Instr → Instr
  | .halt => .halt
  | .addImm w sh imm12 rn rd => .addImm w sh imm12 rn rd
  | .addsImm w sh imm12 rn rd => .addsImm w sh imm12 rn rd
  | .subImm w sh imm12 rn rd => .subImm w sh imm12 rn rd
  | .subsImm w sh imm12 rn rd => .subsImm w sh imm12 rn rd
  | .movn w hw imm16 rd => .movn w hw imm16 rd
  | .movz w hw imm16 rd => .movz w hw imm16 rd
  | .movk w hw imm16 rd => .movk w hw imm16 rd
  | .addReg w shift rm imm6 rn rd => .addReg w shift rm imm6 rn rd
  | .addsReg w shift rm imm6 rn rd => .addsReg w shift rm imm6 rn rd
  | .subReg w shift rm imm6 rn rd => .subReg w shift rm imm6 rn rd
  | .subsReg w shift rm imm6 rn rd => .subsReg w shift rm imm6 rn rd
  | .andReg w shift rm imm6 rn rd => .andReg w shift rm imm6 rn rd
  | .bicReg w shift rm imm6 rn rd => .bicReg w shift rm imm6 rn rd
  | .orrReg w shift rm imm6 rn rd => .orrReg w shift rm imm6 rn rd
  | .ornReg w shift rm imm6 rn rd => .ornReg w shift rm imm6 rn rd
  | .eorReg w shift rm imm6 rn rd => .eorReg w shift rm imm6 rn rd
  | .eonReg w shift rm imm6 rn rd => .eonReg w shift rm imm6 rn rd
  | .andsReg w shift rm imm6 rn rd => .andsReg w shift rm imm6 rn rd
  | .bicsReg w shift rm imm6 rn rd => .bicsReg w shift rm imm6 rn rd
  | .madd w rm ra rn rd => .madd w rm ra rn rd
  | .msub w rm ra rn rd => .msub w rm ra rn rd
  | .ldrUoff w imm12 rn rt => .ldrUoff w imm12 rn rt
  | .strUoff w imm12 rn rt => .strUoff w imm12 rn rt
  | .ldrPre w simm9 rn rt => .ldrPre w simm9 rn rt
  | .strPre w simm9 rn rt => .strPre w simm9 rn rt
  | .ldrPost w simm9 rn rt => .ldrPost w simm9 rn rt
  | .strPost w simm9 rn rt => .strPost w simm9 rn rt
  | .ldrReg w rm rn rt => .ldrReg w rm rn rt
  | .strReg w rm rn rt => .strReg w rm rn rt
  | .ldrLit w simm19 rt => .ldrLit w simm19 rt
  | .b simm26 => .b simm26
  | .bCond simm19 cond => .bCond simm19 cond
  | .br rn => .br rn
  | .cmpImm w sh imm12 rn => .subsImm w sh imm12 rn zr
  | .cmnImm w sh imm12 rn => .addsImm w sh imm12 rn zr
  | .negImm w sh imm12 rd => .subImm w sh imm12 zr rd
  | .negsImm w sh imm12 rd => .subsImm w sh imm12 zr rd
  | .cmpReg w shift rm imm6 rn => .subsReg w shift rm imm6 rn zr
  | .cmnReg w shift rm imm6 rn => .addsReg w shift rm imm6 rn zr
  | .negReg w shift rm imm6 rd => .subReg w shift rm imm6 zr rd
  | .negsReg w shift rm imm6 rd => .subsReg w shift rm imm6 zr rd
  | .tst w shift rm imm6 rn => .andsReg w shift rm imm6 rn zr
  | .mvn w shift rm imm6 rd => .ornReg w shift rm imm6 zr rd
  | .mov w rm rd => .orrReg w .lsl rm 0#6 zr rd
  | .mul w rm rn rd => .madd w rm zr rn rd
  | .mneg w rm rn rd => .msub w rm zr rn rd
  | .bEq simm19 => .bCond simm19 .eq
  | .bNe simm19 => .bCond simm19 .ne
  | .bGe simm19 => .bCond simm19 .ge
  | .bLt simm19 => .bCond simm19 .lt
  | .bGt simm19 => .bCond simm19 .gt
  | .bLe simm19 => .bCond simm19 .le
  | .bAl simm19 => .bCond simm19 .al

/-- Whether an instruction is a canonical row of the opcode map (30_encoding.md R136, R146). -/
def Instr.isCanonical (i : Instr) : Bool :=
  i.canonical == i

/-- The word of an instruction, field by field as the layouts of 30_encoding.md give it. -/
def encode : Instr → Word
  | .halt => terminateWord
  | .addImm w sh imm12 rn rd => layoutArithImm w 0b00#2 sh imm12 rn rd
  | .addsImm w sh imm12 rn rd => layoutArithImm w 0b01#2 sh imm12 rn rd
  | .subImm w sh imm12 rn rd => layoutArithImm w 0b10#2 sh imm12 rn rd
  | .subsImm w sh imm12 rn rd => layoutArithImm w 0b11#2 sh imm12 rn rd
  | .movn w hw imm16 rd => layoutWideMove w 0b00#2 hw imm16 rd
  | .movz w hw imm16 rd => layoutWideMove w 0b10#2 hw imm16 rd
  | .movk w hw imm16 rd => layoutWideMove w 0b11#2 hw imm16 rd
  | .addReg w shift rm imm6 rn rd => layoutArithReg w 0b00#2 shift rm imm6 rn rd
  | .addsReg w shift rm imm6 rn rd => layoutArithReg w 0b01#2 shift rm imm6 rn rd
  | .subReg w shift rm imm6 rn rd => layoutArithReg w 0b10#2 shift rm imm6 rn rd
  | .subsReg w shift rm imm6 rn rd => layoutArithReg w 0b11#2 shift rm imm6 rn rd
  | .andReg w shift rm imm6 rn rd => layoutLogicReg w 0b00#2 false shift rm imm6 rn rd
  | .bicReg w shift rm imm6 rn rd => layoutLogicReg w 0b00#2 true shift rm imm6 rn rd
  | .orrReg w shift rm imm6 rn rd => layoutLogicReg w 0b01#2 false shift rm imm6 rn rd
  | .ornReg w shift rm imm6 rn rd => layoutLogicReg w 0b01#2 true shift rm imm6 rn rd
  | .eorReg w shift rm imm6 rn rd => layoutLogicReg w 0b10#2 false shift rm imm6 rn rd
  | .eonReg w shift rm imm6 rn rd => layoutLogicReg w 0b10#2 true shift rm imm6 rn rd
  | .andsReg w shift rm imm6 rn rd => layoutLogicReg w 0b11#2 false shift rm imm6 rn rd
  | .bicsReg w shift rm imm6 rn rd => layoutLogicReg w 0b11#2 true shift rm imm6 rn rd
  | .madd w rm ra rn rd => layoutMultiply w false rm ra rn rd
  | .msub w rm ra rn rd => layoutMultiply w true rm ra rn rd
  | .ldrUoff w imm12 rn rt => layoutUnsignedOffset w true imm12 rn rt
  | .strUoff w imm12 rn rt => layoutUnsignedOffset w false imm12 rn rt
  | .ldrPre w simm9 rn rt => layoutIndexed w true simm9 true rn rt
  | .strPre w simm9 rn rt => layoutIndexed w false simm9 true rn rt
  | .ldrPost w simm9 rn rt => layoutIndexed w true simm9 false rn rt
  | .strPost w simm9 rn rt => layoutIndexed w false simm9 false rn rt
  | .ldrReg w rm rn rt => layoutRegOffset w true rm rn rt
  | .strReg w rm rn rt => layoutRegOffset w false rm rn rt
  | .ldrLit w simm19 rt => layoutLiteral w simm19 rt
  | .b simm26 => layoutBranch simm26
  | .bCond simm19 cond => layoutCondBranch simm19 cond
  | .br rn => layoutRegBranch rn
  | .cmpImm w sh imm12 rn => layoutArithImm w 0b11#2 sh imm12 rn zr
  | .cmnImm w sh imm12 rn => layoutArithImm w 0b01#2 sh imm12 rn zr
  | .negImm w sh imm12 rd => layoutArithImm w 0b10#2 sh imm12 zr rd
  | .negsImm w sh imm12 rd => layoutArithImm w 0b11#2 sh imm12 zr rd
  | .cmpReg w shift rm imm6 rn => layoutArithReg w 0b11#2 shift rm imm6 rn zr
  | .cmnReg w shift rm imm6 rn => layoutArithReg w 0b01#2 shift rm imm6 rn zr
  | .negReg w shift rm imm6 rd => layoutArithReg w 0b10#2 shift rm imm6 zr rd
  | .negsReg w shift rm imm6 rd => layoutArithReg w 0b11#2 shift rm imm6 zr rd
  | .tst w shift rm imm6 rn => layoutLogicReg w 0b11#2 false shift rm imm6 rn zr
  | .mvn w shift rm imm6 rd => layoutLogicReg w 0b01#2 true shift rm imm6 zr rd
  | .mov w rm rd => layoutLogicReg w 0b01#2 false .lsl rm 0#6 zr rd
  | .mul w rm rn rd => layoutMultiply w false rm zr rn rd
  | .mneg w rm rn rd => layoutMultiply w true rm zr rn rd
  | .bEq simm19 => layoutCondBranch simm19 .eq
  | .bNe simm19 => layoutCondBranch simm19 .ne
  | .bGe simm19 => layoutCondBranch simm19 .ge
  | .bLt simm19 => layoutCondBranch simm19 .lt
  | .bGt simm19 => layoutCondBranch simm19 .gt
  | .bLe simm19 => layoutCondBranch simm19 .le
  | .bAl simm19 => layoutCondBranch simm19 .al

/-! ## The opcode map -/

/-- The constraints of the opcode map's column "also" (30_encoding.md R146). -/
inductive RowConstraint where
  /-- No constraint beyond mask and match. -/
  | unconstrained
  /-- `sf = 0` implies `hw < 2`. -/
  | halfword
  /-- `shift != 11`, and `sf = 0` implies `imm6 < 32`. -/
  | arithAmount
  /-- `sf = 0` implies `imm6 < 32`. -/
  | logicAmount
  /-- `sf = 0` implies `imm6 < 32`, and the word is not the terminate word. -/
  | logicAmountNotTerminate
  /-- `cond` in the table of 30_encoding.md R119. -/
  | knownCondition
deriving DecidableEq, Repr

/-- Whether a word meets a constraint of the opcode map. -/
def RowConstraint.holds (c : RowConstraint) (v : Word) : Bool :=
  let amountOk := v.getLsbD 31 || !v.getLsbD 15
  match c with
  | .unconstrained => true
  | .halfword => v.getLsbD 31 || !v.getLsbD 22
  | .arithAmount => slice 23 22 v != 0b11#2 && amountOk
  | .logicAmount => amountOk
  | .logicAmountNotTerminate => amountOk && v != terminateWord
  | .knownCondition => (condOfCode (slice 3 0 v)).isSome

/-- A row of the opcode map (30_encoding.md R146). -/
structure OpcodeRow where
  /-- The row's `id` in opcode_table.json. -/
  name : String
  /-- The value the masked word has. -/
  pattern : Word
  /-- The bits the row fixes. -/
  mask : Word
  /-- The row's column "also". -/
  also : RowConstraint
deriving DecidableEq, Repr

/-- A word matches a row when `w AND mask = match` and the row's constraint holds (30_encoding.md R146). -/
def OpcodeRow.takes (r : OpcodeRow) (v : Word) : Bool :=
  (v &&& r.mask) == r.pattern && r.also.holds v

/-- The row of opcode_table.json an instruction stands for. -/
def Instr.row : Instr → OpcodeRow
  | .halt => ⟨"HALT", 0x8A000000, 0xFFFFFFFF, .unconstrained⟩
  | .addImm _ _ _ _ _ => ⟨"ADD_imm", 0x11000000, 0x7F800000, .unconstrained⟩
  | .addsImm _ _ _ _ _ => ⟨"ADDS_imm", 0x31000000, 0x7F800000, .unconstrained⟩
  | .subImm _ _ _ _ _ => ⟨"SUB_imm", 0x51000000, 0x7F800000, .unconstrained⟩
  | .subsImm _ _ _ _ _ => ⟨"SUBS_imm", 0x71000000, 0x7F800000, .unconstrained⟩
  | .movn _ _ _ _ => ⟨"MOVN", 0x12800000, 0x7F800000, .halfword⟩
  | .movz _ _ _ _ => ⟨"MOVZ", 0x52800000, 0x7F800000, .halfword⟩
  | .movk _ _ _ _ => ⟨"MOVK", 0x72800000, 0x7F800000, .halfword⟩
  | .addReg _ _ _ _ _ _ => ⟨"ADD_reg", 0x0B000000, 0x7F200000, .arithAmount⟩
  | .addsReg _ _ _ _ _ _ => ⟨"ADDS_reg", 0x2B000000, 0x7F200000, .arithAmount⟩
  | .subReg _ _ _ _ _ _ => ⟨"SUB_reg", 0x4B000000, 0x7F200000, .arithAmount⟩
  | .subsReg _ _ _ _ _ _ => ⟨"SUBS_reg", 0x6B000000, 0x7F200000, .arithAmount⟩
  | .andReg _ _ _ _ _ _ => ⟨"AND", 0x0A000000, 0x7F200000, .logicAmountNotTerminate⟩
  | .bicReg _ _ _ _ _ _ => ⟨"BIC", 0x0A200000, 0x7F200000, .logicAmount⟩
  | .orrReg _ _ _ _ _ _ => ⟨"ORR", 0x2A000000, 0x7F200000, .logicAmount⟩
  | .ornReg _ _ _ _ _ _ => ⟨"ORN", 0x2A200000, 0x7F200000, .logicAmount⟩
  | .eorReg _ _ _ _ _ _ => ⟨"EOR", 0x4A000000, 0x7F200000, .logicAmount⟩
  | .eonReg _ _ _ _ _ _ => ⟨"EON", 0x4A200000, 0x7F200000, .logicAmount⟩
  | .andsReg _ _ _ _ _ _ => ⟨"ANDS", 0x6A000000, 0x7F200000, .logicAmount⟩
  | .bicsReg _ _ _ _ _ _ => ⟨"BICS", 0x6A200000, 0x7F200000, .logicAmount⟩
  | .madd _ _ _ _ _ => ⟨"MADD", 0x1B000000, 0x7FE08000, .unconstrained⟩
  | .msub _ _ _ _ _ => ⟨"MSUB", 0x1B008000, 0x7FE08000, .unconstrained⟩
  | .ldrUoff _ _ _ _ => ⟨"LDR_uoff", 0xB9400000, 0xBFC00000, .unconstrained⟩
  | .strUoff _ _ _ _ => ⟨"STR_uoff", 0xB9000000, 0xBFC00000, .unconstrained⟩
  | .ldrPre _ _ _ _ => ⟨"LDR_pre", 0xB8400C00, 0xBFE00C00, .unconstrained⟩
  | .strPre _ _ _ _ => ⟨"STR_pre", 0xB8000C00, 0xBFE00C00, .unconstrained⟩
  | .ldrPost _ _ _ _ => ⟨"LDR_post", 0xB8400400, 0xBFE00C00, .unconstrained⟩
  | .strPost _ _ _ _ => ⟨"STR_post", 0xB8000400, 0xBFE00C00, .unconstrained⟩
  | .ldrReg _ _ _ _ => ⟨"LDR_reg", 0xB8606800, 0xBFE0FC00, .unconstrained⟩
  | .strReg _ _ _ _ => ⟨"STR_reg", 0xB8206800, 0xBFE0FC00, .unconstrained⟩
  | .ldrLit _ _ _ => ⟨"LDR_lit", 0x18000000, 0xBF000000, .unconstrained⟩
  | .b _ => ⟨"B", 0x14000000, 0xFC000000, .unconstrained⟩
  | .bCond _ _ => ⟨"B_cond", 0x54000000, 0xFF000010, .knownCondition⟩
  | .br _ => ⟨"BR", 0xD61F0000, 0xFFFFFC1F, .unconstrained⟩
  | .cmpImm _ _ _ _ => ⟨"CMP_imm", 0x7100001F, 0x7F80001F, .unconstrained⟩
  | .cmnImm _ _ _ _ => ⟨"CMN_imm", 0x3100001F, 0x7F80001F, .unconstrained⟩
  | .negImm _ _ _ _ => ⟨"NEG_imm", 0x510003E0, 0x7F8003E0, .unconstrained⟩
  | .negsImm _ _ _ _ => ⟨"NEGS_imm", 0x710003E0, 0x7F8003E0, .unconstrained⟩
  | .cmpReg _ _ _ _ _ => ⟨"CMP_reg", 0x6B00001F, 0x7F20001F, .arithAmount⟩
  | .cmnReg _ _ _ _ _ => ⟨"CMN_reg", 0x2B00001F, 0x7F20001F, .arithAmount⟩
  | .negReg _ _ _ _ _ => ⟨"NEG_reg", 0x4B0003E0, 0x7F2003E0, .arithAmount⟩
  | .negsReg _ _ _ _ _ => ⟨"NEGS_reg", 0x6B0003E0, 0x7F2003E0, .arithAmount⟩
  | .tst _ _ _ _ _ => ⟨"TST", 0x6A00001F, 0x7F20001F, .logicAmount⟩
  | .mvn _ _ _ _ _ => ⟨"MVN", 0x2A2003E0, 0x7F2003E0, .logicAmount⟩
  | .mov _ _ _ => ⟨"MOV", 0x2A0003E0, 0x7FE0FFE0, .unconstrained⟩
  | .mul _ _ _ _ => ⟨"MUL", 0x1B007C00, 0x7FE0FC00, .unconstrained⟩
  | .mneg _ _ _ _ => ⟨"MNEG", 0x1B00FC00, 0x7FE0FC00, .unconstrained⟩
  | .bEq _ => ⟨"B_EQ", 0x54000000, 0xFF00001F, .unconstrained⟩
  | .bNe _ => ⟨"B_NE", 0x54000001, 0xFF00001F, .unconstrained⟩
  | .bGe _ => ⟨"B_GE", 0x5400000A, 0xFF00001F, .unconstrained⟩
  | .bLt _ => ⟨"B_LT", 0x5400000B, 0xFF00001F, .unconstrained⟩
  | .bGt _ => ⟨"B_GT", 0x5400000C, 0xFF00001F, .unconstrained⟩
  | .bLe _ => ⟨"B_LE", 0x5400000D, 0xFF00001F, .unconstrained⟩
  | .bAl _ => ⟨"B_AL", 0x5400000E, 0xFF00001F, .unconstrained⟩

/-- The value of an operand field, as a word to insert. -/
def fieldValue {n : Nat} (v : BitVec n) : Word :=
  v.setWidth 32

/-- The operand fields of an instruction's row, as opcode_table.json gives them: high bit, low bit and
value. -/
def Instr.fields : Instr → List (Nat × Nat × Word)
  | .halt => []
  | .addImm w sh imm12 rn rd =>
      [(31, 31, fieldValue w.sf), (22, 22, fieldValue (BitVec.ofBool sh)),
       (21, 10, fieldValue imm12), (9, 5, fieldValue rn), (4, 0, fieldValue rd)]
  | .addsImm w sh imm12 rn rd =>
      [(31, 31, fieldValue w.sf), (22, 22, fieldValue (BitVec.ofBool sh)),
       (21, 10, fieldValue imm12), (9, 5, fieldValue rn), (4, 0, fieldValue rd)]
  | .subImm w sh imm12 rn rd =>
      [(31, 31, fieldValue w.sf), (22, 22, fieldValue (BitVec.ofBool sh)),
       (21, 10, fieldValue imm12), (9, 5, fieldValue rn), (4, 0, fieldValue rd)]
  | .subsImm w sh imm12 rn rd =>
      [(31, 31, fieldValue w.sf), (22, 22, fieldValue (BitVec.ofBool sh)),
       (21, 10, fieldValue imm12), (9, 5, fieldValue rn), (4, 0, fieldValue rd)]
  | .movn w hw imm16 rd =>
      [(31, 31, fieldValue w.sf), (22, 21, fieldValue hw), (20, 5, fieldValue imm16),
       (4, 0, fieldValue rd)]
  | .movz w hw imm16 rd =>
      [(31, 31, fieldValue w.sf), (22, 21, fieldValue hw), (20, 5, fieldValue imm16),
       (4, 0, fieldValue rd)]
  | .movk w hw imm16 rd =>
      [(31, 31, fieldValue w.sf), (22, 21, fieldValue hw), (20, 5, fieldValue imm16),
       (4, 0, fieldValue rd)]
  | .addReg w shift rm imm6 rn rd =>
      [(31, 31, fieldValue w.sf), (23, 22, fieldValue shift.code), (20, 16, fieldValue rm),
       (15, 10, fieldValue imm6), (9, 5, fieldValue rn), (4, 0, fieldValue rd)]
  | .addsReg w shift rm imm6 rn rd =>
      [(31, 31, fieldValue w.sf), (23, 22, fieldValue shift.code), (20, 16, fieldValue rm),
       (15, 10, fieldValue imm6), (9, 5, fieldValue rn), (4, 0, fieldValue rd)]
  | .subReg w shift rm imm6 rn rd =>
      [(31, 31, fieldValue w.sf), (23, 22, fieldValue shift.code), (20, 16, fieldValue rm),
       (15, 10, fieldValue imm6), (9, 5, fieldValue rn), (4, 0, fieldValue rd)]
  | .subsReg w shift rm imm6 rn rd =>
      [(31, 31, fieldValue w.sf), (23, 22, fieldValue shift.code), (20, 16, fieldValue rm),
       (15, 10, fieldValue imm6), (9, 5, fieldValue rn), (4, 0, fieldValue rd)]
  | .andReg w shift rm imm6 rn rd =>
      [(31, 31, fieldValue w.sf), (23, 22, fieldValue shift.code), (20, 16, fieldValue rm),
       (15, 10, fieldValue imm6), (9, 5, fieldValue rn), (4, 0, fieldValue rd)]
  | .bicReg w shift rm imm6 rn rd =>
      [(31, 31, fieldValue w.sf), (23, 22, fieldValue shift.code), (20, 16, fieldValue rm),
       (15, 10, fieldValue imm6), (9, 5, fieldValue rn), (4, 0, fieldValue rd)]
  | .orrReg w shift rm imm6 rn rd =>
      [(31, 31, fieldValue w.sf), (23, 22, fieldValue shift.code), (20, 16, fieldValue rm),
       (15, 10, fieldValue imm6), (9, 5, fieldValue rn), (4, 0, fieldValue rd)]
  | .ornReg w shift rm imm6 rn rd =>
      [(31, 31, fieldValue w.sf), (23, 22, fieldValue shift.code), (20, 16, fieldValue rm),
       (15, 10, fieldValue imm6), (9, 5, fieldValue rn), (4, 0, fieldValue rd)]
  | .eorReg w shift rm imm6 rn rd =>
      [(31, 31, fieldValue w.sf), (23, 22, fieldValue shift.code), (20, 16, fieldValue rm),
       (15, 10, fieldValue imm6), (9, 5, fieldValue rn), (4, 0, fieldValue rd)]
  | .eonReg w shift rm imm6 rn rd =>
      [(31, 31, fieldValue w.sf), (23, 22, fieldValue shift.code), (20, 16, fieldValue rm),
       (15, 10, fieldValue imm6), (9, 5, fieldValue rn), (4, 0, fieldValue rd)]
  | .andsReg w shift rm imm6 rn rd =>
      [(31, 31, fieldValue w.sf), (23, 22, fieldValue shift.code), (20, 16, fieldValue rm),
       (15, 10, fieldValue imm6), (9, 5, fieldValue rn), (4, 0, fieldValue rd)]
  | .bicsReg w shift rm imm6 rn rd =>
      [(31, 31, fieldValue w.sf), (23, 22, fieldValue shift.code), (20, 16, fieldValue rm),
       (15, 10, fieldValue imm6), (9, 5, fieldValue rn), (4, 0, fieldValue rd)]
  | .madd w rm ra rn rd =>
      [(31, 31, fieldValue w.sf), (20, 16, fieldValue rm), (14, 10, fieldValue ra),
       (9, 5, fieldValue rn), (4, 0, fieldValue rd)]
  | .msub w rm ra rn rd =>
      [(31, 31, fieldValue w.sf), (20, 16, fieldValue rm), (14, 10, fieldValue ra),
       (9, 5, fieldValue rn), (4, 0, fieldValue rd)]
  | .ldrUoff w imm12 rn rt =>
      [(30, 30, fieldValue w.sf), (21, 10, fieldValue imm12), (9, 5, fieldValue rn),
       (4, 0, fieldValue rt)]
  | .strUoff w imm12 rn rt =>
      [(30, 30, fieldValue w.sf), (21, 10, fieldValue imm12), (9, 5, fieldValue rn),
       (4, 0, fieldValue rt)]
  | .ldrPre w simm9 rn rt =>
      [(30, 30, fieldValue w.sf), (20, 12, fieldValue simm9), (9, 5, fieldValue rn),
       (4, 0, fieldValue rt)]
  | .strPre w simm9 rn rt =>
      [(30, 30, fieldValue w.sf), (20, 12, fieldValue simm9), (9, 5, fieldValue rn),
       (4, 0, fieldValue rt)]
  | .ldrPost w simm9 rn rt =>
      [(30, 30, fieldValue w.sf), (20, 12, fieldValue simm9), (9, 5, fieldValue rn),
       (4, 0, fieldValue rt)]
  | .strPost w simm9 rn rt =>
      [(30, 30, fieldValue w.sf), (20, 12, fieldValue simm9), (9, 5, fieldValue rn),
       (4, 0, fieldValue rt)]
  | .ldrReg w rm rn rt =>
      [(30, 30, fieldValue w.sf), (20, 16, fieldValue rm), (9, 5, fieldValue rn),
       (4, 0, fieldValue rt)]
  | .strReg w rm rn rt =>
      [(30, 30, fieldValue w.sf), (20, 16, fieldValue rm), (9, 5, fieldValue rn),
       (4, 0, fieldValue rt)]
  | .ldrLit w simm19 rt =>
      [(30, 30, fieldValue w.sf), (23, 5, fieldValue simm19), (4, 0, fieldValue rt)]
  | .b simm26 => [(25, 0, fieldValue simm26)]
  | .bCond simm19 cond => [(23, 5, fieldValue simm19), (3, 0, fieldValue cond.code)]
  | .br rn => [(9, 5, fieldValue rn)]
  | .cmpImm w sh imm12 rn =>
      [(31, 31, fieldValue w.sf), (22, 22, fieldValue (BitVec.ofBool sh)),
       (21, 10, fieldValue imm12), (9, 5, fieldValue rn)]
  | .cmnImm w sh imm12 rn =>
      [(31, 31, fieldValue w.sf), (22, 22, fieldValue (BitVec.ofBool sh)),
       (21, 10, fieldValue imm12), (9, 5, fieldValue rn)]
  | .negImm w sh imm12 rd =>
      [(31, 31, fieldValue w.sf), (22, 22, fieldValue (BitVec.ofBool sh)),
       (21, 10, fieldValue imm12), (4, 0, fieldValue rd)]
  | .negsImm w sh imm12 rd =>
      [(31, 31, fieldValue w.sf), (22, 22, fieldValue (BitVec.ofBool sh)),
       (21, 10, fieldValue imm12), (4, 0, fieldValue rd)]
  | .cmpReg w shift rm imm6 rn =>
      [(31, 31, fieldValue w.sf), (23, 22, fieldValue shift.code), (20, 16, fieldValue rm),
       (15, 10, fieldValue imm6), (9, 5, fieldValue rn)]
  | .cmnReg w shift rm imm6 rn =>
      [(31, 31, fieldValue w.sf), (23, 22, fieldValue shift.code), (20, 16, fieldValue rm),
       (15, 10, fieldValue imm6), (9, 5, fieldValue rn)]
  | .negReg w shift rm imm6 rd =>
      [(31, 31, fieldValue w.sf), (23, 22, fieldValue shift.code), (20, 16, fieldValue rm),
       (15, 10, fieldValue imm6), (4, 0, fieldValue rd)]
  | .negsReg w shift rm imm6 rd =>
      [(31, 31, fieldValue w.sf), (23, 22, fieldValue shift.code), (20, 16, fieldValue rm),
       (15, 10, fieldValue imm6), (4, 0, fieldValue rd)]
  | .tst w shift rm imm6 rn =>
      [(31, 31, fieldValue w.sf), (23, 22, fieldValue shift.code), (20, 16, fieldValue rm),
       (15, 10, fieldValue imm6), (9, 5, fieldValue rn)]
  | .mvn w shift rm imm6 rd =>
      [(31, 31, fieldValue w.sf), (23, 22, fieldValue shift.code), (20, 16, fieldValue rm),
       (15, 10, fieldValue imm6), (4, 0, fieldValue rd)]
  | .mov w rm rd => [(31, 31, fieldValue w.sf), (20, 16, fieldValue rm), (4, 0, fieldValue rd)]
  | .mul w rm rn rd =>
      [(31, 31, fieldValue w.sf), (20, 16, fieldValue rm), (9, 5, fieldValue rn),
       (4, 0, fieldValue rd)]
  | .mneg w rm rn rd =>
      [(31, 31, fieldValue w.sf), (20, 16, fieldValue rm), (9, 5, fieldValue rn),
       (4, 0, fieldValue rd)]
  | .bEq simm19 => [(23, 5, fieldValue simm19)]
  | .bNe simm19 => [(23, 5, fieldValue simm19)]
  | .bGe simm19 => [(23, 5, fieldValue simm19)]
  | .bLt simm19 => [(23, 5, fieldValue simm19)]
  | .bGt simm19 => [(23, 5, fieldValue simm19)]
  | .bLe simm19 => [(23, 5, fieldValue simm19)]
  | .bAl simm19 => [(23, 5, fieldValue simm19)]

/-- A word built from a row's fixed bits by inserting each field (30_encoding.md R140, 00_scope.md R9). -/
def insertFields (fixed : Word) (fields : List (Nat × Nat × Word)) : Word :=
  fields.foldl (fun v f => insertField f.1 f.2.1 v f.2.2) fixed

/-- One instruction of each row of the terminate and data-processing immediate rows. -/
def immediateSamples : List Instr :=
  [ .halt, .addImm .w64 false 0#12 0#5 0#5, .addsImm .w64 false 0#12 0#5 0#5,
    .subImm .w64 false 0#12 0#5 0#5, .subsImm .w64 false 0#12 0#5 0#5, .movn .w64 0#2 0#16 0#5,
    .movz .w64 0#2 0#16 0#5, .movk .w64 0#2 0#16 0#5 ]

/-- One instruction of each row of the data-processing register rows. -/
def registerSamples : List Instr :=
  [ .addReg .w64 .lsl 0#5 0#6 0#5 0#5, .addsReg .w64 .lsl 0#5 0#6 0#5 0#5,
    .subReg .w64 .lsl 0#5 0#6 0#5 0#5, .subsReg .w64 .lsl 0#5 0#6 0#5 0#5,
    .andReg .w64 .lsl 0#5 0#6 0#5 1#5, .bicReg .w64 .lsl 0#5 0#6 0#5 0#5,
    .orrReg .w64 .lsl 0#5 0#6 0#5 0#5, .ornReg .w64 .lsl 0#5 0#6 0#5 0#5,
    .eorReg .w64 .lsl 0#5 0#6 0#5 0#5, .eonReg .w64 .lsl 0#5 0#6 0#5 0#5,
    .andsReg .w64 .lsl 0#5 0#6 0#5 0#5, .bicsReg .w64 .lsl 0#5 0#6 0#5 0#5,
    .madd .w64 0#5 0#5 0#5 0#5, .msub .w64 0#5 0#5 0#5 0#5 ]

/-- One instruction of each row of the load, store and branch rows. -/
def transferAndBranchSamples : List Instr :=
  [ .strUoff .w64 0#12 0#5 0#5, .ldrUoff .w64 0#12 0#5 0#5, .strPre .w64 0#9 0#5 0#5,
    .ldrPre .w64 0#9 0#5 0#5, .strPost .w64 0#9 0#5 0#5, .ldrPost .w64 0#9 0#5 0#5,
    .strReg .w64 0#5 0#5 0#5, .ldrReg .w64 0#5 0#5 0#5, .ldrLit .w64 0#19 0#5, .b 0#26,
    .bCond 0#19 .eq, .br 0#5 ]

/-- One well-formed instruction of each canonical row, the rows in the order of 30_encoding.md R146. -/
def canonicalSamples : List Instr :=
  immediateSamples ++ registerSamples ++ transferAndBranchSamples

/-- The 34 canonical rows of the opcode map (30_encoding.md R146). -/
def opcodeMap : List OpcodeRow :=
  canonicalSamples.map Instr.row

end Sys2Proof
end

