-- ==== Sys2Proof/Machine/Ops.lean ====
section
/-! DEFINITION. The named operations over registers, memory and the run: register access at a width
(00_scope.md R13), the memory primitives (20_memory.md), and the ways an instruction ends: advance,
redirect, halt and raise (40_execution_cycle.md R162 to R165). -/

namespace Sys2Proof.Machine

/-- The outcome of an instruction or a step. -/
abbrev Result := Host.Outcome State Fault Refusal

/-! ## Registers -/

/-- `x[i]`, 0 for index 31 (10_state.md R31). -/
def State.x (s : State) (i : RegIdx) : DWord :=
  if h : i.toNat < 31 then s.regs[i.toNat] else 0#64

/-- `x[i] <- v`, discarded for index 31 (10_state.md R32). -/
def State.setX (s : State) (i : RegIdx) (v : DWord) : State :=
  if h : i.toNat < 31 then { s with regs := s.regs.set i.toNat v h } else s

/-- `X(i, w)`: the low `w` bits of `x[i]` (00_scope.md R13). -/
def State.xw (s : State) (w : Width) (i : RegIdx) : BitVec w.bits :=
  (s.x i).setWidth w.bits

/-- `X(i, w) <- v`: all 64 bits are written, `v` zero-extended (00_scope.md R13, 10_state.md R32). -/
def State.setXw (s : State) (w : Width) (i : RegIdx) (v : BitVec w.bits) : State :=
  s.setX i (v.setWidth 64)

/-- `NZCV <- f` (10_state.md R36). -/
def State.setFlags (s : State) (f : Flags) : State :=
  { s with flags := f }

/-- `PC <- v` (10_state.md R38). -/
def State.setPc (s : State) (v : DWord) : State :=
  { s with pc := v }

/-! ## Memory -/

/-- Memory in canonical form: addresses strictly rising and inside the array, no byte listed that an
unlisted address reads as. -/
abbrev Memory.wf (m : Memory) : Prop :=
  m.Pairwise (fun c d => c.1 < d.1) ∧ ∀ c ∈ m, c.2 ≠ unlistedByte ∧ c.1 < memSize

/-- `MEM[a]` (10_state.md R41). -/
def Memory.readByte : Memory → Nat → Byte
  | [], _ => unlistedByte
  | c :: m, a => if c.1 = a then c.2 else Memory.readByte m a

/-- `MEM[a] := b`, keeping the canonical form. -/
def Memory.writeByte : Memory → Nat → Byte → Memory
  | [], a, b => if b = unlistedByte then [] else [(a, b)]
  | c :: m, a, b =>
    if a < c.1 then (if b = unlistedByte then c :: m else (a, b) :: c :: m)
    else if a = c.1 then (if b = unlistedByte then m else (a, b) :: m)
    else c :: Memory.writeByte m a b

/-- `MEM[a + k] := bs[k]` for each byte of a list, lowest address first. -/
def Memory.writeBytes (m : Memory) (a : Nat) : List Byte → Memory
  | [] => m
  | b :: bs => Memory.writeBytes (m.writeByte a b) (a + 1) bs

/-- `MEM[a+n-1] : ... : MEM[a]`, the little-endian value of the width's bytes (20_memory.md R60). -/
def Memory.read (m : Memory) (a : Nat) (w : Width) : BitVec w.bits :=
  valueOfBytes w.bits ((List.range w.bytes).map fun k => m.readByte (a + k))

/-- `v[8k+7:8k]` for `k = 0 .. n-1`: the bytes a store writes, lowest address first (20_memory.md R61). -/
def bytesOf (w : Width) (v : BitVec w.bits) : List Byte :=
  (List.range w.bytes).map (byteAt v)

/-- `MEM[a + k] := v[8k+7:8k]` for `k = 0 .. n-1` (20_memory.md R61). -/
def Memory.write (m : Memory) (a : Nat) (w : Width) (v : BitVec w.bits) : Memory :=
  m.writeBytes a (bytesOf w v)

/-- `InBounds(addr, n)`, on unbounded integers (20_memory.md R66). -/
def inBounds (addr : DWord) (n : Nat) : Bool :=
  addr.toNat + n ≤ memSize

/-- `MemRead(addr, n)` for data: bounds first, then the bytes (20_memory.md R60). -/
def State.loadData (s : State) (w : Width) (ea : DWord) : Except Fault (BitVec w.bits) :=
  if inBounds ea w.bytes then .ok (s.mem.read ea.toNat w)
  else .error (.dataBounds ea w.bytes s.pc)

/-- `MemWrite(addr, n, v)`: bounds first, and a store that faults writes no byte (20_memory.md R61). -/
def State.storeData (s : State) (w : Width) (ea : DWord) (v : BitVec w.bits) : Except Fault State :=
  if inBounds ea w.bytes then .ok { s with mem := s.mem.write ea.toNat w v }
  else .error (.dataBounds ea w.bytes s.pc)

/-! ## How an instruction ends -/

/-- `raise F(info)`: the run ends in `Failed(F)` and the state is no longer observable
(40_execution_cycle.md R164, 60_exceptions.md R379). No trap is taken and nothing is saved, so the
fault with its recorded values is all that is left. This is the one way a fault is raised; the
hardware has no return from it (60_exceptions.md R380). -/
def raise (f : Fault) : Result :=
  .fault f

/-- The end of an instruction that did not redirect: `PC <- PC + 4`, modulo 2^64
(40_execution_cycle.md R162, 10_state.md R38). -/
def advance (s : State) : Result :=
  .next (s.setPc (s.pc + 4#64))

/-- The end of an instruction that wrote the PC: the redirect signal suppresses the advance, also
where the target is the branch's own address (40_execution_cycle.md R163). -/
def redirect (target : DWord) (s : State) : Result :=
  .next (s.setPc target)

/-- `run <- Halted`, nothing else written (40_execution_cycle.md R165). -/
def halt (s : State) : Result :=
  .next { s with run := .halted }

/-- The run state an outcome leaves: a fault leaves `Failed(f)` (10_state.md R39,
40_execution_cycle.md R164); a refused step leaves no state of its own. -/
def runStateAfter : Result → Option RunState
  | .next s => some s.run
  | .fault f => some (.failed f)
  | .refused _ => none

/-- The numeric code of a fault (60_exceptions.md R370). -/
def Fault.code : Fault → Nat
  | .fetchBounds _ => 1
  | .fetchAlign _ => 2
  | .decodeCategory _ _ => 3
  | .decodeCondition _ _ => 4
  | .decodeIllegalShift _ _ => 5
  | .decodeUnallocated _ _ => 6
  | .dataBounds _ _ _ => 7

/-- The fault a decode error raises, with the word and the PC it records (60_exceptions.md R370). -/
def faultOfDecodeError (e : DecodeError) (v : Word) (pc : DWord) : Fault :=
  match e with
  | .category => .decodeCategory v pc
  | .condition => .decodeCondition v pc
  | .illegalShift => .decodeIllegalShift v pc
  | .unallocated => .decodeUnallocated v pc

end Sys2Proof.Machine
end

