-- ==== Sys2Proof/Machine/Operands.lean ====
section
/-! DEFINITION. Every operand form: sign extension (00_scope.md R10), the immediates
(30_encoding.md R121), the shifter (40_execution_cycle.md R170, R171) and the address translator
(43_load_store.md R290, R291). -/

namespace Sys2Proof.Machine

/-! ## Immediates -/

/-- `sext_64(v)` of an `n`-bit field (00_scope.md R10). -/
def sext {n : Nat} (v : BitVec n) : DWord :=
  v.signExtend 64

/-- The arithmetic immediate, `zext_w(imm12) << (12 * sh)` (30_encoding.md R121). -/
def arithImmediate (w : Width) (sh : Bool) (imm12 : BitVec 12) : BitVec w.bits :=
  imm12.setWidth w.bits <<< (if sh then 12 else 0)

/-- The bit a halfword position stands for, `16 * hw` (30_encoding.md R121). -/
def halfwordBit (hw : BitVec 2) : Nat :=
  16 * hw.toNat

/-- The wide-move immediate, `zext_w(imm16) << (16 * hw)` (30_encoding.md R121). -/
def wideImmediate (w : Width) (hw : BitVec 2) (imm16 : BitVec 16) : BitVec w.bits :=
  imm16.setWidth w.bits <<< halfwordBit hw

/-- `old` with bits `16*hw+15` to `16*hw` replaced by `imm16` (41_dp_immediate.md R212). -/
def keepHalfwords (w : Width) (hw : BitVec 2) (imm16 : BitVec 16) (old : BitVec w.bits) :
    BitVec w.bits :=
  (old &&& ~~~((BitVec.allOnes 16).setWidth w.bits <<< halfwordBit hw)) ||| wideImmediate w hw imm16

/-! ## Shifter -/

/-- `Shift(w, kind, v, n)` for `0 <= n < w` (40_execution_cycle.md R171). -/
def shiftBy {n : Nat} (kind : ShiftKind) (v : BitVec n) (amount : Nat) : BitVec n :=
  match kind with
  | .lsl => v <<< amount
  | .lsr => v >>> amount
  | .asr => v.sshiftRight amount
  | .ror => if amount = 0 then v else v >>> amount ||| v <<< (n - amount)

/-- The shifted register operand, `Shift(w, shift, X(rm, w), imm6)` (40_execution_cycle.md R170). -/
def shiftedReg (s : State) (w : Width) (shift : ShiftKind) (rm : RegIdx) (imm6 : BitVec 6) :
    BitVec w.bits :=
  shiftBy shift (s.xw w rm) imm6.toNat

/-- `Op2(w, shift, rm, imm6, N)`: the shifted register, complemented when `N` is set
(40_execution_cycle.md R170). -/
def logicOperand (s : State) (w : Width) (N : Bool) (shift : ShiftKind) (rm : RegIdx)
    (imm6 : BitVec 6) : BitVec w.bits :=
  if N then ~~~shiftedReg s w shift rm imm6 else shiftedReg s w shift rm imm6

/-! ## Address translator -/

/-- The addressing modes with a base register (43_load_store.md R290). -/
inductive AddrMode where
  /-- Unsigned offset, in units of the transfer size. -/
  | unsignedOffset (imm12 : BitVec 12)
  /-- Register offset, unscaled. -/
  | regOffset (rm : RegIdx)
  /-- Pre-index, a byte offset written back before the access. -/
  | preIndex (simm9 : BitVec 9)
  /-- Post-index, a byte offset written back after the access. -/
  | postIndex (simm9 : BitVec 9)
deriving DecidableEq, Repr

/-- The effective address of a mode, modulo 2^64 (43_load_store.md R290, R291). -/
def effAddr (s : State) (w : Width) (mode : AddrMode) (rn : RegIdx) : DWord :=
  match mode with
  | .unsignedOffset imm12 => s.x rn + imm12.setWidth 64 * BitVec.ofNat 64 w.bytes
  | .regOffset rm => s.x rn + s.x rm
  | .preIndex simm9 => s.x rn + sext simm9
  | .postIndex _ => s.x rn

/-- The state in which the access is made: a pre-index mode has written its base
(43_load_store.md R290, R295). -/
def writebackBefore (s : State) (w : Width) (mode : AddrMode) (rn : RegIdx) : State :=
  match mode with
  | .preIndex _ => s.setX rn (effAddr s w mode rn)
  | .unsignedOffset _ => s
  | .regOffset _ => s
  | .postIndex _ => s

/-- The state after the access, `t`: a post-index mode writes the base it read in `s` plus its
offset (43_load_store.md R290, R295). -/
def writebackAfter (s t : State) (mode : AddrMode) (rn : RegIdx) : State :=
  match mode with
  | .postIndex simm9 => t.setX rn (s.x rn + sext simm9)
  | .unsignedOffset _ => t
  | .regOffset _ => t
  | .preIndex _ => t

/-- The target of a PC-relative offset in instruction units, `PC + sext_64(simm) * 4` modulo 2^64
(43_load_store.md R290, 44_branch.md R340, R341). -/
def pcRelative {n : Nat} (s : State) (simm : BitVec n) : DWord :=
  s.pc + sext simm * 4#64

end Sys2Proof.Machine
end

