-- ==== Sys2Proof/Machine/Branch.lean ====
section
/-! DEFINITION. Branches (44_branch.md) and the terminate word (40_execution_cycle.md R165). -/

namespace Sys2Proof.Machine

/-- HALT, R165: the run ends in `Halted`; the PC stays at the terminate word. -/
def execHalt (s : State) : Result :=
  halt s

/-- B, R340. -/
def execB (simm26 : BitVec 26) (s : State) : Result :=
  redirect (pcRelative s simm26) s

/-- A branch on a condition (44_branch.md R341): taken it redirects, else the step adds 4. -/
def branchOn (cond : Cond) (simm19 : BitVec 19) (s : State) : Result :=
  if condHolds cond s.flags then redirect (pcRelative s simm19) s else advance s

/-- B.cond, R341. -/
def execBCond (simm19 : BitVec 19) (cond : Cond) (s : State) : Result :=
  branchOn cond simm19 s

/-- BR, R342. -/
def execBr (rn : RegIdx) (s : State) : Result :=
  redirect (s.x rn) s

/-- `b.eq` is B.cond with condition EQ (30_encoding.md R119, 44_branch.md R341). -/
def execBEq (simm19 : BitVec 19) (s : State) : Result :=
  branchOn .eq simm19 s

/-- `b.ne` is B.cond with condition NE (30_encoding.md R119, 44_branch.md R341). -/
def execBNe (simm19 : BitVec 19) (s : State) : Result :=
  branchOn .ne simm19 s

/-- `b.ge` is B.cond with condition GE (30_encoding.md R119, 44_branch.md R341). -/
def execBGe (simm19 : BitVec 19) (s : State) : Result :=
  branchOn .ge simm19 s

/-- `b.lt` is B.cond with condition LT (30_encoding.md R119, 44_branch.md R341). -/
def execBLt (simm19 : BitVec 19) (s : State) : Result :=
  branchOn .lt simm19 s

/-- `b.gt` is B.cond with condition GT (30_encoding.md R119, 44_branch.md R341). -/
def execBGt (simm19 : BitVec 19) (s : State) : Result :=
  branchOn .gt simm19 s

/-- `b.le` is B.cond with condition LE (30_encoding.md R119, 44_branch.md R341). -/
def execBLe (simm19 : BitVec 19) (s : State) : Result :=
  branchOn .le simm19 s

/-- `b.al` is B.cond with condition AL (30_encoding.md R119, 44_branch.md R341). -/
def execBAl (simm19 : BitVec 19) (s : State) : Result :=
  branchOn .al simm19 s

end Sys2Proof.Machine
end

