-- ==== Sys2Proof/Machine/Alu.lean ====
section
/-! DEFINITION. The data-processing ALU: AddSub, Logic and MulAcc (40_execution_cycle.md R172, R174,
R175). -/

namespace Sys2Proof.Machine

/-- `AddSub(w, a, b, sub)`: the result and the four flags (40_execution_cycle.md R172). -/
def addSub {n : Nat} (a b : BitVec n) (sub : Bool) : BitVec n × Flags :=
  if sub then (a - b, subFlags a b (a - b)) else (a + b, addFlags a b (a + b))

/-- The bitwise operations of `opc` (40_execution_cycle.md R174); `opc = 11` is `and` with flags. -/
inductive LogicOp where
  | and
  | orr
  | eor
deriving DecidableEq, Repr

/-- The result of `Logic(w, opc, a, b)` (40_execution_cycle.md R174). -/
def logic {n : Nat} (op : LogicOp) (a b : BitVec n) : BitVec n :=
  match op with
  | .and => a &&& b
  | .orr => a ||| b
  | .eor => a ^^^ b

/-- `MulAcc(w, a, b, acc, sub)`: `acc + a*b` or `acc - a*b` modulo 2^w (40_execution_cycle.md R175). -/
def mulAcc {n : Nat} (a b acc : BitVec n) (sub : Bool) : BitVec n :=
  if sub then acc - a * b else acc + a * b

end Sys2Proof.Machine
end

