-- ==== Sys2Proof/Machine/DpImm.lean ====
section
/-! DEFINITION. Data processing, immediate: ADD, ADDS, SUB, SUBS, MOVN, MOVZ, MOVK
(41_dp_immediate.md) and the immediate forms of CMP, CMN, NEG, NEGS (30_encoding.md R135). -/

namespace Sys2Proof.Machine

/-- The four arithmetic immediates (41_dp_immediate.md R200 to R203): `X(Rd, w)` gets the sum or
difference of `X(Rn, w)` and the immediate, and `NZCV` its flags when `setflags`. -/
def arithImm (sub setflags : Bool) (w : Width) (sh : Bool) (imm12 : BitVec 12) (rn rd : RegIdx)
    (s : State) : Result :=
  let r := addSub (s.xw w rn) (arithImmediate w sh imm12) sub
  let t := s.setXw w rd r.1
  advance (if setflags then t.setFlags r.2 else t)

/-- ADD (immediate), R200. -/
def execAddImm (w : Width) (sh : Bool) (imm12 : BitVec 12) (rn rd : RegIdx) (s : State) : Result :=
  arithImm false false w sh imm12 rn rd s

/-- ADDS (immediate), R201. -/
def execAddsImm (w : Width) (sh : Bool) (imm12 : BitVec 12) (rn rd : RegIdx) (s : State) : Result :=
  arithImm false true w sh imm12 rn rd s

/-- SUB (immediate), R202. -/
def execSubImm (w : Width) (sh : Bool) (imm12 : BitVec 12) (rn rd : RegIdx) (s : State) : Result :=
  arithImm true false w sh imm12 rn rd s

/-- SUBS (immediate), R203. -/
def execSubsImm (w : Width) (sh : Bool) (imm12 : BitVec 12) (rn rd : RegIdx) (s : State) : Result :=
  arithImm true true w sh imm12 rn rd s

/-- MOVN, R210: the complement is taken at width `w`. -/
def execMovn (w : Width) (hw : BitVec 2) (imm16 : BitVec 16) (rd : RegIdx) (s : State) : Result :=
  advance (s.setXw w rd (~~~wideImmediate w hw imm16))

/-- MOVZ, R211. -/
def execMovz (w : Width) (hw : BitVec 2) (imm16 : BitVec 16) (rd : RegIdx) (s : State) : Result :=
  advance (s.setXw w rd (wideImmediate w hw imm16))

/-- MOVK, R212: the other halfwords of `X(Rd, w)` are kept. -/
def execMovk (w : Width) (hw : BitVec 2) (imm16 : BitVec 16) (rd : RegIdx) (s : State) : Result :=
  advance (s.setXw w rd (keepHalfwords w hw imm16 (s.xw w rd)))

/-- `cmp rn, #imm` is `subs zr, rn, #imm` (30_encoding.md R135). -/
def execCmpImm (w : Width) (sh : Bool) (imm12 : BitVec 12) (rn : RegIdx) (s : State) : Result :=
  arithImm true true w sh imm12 rn zr s

/-- `cmn rn, #imm` is `adds zr, rn, #imm` (30_encoding.md R135). -/
def execCmnImm (w : Width) (sh : Bool) (imm12 : BitVec 12) (rn : RegIdx) (s : State) : Result :=
  arithImm false true w sh imm12 rn zr s

/-- `neg rd, #imm` is `sub rd, zr, #imm` (30_encoding.md R135). -/
def execNegImm (w : Width) (sh : Bool) (imm12 : BitVec 12) (rd : RegIdx) (s : State) : Result :=
  arithImm true false w sh imm12 zr rd s

/-- `negs rd, #imm` is `subs rd, zr, #imm` (30_encoding.md R135). -/
def execNegsImm (w : Width) (sh : Bool) (imm12 : BitVec 12) (rd : RegIdx) (s : State) : Result :=
  arithImm true true w sh imm12 zr rd s

end Sys2Proof.Machine
end

