-- ==== Sys2Proof/Machine/DpReg.lean ====
section
/-! DEFINITION. Data processing, register: ADD, ADDS, SUB, SUBS, the eight logical instructions, MADD
and MSUB (42_dp_register.md), and the register forms of CMP, CMN, NEG, NEGS with TST, MVN, MOV, MUL
and MNEG (30_encoding.md R135). -/

namespace Sys2Proof.Machine

/-- The four arithmetic shifted-register instructions (42_dp_register.md R240 to R243). -/
def arithReg (sub setflags : Bool) (w : Width) (shift : ShiftKind) (rm : RegIdx) (imm6 : BitVec 6)
    (rn rd : RegIdx) (s : State) : Result :=
  let r := addSub (s.xw w rn) (shiftedReg s w shift rm imm6) sub
  let t := s.setXw w rd r.1
  advance (if setflags then t.setFlags r.2 else t)

/-- The eight logical shifted-register instructions (42_dp_register.md R250 to R257): `N`
complements the shifted operand, `setflags` is `opc = 11`. -/
def logicReg (op : LogicOp) (N setflags : Bool) (w : Width) (shift : ShiftKind) (rm : RegIdx)
    (imm6 : BitVec 6) (rn rd : RegIdx) (s : State) : Result :=
  let r := logic op (s.xw w rn) (logicOperand s w N shift rm imm6)
  let t := s.setXw w rd r
  advance (if setflags then t.setFlags (logicFlags r) else t)

/-- MADD and MSUB (42_dp_register.md R260, R261): no flag is written. -/
def multiply (sub : Bool) (w : Width) (rm ra rn rd : RegIdx) (s : State) : Result :=
  advance (s.setXw w rd (mulAcc (s.xw w rn) (s.xw w rm) (s.xw w ra) sub))

/-- ADD (shifted register), R240. -/
def execAddReg (w : Width) (shift : ShiftKind) (rm : RegIdx) (imm6 : BitVec 6)
    (rn rd : RegIdx) (s : State) : Result :=
  arithReg false false w shift rm imm6 rn rd s

/-- ADDS (shifted register), R241. -/
def execAddsReg (w : Width) (shift : ShiftKind) (rm : RegIdx) (imm6 : BitVec 6)
    (rn rd : RegIdx) (s : State) : Result :=
  arithReg false true w shift rm imm6 rn rd s

/-- SUB (shifted register), R242. -/
def execSubReg (w : Width) (shift : ShiftKind) (rm : RegIdx) (imm6 : BitVec 6)
    (rn rd : RegIdx) (s : State) : Result :=
  arithReg true false w shift rm imm6 rn rd s

/-- SUBS (shifted register), R243. -/
def execSubsReg (w : Width) (shift : ShiftKind) (rm : RegIdx) (imm6 : BitVec 6)
    (rn rd : RegIdx) (s : State) : Result :=
  arithReg true true w shift rm imm6 rn rd s

/-- AND, R250. -/
def execAndReg (w : Width) (shift : ShiftKind) (rm : RegIdx) (imm6 : BitVec 6)
    (rn rd : RegIdx) (s : State) : Result :=
  logicReg .and false false w shift rm imm6 rn rd s

/-- BIC, R251. -/
def execBicReg (w : Width) (shift : ShiftKind) (rm : RegIdx) (imm6 : BitVec 6)
    (rn rd : RegIdx) (s : State) : Result :=
  logicReg .and true false w shift rm imm6 rn rd s

/-- ORR, R252. -/
def execOrrReg (w : Width) (shift : ShiftKind) (rm : RegIdx) (imm6 : BitVec 6)
    (rn rd : RegIdx) (s : State) : Result :=
  logicReg .orr false false w shift rm imm6 rn rd s

/-- ORN, R253. -/
def execOrnReg (w : Width) (shift : ShiftKind) (rm : RegIdx) (imm6 : BitVec 6)
    (rn rd : RegIdx) (s : State) : Result :=
  logicReg .orr true false w shift rm imm6 rn rd s

/-- EOR, R254. -/
def execEorReg (w : Width) (shift : ShiftKind) (rm : RegIdx) (imm6 : BitVec 6)
    (rn rd : RegIdx) (s : State) : Result :=
  logicReg .eor false false w shift rm imm6 rn rd s

/-- EON, R255. -/
def execEonReg (w : Width) (shift : ShiftKind) (rm : RegIdx) (imm6 : BitVec 6)
    (rn rd : RegIdx) (s : State) : Result :=
  logicReg .eor true false w shift rm imm6 rn rd s

/-- ANDS, R256. -/
def execAndsReg (w : Width) (shift : ShiftKind) (rm : RegIdx) (imm6 : BitVec 6)
    (rn rd : RegIdx) (s : State) : Result :=
  logicReg .and false true w shift rm imm6 rn rd s

/-- BICS, R257. -/
def execBicsReg (w : Width) (shift : ShiftKind) (rm : RegIdx) (imm6 : BitVec 6)
    (rn rd : RegIdx) (s : State) : Result :=
  logicReg .and true true w shift rm imm6 rn rd s

/-- MADD, R260. -/
def execMadd (w : Width) (rm ra rn rd : RegIdx) (s : State) : Result :=
  multiply false w rm ra rn rd s

/-- MSUB, R261. -/
def execMsub (w : Width) (rm ra rn rd : RegIdx) (s : State) : Result :=
  multiply true w rm ra rn rd s

/-- `cmp rn, rm` is `subs zr, rn, rm` (30_encoding.md R135). -/
def execCmpReg (w : Width) (shift : ShiftKind) (rm : RegIdx) (imm6 : BitVec 6)
    (rn : RegIdx) (s : State) : Result :=
  arithReg true true w shift rm imm6 rn zr s

/-- `cmn rn, rm` is `adds zr, rn, rm` (30_encoding.md R135). -/
def execCmnReg (w : Width) (shift : ShiftKind) (rm : RegIdx) (imm6 : BitVec 6)
    (rn : RegIdx) (s : State) : Result :=
  arithReg false true w shift rm imm6 rn zr s

/-- `neg rd, rm` is `sub rd, zr, rm` (30_encoding.md R135). -/
def execNegReg (w : Width) (shift : ShiftKind) (rm : RegIdx) (imm6 : BitVec 6)
    (rd : RegIdx) (s : State) : Result :=
  arithReg true false w shift rm imm6 zr rd s

/-- `negs rd, rm` is `subs rd, zr, rm` (30_encoding.md R135). -/
def execNegsReg (w : Width) (shift : ShiftKind) (rm : RegIdx) (imm6 : BitVec 6)
    (rd : RegIdx) (s : State) : Result :=
  arithReg true true w shift rm imm6 zr rd s

/-- `tst rn, rm` is `ands zr, rn, rm` (30_encoding.md R135). -/
def execTst (w : Width) (shift : ShiftKind) (rm : RegIdx) (imm6 : BitVec 6)
    (rn : RegIdx) (s : State) : Result :=
  logicReg .and false true w shift rm imm6 rn zr s

/-- `mvn rd, rm` is `orn rd, zr, rm` (30_encoding.md R135). -/
def execMvn (w : Width) (shift : ShiftKind) (rm : RegIdx) (imm6 : BitVec 6)
    (rd : RegIdx) (s : State) : Result :=
  logicReg .orr true false w shift rm imm6 zr rd s

/-- `mov rd, rm` is `orr rd, zr, rm` (30_encoding.md R135). -/
def execMov (w : Width) (rm rd : RegIdx) (s : State) : Result :=
  logicReg .orr false false w .lsl rm 0#6 zr rd s

/-- `mul rd, rn, rm` is `madd rd, rn, rm, zr` (30_encoding.md R135). -/
def execMul (w : Width) (rm rn rd : RegIdx) (s : State) : Result :=
  multiply false w rm zr rn rd s

/-- `mneg rd, rn, rm` is `msub rd, rn, rm, zr` (30_encoding.md R135). -/
def execMneg (w : Width) (rm rn rd : RegIdx) (s : State) : Result :=
  multiply true w rm zr rn rd s

end Sys2Proof.Machine
end

