-- ==== Sys2Proof/Machine/LoadStore.lean ====
section
/-! DEFINITION. Loads and stores (43_load_store.md): LDR and STR in the unsigned-offset, pre-index,
post-index and register-offset forms, and LDR (literal). -/

namespace Sys2Proof.Machine

/-- `LdSt` with `load = 1` (43_load_store.md R296): the pre-index writeback, then the load into
`Rt`, then the post-index writeback. -/
def load (w : Width) (mode : AddrMode) (rn rt : RegIdx) (s : State) : Result :=
  let t := writebackBefore s w mode rn
  match t.loadData w (effAddr s w mode rn) with
  | .error f => raise f
  | .ok v => advance (writebackAfter s (t.setXw w rt v) mode rn)

/-- `LdSt` with `load = 0` (43_load_store.md R296): the value stored is read after the pre-index
writeback and before the post-index one (R295). -/
def store (w : Width) (mode : AddrMode) (rn rt : RegIdx) (s : State) : Result :=
  let t := writebackBefore s w mode rn
  match t.storeData w (effAddr s w mode rn) (t.xw w rt) with
  | .error f => raise f
  | .ok u => advance (writebackAfter s u mode rn)

/-- LDR (unsigned offset), R320. -/
def execLdrUoff (w : Width) (imm12 : BitVec 12) (rn rt : RegIdx) (s : State) : Result :=
  load w (.unsignedOffset imm12) rn rt s

/-- STR (unsigned offset), R321. -/
def execStrUoff (w : Width) (imm12 : BitVec 12) (rn rt : RegIdx) (s : State) : Result :=
  store w (.unsignedOffset imm12) rn rt s

/-- LDR (pre-index), R322. -/
def execLdrPre (w : Width) (simm9 : BitVec 9) (rn rt : RegIdx) (s : State) : Result :=
  load w (.preIndex simm9) rn rt s

/-- STR (pre-index), R323. -/
def execStrPre (w : Width) (simm9 : BitVec 9) (rn rt : RegIdx) (s : State) : Result :=
  store w (.preIndex simm9) rn rt s

/-- LDR (post-index), R324. -/
def execLdrPost (w : Width) (simm9 : BitVec 9) (rn rt : RegIdx) (s : State) : Result :=
  load w (.postIndex simm9) rn rt s

/-- STR (post-index), R325. -/
def execStrPost (w : Width) (simm9 : BitVec 9) (rn rt : RegIdx) (s : State) : Result :=
  store w (.postIndex simm9) rn rt s

/-- LDR (register offset), R326. -/
def execLdrReg (w : Width) (rm : RegIdx) (rn rt : RegIdx) (s : State) : Result :=
  load w (.regOffset rm) rn rt s

/-- STR (register offset), R327. -/
def execStrReg (w : Width) (rm : RegIdx) (rn rt : RegIdx) (s : State) : Result :=
  store w (.regOffset rm) rn rt s

/-- LDR (literal), R328: the address is relative to the instruction's own address. -/
def execLdrLit (w : Width) (simm19 : BitVec 19) (rt : RegIdx) (s : State) : Result :=
  match s.loadData w (pcRelative s simm19) with
  | .error f => raise f
  | .ok v => advance (s.setXw w rt v)

end Sys2Proof.Machine
end

