-- ==== Sys2Proof/Machine/Dispatch.lean ====
section
/-! DEFINITION. `Execute(i)` (40_execution_cycle.md R166): one meaning per constructor. -/

namespace Sys2Proof.Machine

def exec (i : Instr) (s : State) : Host.Outcome State Fault Refusal :=
  match i with
  | .halt => Sys2Proof.Machine.execHalt s
  | .addImm w sh imm12 rn rd => Sys2Proof.Machine.execAddImm w sh imm12 rn rd s
  | .addsImm w sh imm12 rn rd => Sys2Proof.Machine.execAddsImm w sh imm12 rn rd s
  | .subImm w sh imm12 rn rd => Sys2Proof.Machine.execSubImm w sh imm12 rn rd s
  | .subsImm w sh imm12 rn rd => Sys2Proof.Machine.execSubsImm w sh imm12 rn rd s
  | .movn w hw imm16 rd => Sys2Proof.Machine.execMovn w hw imm16 rd s
  | .movz w hw imm16 rd => Sys2Proof.Machine.execMovz w hw imm16 rd s
  | .movk w hw imm16 rd => Sys2Proof.Machine.execMovk w hw imm16 rd s
  | .addReg w shift rm imm6 rn rd => Sys2Proof.Machine.execAddReg w shift rm imm6 rn rd s
  | .addsReg w shift rm imm6 rn rd => Sys2Proof.Machine.execAddsReg w shift rm imm6 rn rd s
  | .subReg w shift rm imm6 rn rd => Sys2Proof.Machine.execSubReg w shift rm imm6 rn rd s
  | .subsReg w shift rm imm6 rn rd => Sys2Proof.Machine.execSubsReg w shift rm imm6 rn rd s
  | .andReg w shift rm imm6 rn rd => Sys2Proof.Machine.execAndReg w shift rm imm6 rn rd s
  | .bicReg w shift rm imm6 rn rd => Sys2Proof.Machine.execBicReg w shift rm imm6 rn rd s
  | .orrReg w shift rm imm6 rn rd => Sys2Proof.Machine.execOrrReg w shift rm imm6 rn rd s
  | .ornReg w shift rm imm6 rn rd => Sys2Proof.Machine.execOrnReg w shift rm imm6 rn rd s
  | .eorReg w shift rm imm6 rn rd => Sys2Proof.Machine.execEorReg w shift rm imm6 rn rd s
  | .eonReg w shift rm imm6 rn rd => Sys2Proof.Machine.execEonReg w shift rm imm6 rn rd s
  | .andsReg w shift rm imm6 rn rd => Sys2Proof.Machine.execAndsReg w shift rm imm6 rn rd s
  | .bicsReg w shift rm imm6 rn rd => Sys2Proof.Machine.execBicsReg w shift rm imm6 rn rd s
  | .madd w rm ra rn rd => Sys2Proof.Machine.execMadd w rm ra rn rd s
  | .msub w rm ra rn rd => Sys2Proof.Machine.execMsub w rm ra rn rd s
  | .ldrUoff w imm12 rn rt => Sys2Proof.Machine.execLdrUoff w imm12 rn rt s
  | .strUoff w imm12 rn rt => Sys2Proof.Machine.execStrUoff w imm12 rn rt s
  | .ldrPre w simm9 rn rt => Sys2Proof.Machine.execLdrPre w simm9 rn rt s
  | .strPre w simm9 rn rt => Sys2Proof.Machine.execStrPre w simm9 rn rt s
  | .ldrPost w simm9 rn rt => Sys2Proof.Machine.execLdrPost w simm9 rn rt s
  | .strPost w simm9 rn rt => Sys2Proof.Machine.execStrPost w simm9 rn rt s
  | .ldrReg w rm rn rt => Sys2Proof.Machine.execLdrReg w rm rn rt s
  | .strReg w rm rn rt => Sys2Proof.Machine.execStrReg w rm rn rt s
  | .ldrLit w simm19 rt => Sys2Proof.Machine.execLdrLit w simm19 rt s
  | .b simm26 => Sys2Proof.Machine.execB simm26 s
  | .bCond simm19 cond => Sys2Proof.Machine.execBCond simm19 cond s
  | .br rn => Sys2Proof.Machine.execBr rn s
  | .cmpImm w sh imm12 rn => Sys2Proof.Machine.execCmpImm w sh imm12 rn s
  | .cmnImm w sh imm12 rn => Sys2Proof.Machine.execCmnImm w sh imm12 rn s
  | .negImm w sh imm12 rd => Sys2Proof.Machine.execNegImm w sh imm12 rd s
  | .negsImm w sh imm12 rd => Sys2Proof.Machine.execNegsImm w sh imm12 rd s
  | .cmpReg w shift rm imm6 rn => Sys2Proof.Machine.execCmpReg w shift rm imm6 rn s
  | .cmnReg w shift rm imm6 rn => Sys2Proof.Machine.execCmnReg w shift rm imm6 rn s
  | .negReg w shift rm imm6 rd => Sys2Proof.Machine.execNegReg w shift rm imm6 rd s
  | .negsReg w shift rm imm6 rd => Sys2Proof.Machine.execNegsReg w shift rm imm6 rd s
  | .tst w shift rm imm6 rn => Sys2Proof.Machine.execTst w shift rm imm6 rn s
  | .mvn w shift rm imm6 rd => Sys2Proof.Machine.execMvn w shift rm imm6 rd s
  | .mov w rm rd => Sys2Proof.Machine.execMov w rm rd s
  | .mul w rm rn rd => Sys2Proof.Machine.execMul w rm rn rd s
  | .mneg w rm rn rd => Sys2Proof.Machine.execMneg w rm rn rd s
  | .bEq simm19 => Sys2Proof.Machine.execBEq simm19 s
  | .bNe simm19 => Sys2Proof.Machine.execBNe simm19 s
  | .bGe simm19 => Sys2Proof.Machine.execBGe simm19 s
  | .bLt simm19 => Sys2Proof.Machine.execBLt simm19 s
  | .bGt simm19 => Sys2Proof.Machine.execBGt simm19 s
  | .bLe simm19 => Sys2Proof.Machine.execBLe simm19 s
  | .bAl simm19 => Sys2Proof.Machine.execBAl simm19 s

end Sys2Proof.Machine
end

