-- ==== Sys2Proof/Machine/Fetch.lean ====
section
/-! DEFINITION. The fetch and decode tests of a step, in the order of 60_exceptions.md R376. -/

namespace Sys2Proof.Machine

/-- `Fetch(pc)` with the parameter `FETCH_ALIGN_FAULT = alignFault`: the alignment test, the bounds
test, then the four bytes at `PC`, little-endian (20_memory.md R62, R68, 40_execution_cycle.md R162). -/
def fetchWord (alignFault : Bool) (s : State) : Except Fault Word :=
  if alignFault && slice 1 0 s.pc != 0b00#2 then .error (.fetchAlign s.pc)
  else if !inBounds s.pc 4 then .error (.fetchBounds s.pc)
  else .ok (s.mem.read s.pc.toNat .w32)

/-- The instruction at `PC`, or the fetch or decode fault that comes first (60_exceptions.md R376). -/
def fetchInstr (alignFault : Bool) (s : State) : Except Fault Instr :=
  match fetchWord alignFault s with
  | .error f => .error f
  | .ok v =>
    match decode v with
    | .error e => .error (faultOfDecodeError e v s.pc)
    | .ok i => .ok i

/-- A word stored where the next fetch reads it, in a running machine: at `PC`, or at 0 where no
whole word lies at `PC`. It stands for the loading of an image from outside (70_reset_and_hazards.md
R401). -/
def placeWord (s : State) (v : Word) : State :=
  let pc := if inBounds s.pc 4 then s.pc else 0#64
  { s with pc := pc, mem := s.mem.write pc.toNat .w32 v, run := .running }

end Sys2Proof.Machine
end

