-- ==== Sys2Proof/Machine/Step.lean ====
section
/-! DEFINITION. One step of the state machine (40_execution_cycle.md R160 to R164). -/

namespace Sys2Proof.Machine

/-- `Step()` with the parameter `FETCH_ALIGN_FAULT = alignFault` (40_execution_cycle.md R162):
fetch, decode, execute. The advance of the PC, or the redirect or the halt that replaces it, is the
end of the instruction's meaning (`advance`, `redirect`, `halt`). From `Halted` and `Failed` no step
exists (R161). -/
def stepWith (alignFault : Bool) (s : State) : Host.Outcome State Fault Refusal :=
  match s.run with
  | .running =>
    match fetchInstr alignFault s with
    | .error f => raise f
    | .ok i => exec i s
  | .halted => .refused .noStep
  | .failed _ => .refused .noStep

/-- One step of this hardware. -/
def step (s : State) : Host.Outcome State Fault Refusal :=
  stepWith hardware.fetchAlignFault s

/-- `s` with an opcode-table word of `nbits` bits where the next step fetches. -/
def State.withFetchWord (s : State) (nbits w : Nat) : State :=
  placeWord s (tableWord nbits w)

end Sys2Proof.Machine
end

