-- ==== Sys2Proof/Machine/Assembler.lean ====
section
/-! DEFINITION. The encoder from assembler instructions to words (30_encoding.md R135, R140 to R145):
alias rewriting, the shape, width, range and alignment checks of each family, and the assembling of
a source's lines (R130, R131, R133, R144). Texts are not modelled: an assembler instruction is its
mnemonic and its operands (00_scope.md R5). -/

namespace Sys2Proof.Machine

/-- The 37 mnemonics of 00_scope.md R3, the seven `b.<cond>` under one constructor, and any other
word where a line has its mnemonic. -/
inductive Mnemonic where
  | add | adds | sub | subs | cmp | cmn | neg | negs
  | and | ands | bic | bics | eor | orr | eon | orn | tst
  | movk | movn | movz | mov | mvn
  | madd | msub | mul | mneg
  | b | bCond (cond : Cond) | br
  | ldr | str
  /-- None of the 37: the encoder answers `E_SYNTAX` (30_encoding.md R143). -/
  | unknown (text : String)
deriving DecidableEq, Repr

/-- The spellings of the 37 mnemonics (00_scope.md R3; the conditions' suffixes, 30_encoding.md R119). -/
def mnemonicTable : List (String × Mnemonic) :=
  [("add", .add), ("adds", .adds), ("sub", .sub), ("subs", .subs), ("cmp", .cmp), ("cmn", .cmn),
    ("neg", .neg), ("negs", .negs)] ++
  [("and", .and), ("ands", .ands), ("bic", .bic), ("bics", .bics), ("eor", .eor), ("orr", .orr),
    ("eon", .eon), ("orn", .orn), ("tst", .tst)] ++
  [("movk", .movk), ("movn", .movn), ("movz", .movz), ("mov", .mov), ("mvn", .mvn),
    ("madd", .madd), ("msub", .msub), ("mul", .mul), ("mneg", .mneg)] ++
  [("b", .b), ("b.eq", .bCond .eq), ("b.ne", .bCond .ne), ("b.ge", .bCond .ge),
    ("b.lt", .bCond .lt), ("b.gt", .bCond .gt), ("b.le", .bCond .le), ("b.al", .bCond .al),
    ("br", .br), ("ldr", .ldr), ("str", .str)]

/-- The mnemonic a word spells, `unknown` outside the closed list of 00_scope.md R3. -/
def mnemonicOfText (text : String) : Mnemonic :=
  match mnemonicTable.find? (fun e => e.1 == text) with
  | some e => e.2
  | none => .unknown text

/-- An operand of an assembler instruction (30_encoding.md R132, R134). Immediates are integers: the
encoder checks their range. -/
inductive Operand where
  /-- `x<i>`, `w<i>`, `xzr` or `wzr` (10_state.md R34). -/
  | reg (w : Width) (i : RegIdx)
  /-- `#v`, an immediate or an absolute address. -/
  | imm (v : Int)
  /-- A shift suffix, `lsl #n`, `lsr #n`, `asr #n` or `ror #n`. -/
  | shift (kind : ShiftKind) (amount : Int)
  /-- `[base, #v]`; `[base]` is offset 0 (D27). -/
  | offset (w : Width) (base : RegIdx) (v : Int)
  /-- `[base, #v]!`. -/
  | preIndex (w : Width) (base : RegIdx) (v : Int)
  /-- `[base], #v`. -/
  | postIndex (w : Width) (base : RegIdx) (v : Int)
  /-- `[base, index]`. -/
  | regOffset (w : Width) (base : RegIdx) (wi : Width) (index : RegIdx)
  /-- A label resolved to its 32-bit address; `0xFFFFFFFF` is the unresolved sentinel (30_encoding.md R131). -/
  | label (address : BitVec 32)
  /-- A label not looked up yet. -/
  | symbol (name : String)
deriving DecidableEq, Repr

/-- An assembler instruction: a mnemonic and its operands. -/
structure AsmInstr where
  mnemonic : Mnemonic
  operands : List Operand
deriving DecidableEq, Repr

/-- The encode errors of 30_encoding.md R143. Where one line has several, the spec gives no order;
the model reports `E_SYNTAX` first, then `E_UNRESOLVED`, then `E_RANGE` (DESIGN CHOICE, log entry 10). -/
inductive EncodeError where
  /-- `E_SYNTAX`: a mnemonic, operand or shape the tables do not take. -/
  | eSyntax
  /-- `E_UNRESOLVED`: a label still unresolved. -/
  | eUnresolved
  /-- `E_RANGE`: a value outside its field, or not aligned as the field needs. -/
  | eRange
  /-- `E_CAPACITY`: more words than the memory holds. -/
  | eCapacity
deriving DecidableEq, Repr

/-- The alias rewriting of 30_encoding.md R135, done before anything else. `zr` takes the width of
the alias's first operand. What is no alias, or has not an alias's shape, is left as it is. -/
def rewriteToCanonical (a : AsmInstr) : AsmInstr :=
  match a.mnemonic, a.operands with
  | .cmp, .reg w rn :: rest => ⟨.subs, .reg w zr :: .reg w rn :: rest⟩
  | .cmn, .reg w rn :: rest => ⟨.adds, .reg w zr :: .reg w rn :: rest⟩
  | .neg, .reg w rd :: rest => ⟨.sub, .reg w rd :: .reg w zr :: rest⟩
  | .negs, .reg w rd :: rest => ⟨.subs, .reg w rd :: .reg w zr :: rest⟩
  | .tst, .reg w rn :: rest => ⟨.ands, .reg w zr :: .reg w rn :: rest⟩
  | .mvn, .reg w rd :: rest => ⟨.orn, .reg w rd :: .reg w zr :: rest⟩
  | .mov, [.reg w rd, rm] => ⟨.orr, [.reg w rd, .reg w zr, rm]⟩
  | .mul, [.reg w rd, rn, rm] => ⟨.madd, [.reg w rd, rn, rm, .reg w zr]⟩
  | .mneg, [.reg w rd, rn, rm] => ⟨.msub, [.reg w rd, rn, rm, .reg w zr]⟩
  | _, _ => a

/-- An optional shift suffix, `lsl #0` when absent (41_dp_immediate.md R220, R221; 42_dp_register.md
R270). -/
def shiftSuffix : List Operand → Except EncodeError (ShiftKind × Int)
  | [] => .ok (.lsl, 0)
  | [.shift k a] => .ok (k, a)
  | _ => .error .eSyntax

/-- ADD, ADDS, SUB, SUBS: the immediate form where the third operand is an immediate, else the
register form (41_dp_immediate.md R220, R222, R223; 42_dp_register.md R270, R275). On an immediate,
a shift other than `lsl #0` and `lsl #12` is `E_RANGE` (D29), but `ror` is `E_SYNTAX`, as D39 says
of every arithmetic mnemonic (the two overlap there: DESIGN CHOICE, log entry 10). A label here is a
shape not taken, `E_SYNTAX` also where it is unresolved (DESIGN CHOICE, log entry 10). -/
def assembleArith (immForm : Width → Bool → BitVec 12 → RegIdx → RegIdx → Instr)
    (regForm : Width → ShiftKind → RegIdx → BitVec 6 → RegIdx → RegIdx → Instr) :
    List Operand → Except EncodeError Instr
  | .reg w rd :: .reg w1 rn :: .imm v :: rest =>
    match shiftSuffix rest with
    | .error e => .error e
    | .ok (k, s) =>
      if w1 ≠ w ∨ arithShiftAllowed k = false then .error .eSyntax
      else if k = .lsl ∧ 0 ≤ v ∧ v ≤ 0xFFF ∧ (s = 0 ∨ s = 12) then
        .ok (immForm w (decide (s = 12)) (BitVec.ofInt 12 v) rn rd)
      else .error .eRange
  | .reg w rd :: .reg w1 rn :: .reg w2 rm :: rest =>
    match shiftSuffix rest with
    | .error e => .error e
    | .ok (k, amount) =>
      if w1 ≠ w ∨ w2 ≠ w ∨ arithShiftAllowed k = false then .error .eSyntax
      else if 0 ≤ amount ∧ amount < w.bits then
        .ok (regForm w k rm (BitVec.ofInt 6 amount) rn rd)
      else .error .eRange
  | _ => .error .eSyntax

/-- MOVN, MOVZ, MOVK (41_dp_immediate.md R221): any suffix but an `lsl #s` that the halfword field
holds is `E_RANGE` (D30). -/
def assembleWideMove (form : Width → BitVec 2 → BitVec 16 → RegIdx → Instr) :
    List Operand → Except EncodeError Instr
  | .reg w rd :: .imm v :: rest =>
    match shiftSuffix rest with
    | .error e => .error e
    | .ok (k, s) =>
      if k = .lsl ∧ 0 ≤ v ∧ v ≤ 0xFFFF ∧ s % 16 = 0 ∧ 0 ≤ s ∧ s < w.bits then
        .ok (form w (BitVec.ofInt 2 (s / 16)) (BitVec.ofInt 16 v) rd)
      else .error .eRange
  | _ => .error .eSyntax

/-- The eight logical mnemonics (42_dp_register.md R271, R273, R275). -/
def assembleLogic (form : Width → ShiftKind → RegIdx → BitVec 6 → RegIdx → RegIdx → Instr) :
    List Operand → Except EncodeError Instr
  | .reg w rd :: .reg w1 rn :: .reg w2 rm :: rest =>
    match shiftSuffix rest with
    | .error e => .error e
    | .ok (k, amount) =>
      if w1 ≠ w ∨ w2 ≠ w then .error .eSyntax
      else if 0 ≤ amount ∧ amount < w.bits then
        .ok (form w k rm (BitVec.ofInt 6 amount) rn rd)
      else .error .eRange
  | _ => .error .eSyntax

/-- AND, whose spelling `and x0, x0, x0` is the terminate word (40_execution_cycle.md R165). -/
def andOrHalt (w : Width) (shift : ShiftKind) (rm : RegIdx) (imm6 : BitVec 6) (rn rd : RegIdx) :
    Instr :=
  if spellsTerminate w shift rm imm6 rn rd then .halt else .andReg w shift rm imm6 rn rd

/-- MADD and MSUB (42_dp_register.md R272, R275). -/
def assembleMultiply (form : Width → RegIdx → RegIdx → RegIdx → RegIdx → Instr) :
    List Operand → Except EncodeError Instr
  | [.reg w rd, .reg w1 rn, .reg w2 rm, .reg w3 ra] =>
    if w1 ≠ w ∨ w2 ≠ w ∨ w3 ≠ w then .error .eSyntax else .ok (form w rm ra rn rd)
  | _ => .error .eSyntax

/-- The address a branch or literal operand stands for (30_encoding.md R131, D28). -/
def targetAddress : Operand → Except EncodeError Int
  | .label a => if a = 0xFFFFFFFF#32 then .error .eUnresolved else .ok a.toNat
  | .symbol _ => .error .eUnresolved
  | .imm v => .ok v
  | _ => .error .eSyntax

/-- The signed field of `n` bits, in instruction units, of an offset from the instruction's own
address (44_branch.md R350 to R352; 43_load_store.md R309 to R311). -/
def offsetField (n : Nat) (target : Int) (addr : BitVec 32) : Except EncodeError (BitVec n) :=
  let offset := target - addr.toNat
  if offset % 4 = 0 ∧ -2 ^ (n - 1) ≤ offset / 4 ∧ offset / 4 ≤ 2 ^ (n - 1) - 1 then
    .ok (BitVec.ofInt n (offset / 4))
  else .error .eRange

/-- A branch or literal target as a field of `n` bits. -/
def targetField (n : Nat) (t : Operand) (addr : BitVec 32) : Except EncodeError (BitVec n) :=
  match targetAddress t with
  | .error e => .error e
  | .ok a => offsetField n a addr

/-- A 9-bit signed byte offset (43_load_store.md R305). -/
def simm9Field (v : Int) : Except EncodeError (BitVec 9) :=
  if -256 ≤ v ∧ v ≤ 255 then .ok (BitVec.ofInt 9 v) else .error .eRange

/-- LDR (`isLoad`) and STR in the four base forms, and the literal form of LDR (43_load_store.md R300
to R311). The base and the index are 64-bit (R301). STR with a label is `E_SYNTAX` (R308), also
where the label is unresolved (DESIGN CHOICE, log entry 10). -/
def assembleTransfer (isLoad : Bool) (ops : List Operand) (addr : BitVec 32) :
    Except EncodeError Instr :=
  match ops with
  | [.reg w rt, .offset wb rn v] =>
    if wb ≠ .w64 then .error .eSyntax
    else if v % w.bytes = 0 ∧ 0 ≤ v ∧ v / w.bytes ≤ 4095 then
      let imm12 := BitVec.ofInt 12 (v / w.bytes)
      .ok (if isLoad then .ldrUoff w imm12 rn rt else .strUoff w imm12 rn rt)
    else .error .eRange
  | [.reg w rt, .preIndex wb rn v] =>
    if wb ≠ .w64 then .error .eSyntax
    else
      match simm9Field v with
      | .error e => .error e
      | .ok simm9 => .ok (if isLoad then .ldrPre w simm9 rn rt else .strPre w simm9 rn rt)
  | [.reg w rt, .postIndex wb rn v] =>
    if wb ≠ .w64 then .error .eSyntax
    else
      match simm9Field v with
      | .error e => .error e
      | .ok simm9 => .ok (if isLoad then .ldrPost w simm9 rn rt else .strPost w simm9 rn rt)
  | [.reg w rt, .regOffset wb rn wi rm] =>
    if wb ≠ .w64 ∨ wi ≠ .w64 then .error .eSyntax
    else .ok (if isLoad then .ldrReg w rm rn rt else .strReg w rm rn rt)
  | [.reg w rt, t] =>
    if isLoad then
      match targetField 19 t addr with
      | .error e => .error e
      | .ok simm19 => .ok (.ldrLit w simm19 rt)
    else .error .eSyntax
  | _ => .error .eSyntax

/-- B, B.cond and BR (44_branch.md R350 to R353). A shape not taken is `E_SYNTAX`, also where one of
its operands is an unresolved label (DESIGN CHOICE, log entry 10). -/
def assembleBranch (m : Mnemonic) (ops : List Operand) (addr : BitVec 32) :
    Except EncodeError Instr :=
  match m, ops with
  | .b, [t] =>
    match targetField 26 t addr with
    | .error e => .error e
    | .ok simm26 => .ok (.b simm26)
  | .bCond cond, [t] =>
    match targetField 19 t addr with
    | .error e => .error e
    | .ok simm19 => .ok (.bCond simm19 cond)
  | .br, [.reg .w64 rn] => .ok (.br rn)
  | _, _ => .error .eSyntax

/-- The canonical instruction a canonical assembler instruction at `addr` spells, or its encode
error (30_encoding.md R140). An alias mnemonic left by the rewriting had no shape of its own; a word
that is no mnemonic is `E_SYNTAX` whatever its operands (R143). -/
def assembleCanonical (a : AsmInstr) (addr : BitVec 32) : Except EncodeError Instr :=
  match a.mnemonic with
  | .add => assembleArith .addImm .addReg a.operands
  | .adds => assembleArith .addsImm .addsReg a.operands
  | .sub => assembleArith .subImm .subReg a.operands
  | .subs => assembleArith .subsImm .subsReg a.operands
  | .and => assembleLogic andOrHalt a.operands
  | .ands => assembleLogic .andsReg a.operands
  | .bic => assembleLogic .bicReg a.operands
  | .bics => assembleLogic .bicsReg a.operands
  | .eor => assembleLogic .eorReg a.operands
  | .orr => assembleLogic .orrReg a.operands
  | .eon => assembleLogic .eonReg a.operands
  | .orn => assembleLogic .ornReg a.operands
  | .movk => assembleWideMove .movk a.operands
  | .movn => assembleWideMove .movn a.operands
  | .movz => assembleWideMove .movz a.operands
  | .madd => assembleMultiply .madd a.operands
  | .msub => assembleMultiply .msub a.operands
  | .b => assembleBranch .b a.operands addr
  | .bCond cond => assembleBranch (.bCond cond) a.operands addr
  | .br => assembleBranch .br a.operands addr
  | .ldr => assembleTransfer true a.operands addr
  | .str => assembleTransfer false a.operands addr
  | .cmp => .error .eSyntax
  | .cmn => .error .eSyntax
  | .neg => .error .eSyntax
  | .negs => .error .eSyntax
  | .tst => .error .eSyntax
  | .mov => .error .eSyntax
  | .mvn => .error .eSyntax
  | .mul => .error .eSyntax
  | .mneg => .error .eSyntax
  | .unknown _ => .error .eSyntax

/-- The instruction an assembler instruction at `addr` spells, aliases rewritten first. -/
def assembleInstr (a : AsmInstr) (addr : BitVec 32) : Except EncodeError Instr :=
  assembleCanonical (rewriteToCanonical a) addr

/-- `Encode(ci, addr)` (30_encoding.md R140). -/
def encodeAsm (a : AsmInstr) (addr : BitVec 32) : Except EncodeError Word :=
  match assembleInstr a addr with
  | .error e => .error e
  | .ok i => .ok (encode i)

/-! ## Source files -/

/-- A source line (30_encoding.md R130). -/
inductive Line where
  /-- An instruction. -/
  | instr (a : AsmInstr)
  /-- `.int v`, a raw 32-bit word (30_encoding.md R133). -/
  | directive (v : Int)
  /-- A label definition. -/
  | labelDef (name : String)
  /-- A blank or comment line. -/
  | skip
deriving DecidableEq, Repr

/-- Each label with the address of the next instruction or directive, in source order: addresses
rise by 4 at every instruction and directive (30_encoding.md R130). A label with no such line after
it gets the address just past the last word, of which the spec says nothing (DESIGN CHOICE, log
entry 14). -/
def symbolsFrom (addr : BitVec 32) : List Line → List (String × BitVec 32)
  | [] => []
  | .instr _ :: rest => symbolsFrom (addr + 4#32) rest
  | .directive _ :: rest => symbolsFrom (addr + 4#32) rest
  | .labelDef name :: rest => (name, addr) :: symbolsFrom addr rest
  | .skip :: rest => symbolsFrom addr rest

/-- The address of a label, the last definition winning, or the sentinel (30_encoding.md R131). -/
def lookupSymbol (table : List (String × BitVec 32)) (name : String) : BitVec 32 :=
  match table.reverse.find? (fun e => e.1 == name) with
  | some e => e.2
  | none => 0xFFFFFFFF#32

/-- An operand with its label looked up. -/
def resolveOperand (table : List (String × BitVec 32)) : Operand → Operand
  | .symbol name => .label (lookupSymbol table name)
  | .reg w i => .reg w i
  | .imm v => .imm v
  | .shift k a => .shift k a
  | .offset w b v => .offset w b v
  | .preIndex w b v => .preIndex w b v
  | .postIndex w b v => .postIndex w b v
  | .regOffset w b wi i => .regOffset w b wi i
  | .label a => .label a

/-- An assembler instruction with every label looked up. -/
def resolveInstr (table : List (String × BitVec 32)) (a : AsmInstr) : AsmInstr :=
  { a with operands := a.operands.map (resolveOperand table) }

/-- The words of a source's lines from `addr` on, one per instruction or directive, in source order
(30_encoding.md R144); a directive is its literal modulo 2^32 (R133; any integer is taken, DESIGN
CHOICE, log entry 11). Of several lines with an error the first one's is reported (log entry 10). -/
def assembleFrom (table : List (String × BitVec 32)) (addr : BitVec 32) :
    List Line → Except EncodeError (List Word)
  | [] => .ok []
  | .instr a :: rest =>
    match encodeAsm (resolveInstr table a) addr with
    | .error e => .error e
    | .ok v =>
      match assembleFrom table (addr + 4#32) rest with
      | .error e => .error e
      | .ok vs => .ok (v :: vs)
  | .directive v :: rest =>
    match assembleFrom table (addr + 4#32) rest with
    | .error e => .error e
    | .ok vs => .ok (BitVec.ofInt 32 v :: vs)
  | .labelDef _ :: rest => assembleFrom table addr rest
  | .skip :: rest => assembleFrom table addr rest

/-- The words of a source file whose first word lies at address 0; `E_CAPACITY` when there are more
than the memory holds (30_encoding.md R143), reported only where no line has an error of its own
(DESIGN CHOICE, log entry 10). -/
def assemble (lines : List Line) : Except EncodeError (List Word) :=
  match assembleFrom (symbolsFrom 0#32 lines) 0#32 lines with
  | .error e => .error e
  | .ok vs => if vs.length ≤ memSize / 4 then .ok vs else .error .eCapacity

/-- A number for each kind of encode error, which the free exit status is applied to. The spec gives
the kinds no numbers, and nothing else reads these. -/
def EncodeError.index : EncodeError → Nat
  | .eSyntax => 0
  | .eUnresolved => 1
  | .eRange => 2
  | .eCapacity => 3

/-- The assembler's exit status: 0 at its clean end, nonzero on a fatal encode error, its number free
(70_reset_and_hazards.md R412, 90_conflicts.md C6). -/
def assemblyStatus : Except EncodeError (List Word) → Nat
  | .ok _ => 0
  | .error e => encodeFailureStatusPred e.index + 1

/-- The flat image of assembled words: each as four bytes, least significant first
(30_encoding.md R144). -/
def imageOf (vs : List Word) : List Byte :=
  vs.flatMap fun v => (List.range 4).map (byteAt v)

end Sys2Proof.Machine
end

