-- ==== Sys2Proof/Machine/Run.lean ====
section
/-! DEFINITION. The host's three points of contact (70_reset_and_hazards.md R414): loading an image,
the end-of-run report, and the observable outcome of a run. -/

namespace Sys2Proof.Machine

/-- `Reset(image)`: memory zeroed, then the image copied to address 0; an image longer than the
memory cannot be loaded and no run starts (70_reset_and_hazards.md R401). -/
def loadImage (image : List Byte) : Option State :=
  if image.length ≤ memSize then
    some { State.reset with mem := Memory.writeBytes State.reset.mem 0 image }
  else none

/-! ## The report -/

/-- The report of a halted run (70_reset_and_hazards.md R410). -/
structure Report where
  /-- `x[0]` to `x[30]`. -/
  regs : Vector DWord 31
  /-- The PC, the address of the terminate word. -/
  pc : DWord
  /-- The flag mask, N, Z, C, V in that order, `-` where unset. -/
  flags : List Char
  /-- The non-zero aligned words with their addresses, ascending. -/
  mem : List (Nat × Word)
deriving DecidableEq, Repr

/-- The 4-character flag mask (70_reset_and_hazards.md R410). -/
def flagMask (f : Flags) : List Char :=
  [if f.n then 'N' else '-', if f.z then 'Z' else '-', if f.c then 'C' else '-',
   if f.v then 'V' else '-']

/-- Every non-zero aligned word of memory with its address, ascending, read little-endian, by
looking at every aligned address (70_reset_and_hazards.md R410, R411). -/
def nonzeroWords (m : Memory) : List (Nat × Word) :=
  (List.range (memSize / 4)).filterMap fun k =>
    if m.read (4 * k) .w32 = 0#32 then none else some (4 * k, m.read (4 * k) .w32)

/-- The indices of the aligned words that hold a listed byte, each once. -/
def listedWordIndices : Memory → List Nat
  | [] => []
  | c :: m =>
    match listedWordIndices m with
    | [] => [c.1 / 4]
    | k :: ks => if c.1 / 4 = k then k :: ks else c.1 / 4 :: k :: ks

/-- The non-zero aligned words by looking at the listed bytes alone. -/
def listedWords (m : Memory) : List (Nat × Word) :=
  (listedWordIndices m).map fun k => (4 * k, m.read (4 * k) .w32)

/-- `Report(s)` (70_reset_and_hazards.md R410). -/
def report (s : State) : Report where
  regs := s.regs
  pc := s.pc
  flags := flagMask s.flags
  mem := nonzeroWords s.mem

/-! ## Runs -/

/-- At most `k` steps, stopping where the run ends (40_execution_cycle.md R161, R167). Running out of
`k` is neither a halt nor a fault. -/
def runFor : Nat → State → Result
  | 0, s => .next s
  | k + 1, s =>
    match s.run with
    | .running =>
      match step s with
      | .next t => runFor k t
      | .fault f => .fault f
      | .refused r => .refused r
    | .halted => .next s
    | .failed _ => .next s

/-- What a run shows (70_reset_and_hazards.md R413). -/
inductive Observation where
  /-- `Halted`, with its report. -/
  | halted (r : Report)
  /-- `Failed(kind)`, with the recorded values and no report. -/
  | failed (f : Fault)
  /-- No end so far; nothing is reported. -/
  | unfinished
deriving DecidableEq, Repr

/-- What the outcome of a run shows: a state is reported only where the run halted
(70_reset_and_hazards.md R412, R413). -/
def observe : Result → Observation
  | .next s =>
    match s.run with
    | .running => .unfinished
    | .halted => .halted (report s)
    | .failed f => .failed f
  | .fault f => .failed f
  | .refused _ => .unfinished

/-- The exit status of a run: 0 on a halt, nonzero on a fault, its number free
(70_reset_and_hazards.md R412). That of an assembly is `assemblyStatus`. -/
def exitStatus : Observation → Option Nat
  | .halted _ => some 0
  | .failed f => some (failureStatusPred f.code + 1)
  | .unfinished => none

end Sys2Proof.Machine
end

