-- ==== Sys2Proof/Safety.lean ====
section
/-! DEFINITION. The terms the claims are stated in: the invariant every step keeps, safe runs, the
classes of instructions the spec's whole-machine rules speak of, register-only frames with the
results as numbers, and what a line of the assembler assembles to. -/

namespace Sys2Proof

/-- The instructions that write all four flags: ADDS, SUBS, ANDS, BICS and their aliases CMP, CMN, NEGS,
TST (10_state.md R36). -/
def Instr.writesFlags : Sys2Proof.Instr → Bool
  | .halt => false
  | .addImm _ _ _ _ _ => false
  | .addsImm _ _ _ _ _ => true
  | .subImm _ _ _ _ _ => false
  | .subsImm _ _ _ _ _ => true
  | .movn _ _ _ _ => false
  | .movz _ _ _ _ => false
  | .movk _ _ _ _ => false
  | .addReg _ _ _ _ _ _ => false
  | .addsReg _ _ _ _ _ _ => true
  | .subReg _ _ _ _ _ _ => false
  | .subsReg _ _ _ _ _ _ => true
  | .andReg _ _ _ _ _ _ => false
  | .bicReg _ _ _ _ _ _ => false
  | .orrReg _ _ _ _ _ _ => false
  | .ornReg _ _ _ _ _ _ => false
  | .eorReg _ _ _ _ _ _ => false
  | .eonReg _ _ _ _ _ _ => false
  | .andsReg _ _ _ _ _ _ => true
  | .bicsReg _ _ _ _ _ _ => true
  | .madd _ _ _ _ _ => false
  | .msub _ _ _ _ _ => false
  | .ldrUoff _ _ _ _ => false
  | .strUoff _ _ _ _ => false
  | .ldrPre _ _ _ _ => false
  | .strPre _ _ _ _ => false
  | .ldrPost _ _ _ _ => false
  | .strPost _ _ _ _ => false
  | .ldrReg _ _ _ _ => false
  | .strReg _ _ _ _ => false
  | .ldrLit _ _ _ => false
  | .b _ => false
  | .bCond _ _ => false
  | .br _ => false
  | .cmpImm _ _ _ _ => true
  | .cmnImm _ _ _ _ => true
  | .negImm _ _ _ _ => false
  | .negsImm _ _ _ _ => true
  | .cmpReg _ _ _ _ _ => true
  | .cmnReg _ _ _ _ _ => true
  | .negReg _ _ _ _ _ => false
  | .negsReg _ _ _ _ _ => true
  | .tst _ _ _ _ _ => true
  | .mvn _ _ _ _ _ => false
  | .mov _ _ _ => false
  | .mul _ _ _ _ => false
  | .mneg _ _ _ _ => false
  | .bEq _ => false
  | .bNe _ => false
  | .bGe _ => false
  | .bLt _ => false
  | .bGt _ => false
  | .bLe _ => false
  | .bAl _ => false

/-- STR in its four forms (43_load_store.md R321, R323, R325, R327). -/
def Instr.isStore : Sys2Proof.Instr → Bool
  | .halt => false
  | .addImm _ _ _ _ _ => false
  | .addsImm _ _ _ _ _ => false
  | .subImm _ _ _ _ _ => false
  | .subsImm _ _ _ _ _ => false
  | .movn _ _ _ _ => false
  | .movz _ _ _ _ => false
  | .movk _ _ _ _ => false
  | .addReg _ _ _ _ _ _ => false
  | .addsReg _ _ _ _ _ _ => false
  | .subReg _ _ _ _ _ _ => false
  | .subsReg _ _ _ _ _ _ => false
  | .andReg _ _ _ _ _ _ => false
  | .bicReg _ _ _ _ _ _ => false
  | .orrReg _ _ _ _ _ _ => false
  | .ornReg _ _ _ _ _ _ => false
  | .eorReg _ _ _ _ _ _ => false
  | .eonReg _ _ _ _ _ _ => false
  | .andsReg _ _ _ _ _ _ => false
  | .bicsReg _ _ _ _ _ _ => false
  | .madd _ _ _ _ _ => false
  | .msub _ _ _ _ _ => false
  | .ldrUoff _ _ _ _ => false
  | .strUoff _ _ _ _ => true
  | .ldrPre _ _ _ _ => false
  | .strPre _ _ _ _ => true
  | .ldrPost _ _ _ _ => false
  | .strPost _ _ _ _ => true
  | .ldrReg _ _ _ _ => false
  | .strReg _ _ _ _ => true
  | .ldrLit _ _ _ => false
  | .b _ => false
  | .bCond _ _ => false
  | .br _ => false
  | .cmpImm _ _ _ _ => false
  | .cmnImm _ _ _ _ => false
  | .negImm _ _ _ _ => false
  | .negsImm _ _ _ _ => false
  | .cmpReg _ _ _ _ _ => false
  | .cmnReg _ _ _ _ _ => false
  | .negReg _ _ _ _ _ => false
  | .negsReg _ _ _ _ _ => false
  | .tst _ _ _ _ _ => false
  | .mvn _ _ _ _ _ => false
  | .mov _ _ _ => false
  | .mul _ _ _ _ => false
  | .mneg _ _ _ _ => false
  | .bEq _ => false
  | .bNe _ => false
  | .bGe _ => false
  | .bLt _ => false
  | .bGt _ => false
  | .bLe _ => false
  | .bAl _ => false

/-- LDR and STR in all forms (43_load_store.md). -/
def Instr.isTransfer : Sys2Proof.Instr → Bool
  | .halt => false
  | .addImm _ _ _ _ _ => false
  | .addsImm _ _ _ _ _ => false
  | .subImm _ _ _ _ _ => false
  | .subsImm _ _ _ _ _ => false
  | .movn _ _ _ _ => false
  | .movz _ _ _ _ => false
  | .movk _ _ _ _ => false
  | .addReg _ _ _ _ _ _ => false
  | .addsReg _ _ _ _ _ _ => false
  | .subReg _ _ _ _ _ _ => false
  | .subsReg _ _ _ _ _ _ => false
  | .andReg _ _ _ _ _ _ => false
  | .bicReg _ _ _ _ _ _ => false
  | .orrReg _ _ _ _ _ _ => false
  | .ornReg _ _ _ _ _ _ => false
  | .eorReg _ _ _ _ _ _ => false
  | .eonReg _ _ _ _ _ _ => false
  | .andsReg _ _ _ _ _ _ => false
  | .bicsReg _ _ _ _ _ _ => false
  | .madd _ _ _ _ _ => false
  | .msub _ _ _ _ _ => false
  | .ldrUoff _ _ _ _ => true
  | .strUoff _ _ _ _ => true
  | .ldrPre _ _ _ _ => true
  | .strPre _ _ _ _ => true
  | .ldrPost _ _ _ _ => true
  | .strPost _ _ _ _ => true
  | .ldrReg _ _ _ _ => true
  | .strReg _ _ _ _ => true
  | .ldrLit _ _ _ => true
  | .b _ => false
  | .bCond _ _ => false
  | .br _ => false
  | .cmpImm _ _ _ _ => false
  | .cmnImm _ _ _ _ => false
  | .negImm _ _ _ _ => false
  | .negsImm _ _ _ _ => false
  | .cmpReg _ _ _ _ _ => false
  | .cmnReg _ _ _ _ _ => false
  | .negReg _ _ _ _ _ => false
  | .negsReg _ _ _ _ _ => false
  | .tst _ _ _ _ _ => false
  | .mvn _ _ _ _ _ => false
  | .mov _ _ _ => false
  | .mul _ _ _ _ => false
  | .mneg _ _ _ _ => false
  | .bEq _ => false
  | .bNe _ => false
  | .bGe _ => false
  | .bLt _ => false
  | .bGt _ => false
  | .bLe _ => false
  | .bAl _ => false

end Sys2Proof

namespace Sys2Proof.Machine

/-! ## Invariants and runs -/

/-- The invariant of the machine: the memory is in canonical form, inside the array. -/
abbrev State.Inv (s : State) : Prop :=
  s.mem.wf

/-- The PC is a multiple of 4 (20_memory.md R68). -/
def State.pcAligned (s : State) : Bool :=
  s.pc.toNat % 4 == 0

/-- The word the next fetch reads, where it is in bounds (20_memory.md R62). -/
def State.nextWord (s : State) : Word :=
  s.mem.read s.pc.toNat .w32

/-- A run that never fails: after no number of steps does it show a fault
(70_reset_and_hazards.md R413). -/
def SafeRun (s : State) : Prop :=
  ∀ k f, observe (runFor k s) ≠ .failed f

/-- A run that ends at the terminate word with report `r` (70_reset_and_hazards.md R413). -/
def HaltsWith (s : State) (r : Report) : Prop :=
  ∃ k, observe (runFor k s) = .halted r

/-! ## Results as numbers -/

/-- The number `X(i, w)` holds (00_scope.md R13). -/
def regNat (s : State) (w : Width) (i : RegIdx) : Nat :=
  (s.x i).toNat % 2 ^ w.bits

/-- `signed(a)` at width `w` (00_scope.md R11). -/
def signedAt (w : Width) (a : Nat) : Int :=
  if a < 2 ^ (w.bits - 1) then a else (a : Int) - 2 ^ w.bits

/-- Whether an integer is a signed value of width `w`. -/
def fitsSigned (w : Width) (k : Int) : Bool :=
  -2 ^ (w.bits - 1) ≤ k && k < 2 ^ (w.bits - 1)

/-- The sum modulo 2^w (40_execution_cycle.md R172). -/
def sumNat (w : Width) (a b : Nat) : Nat :=
  (a + b) % 2 ^ w.bits

/-- The difference modulo 2^w (40_execution_cycle.md R172). -/
def diffNat (w : Width) (a b : Nat) : Nat :=
  (((a : Int) - b) % 2 ^ w.bits).toNat

/-- The flags of an addition, on numbers (40_execution_cycle.md R172). -/
def sumFlags (w : Width) (a b : Nat) : Flags where
  n := 2 ^ (w.bits - 1) ≤ sumNat w a b
  z := sumNat w a b = 0
  c := 2 ^ w.bits ≤ a + b
  v := !fitsSigned w (signedAt w a + signedAt w b)

/-- The flags of a subtraction, on numbers (40_execution_cycle.md R172). -/
def diffFlags (w : Width) (a b : Nat) : Flags where
  n := 2 ^ (w.bits - 1) ≤ diffNat w a b
  z := diffNat w a b = 0
  c := b ≤ a
  v := !fitsSigned w (signedAt w a - signedAt w b)

/-- The flags of a logical result, on numbers (40_execution_cycle.md R174). -/
def bitFlags (w : Width) (r : Nat) : Flags where
  n := 2 ^ (w.bits - 1) ≤ r
  z := r = 0
  c := false
  v := false

/-- `Shift(w, kind, v, n)` on numbers, by the formulas of 40_execution_cycle.md R171. -/
def shiftNat (w : Width) (kind : ShiftKind) (n v : Nat) : Nat :=
  match kind with
  | .lsl => v * 2 ^ n % 2 ^ w.bits
  | .lsr => v / 2 ^ n
  | .asr => (signedAt w v / 2 ^ n % 2 ^ w.bits).toNat
  | .ror => if n = 0 then v else v / 2 ^ n ||| v * 2 ^ (w.bits - n) % 2 ^ w.bits

/-- `NOT` at width `w`, on numbers. -/
def notNat (w : Width) (v : Nat) : Nat :=
  2 ^ w.bits - 1 - v

/-- The A64 function `AddWithCarry(a, b, carry)` that 40_execution_cycle.md R173 names. -/
def addWithCarry {n : Nat} (a b : BitVec n) (carry : Bool) : BitVec n × Flags :=
  let unsignedSum := a.toNat + b.toNat + carry.toNat
  let signedSum := a.toInt + b.toInt + carry.toNat
  let r := BitVec.ofNat n unsignedSum
  (r, { n := r.msb, z := r == 0, c := r.toNat != unsignedSum, v := r.toInt != signedSum })

/-- The flags answer every condition as the signed comparison of two integers does
(40_execution_cycle.md R179). -/
def ComparesSigned (f : Flags) (a b : Int) : Prop :=
  (condHolds .eq f = true ↔ a = b) ∧ (condHolds .ne f = true ↔ a ≠ b) ∧
    (condHolds .ge f = true ↔ a ≥ b) ∧ (condHolds .lt f = true ↔ a < b) ∧
    (condHolds .gt f = true ↔ a > b) ∧ (condHolds .le f = true ↔ a ≤ b) ∧
    condHolds .al f = true

/-- The target of a branch `k` instruction units away, modulo 2^64 (44_branch.md R340, R341). -/
def branchTarget (s : State) (k : Int) : DWord :=
  BitVec.ofInt 64 (s.pc.toNat + k * 4)

/-- The number an arithmetic immediate stands for (30_encoding.md R121). -/
def immNat (sh : Bool) (imm12 : BitVec 12) : Nat :=
  imm12.toNat * if sh then 4096 else 1

/-! ## Frames -/

/-- Every byte of memory reads as before. -/
def MemoryKept (s t : State) : Prop :=
  ∀ a, t.mem.readByte a = s.mem.readByte a

/-- The `n` bytes from `a` on hold the low bytes of `v`, and every other byte reads as before. -/
def MemoryStored (s t : State) (a : DWord) (n : Nat) (v : DWord) : Prop :=
  ∀ b, t.mem.readByte b =
    if a.toNat ≤ b ∧ b < a.toNat + n then byteAt v (b - a.toNat) else s.mem.readByte b

/-- The next instruction follows: `PC + 4` modulo 2^64 (10_state.md R38). -/
def PcAdvanced (s t : State) : Prop :=
  t.pc.toNat = (s.pc.toNat + 4) % 2 ^ 64

/-- The whole effect of an instruction that only writes `Rd` and perhaps the flags: `Rd` holds the
number `r` unless it is index 31, which discards the write; every other register, all of memory and
the run state are unchanged; the flags are `f`; the PC advances. -/
def WritesOnly (s t : State) (rd : RegIdx) (r : Nat) (f : Flags) : Prop :=
  (rd ≠ zr → (t.x rd).toNat = r) ∧ (∀ j, j ≠ rd → t.x j = s.x j) ∧ t.x zr = 0#64 ∧ t.flags = f ∧
    PcAdvanced s t ∧ MemoryKept s t ∧ t.run = s.run

/-- `Rt` holds the `n` bytes from `a` on, little-endian and zero-extended (20_memory.md R69). -/
def HoldsBytes (s t : State) (rt : RegIdx) (a : DWord) (n : Nat) : Prop :=
  ∀ k, k < 8 → byteAt (t.x rt) k = if k < n then s.mem.readByte (a.toNat + k) else 0#8

/-- What a transfer leaves alone: the flags and the run state; and the PC advances. -/
def TransferFrame (s t : State) : Prop :=
  t.flags = s.flags ∧ t.run = s.run ∧ PcAdvanced s t

/-! ## Assembler lines -/

/-- A line `m front, #v{, lsl #s}` assembles to `form sh imm12` for the `sh` and `imm12` its suffix and
immediate give, exactly when `v` fits 12 bits and `s` is 0 or 12, else to `E_RANGE`; so does a line
with an `lsr` or `asr` suffix (41_dp_immediate.md R220, D29). -/
def AssemblesArithImm (m : Mnemonic) (front : List Operand) (addr : BitVec 32)
    (form : Bool → BitVec 12 → Instr) : Prop :=
  ∀ (v s : Int) (suffix : List Operand),
    (suffix = [] ∧ s = 0 ∨ suffix = [.shift .lsl s] →
      (0 ≤ v ∧ v ≤ 0xFFF ∧ (s = 0 ∨ s = 12) → ∃ sh imm12, (sh = true ↔ s = 12) ∧
        (imm12.toNat : Int) = v ∧
        assembleInstr ⟨m, front ++ .imm v :: suffix⟩ addr = .ok (form sh imm12)) ∧
      (¬(0 ≤ v ∧ v ≤ 0xFFF ∧ (s = 0 ∨ s = 12)) →
        assembleInstr ⟨m, front ++ .imm v :: suffix⟩ addr = .error .eRange)) ∧
    (suffix = [.shift .lsr s] ∨ suffix = [.shift .asr s] →
      assembleInstr ⟨m, front ++ .imm v :: suffix⟩ addr = .error .eRange)

/-- A line `m rd, #v{, lsl #s}` assembles to `form hw imm16` with `hw = s / 16`, exactly when `v` fits
16 bits and `s` is a multiple of 16 below the width, else to `E_RANGE`; so does a line with another
suffix (41_dp_immediate.md R221, D30). -/
def AssemblesWideMove (m : Mnemonic) (w : Width) (rd : RegIdx) (addr : BitVec 32)
    (form : BitVec 2 → BitVec 16 → Instr) : Prop :=
  ∀ (v s : Int) (suffix : List Operand),
    (suffix = [] ∧ s = 0 ∨ suffix = [.shift .lsl s] →
      (0 ≤ v ∧ v ≤ 0xFFFF ∧ s % 16 = 0 ∧ 0 ≤ s ∧ s < w.bits → ∃ hw imm16,
        (16 * hw.toNat : Int) = s ∧ (imm16.toNat : Int) = v ∧
        assembleInstr ⟨m, .reg w rd :: .imm v :: suffix⟩ addr = .ok (form hw imm16)) ∧
      (¬(0 ≤ v ∧ v ≤ 0xFFFF ∧ s % 16 = 0 ∧ 0 ≤ s ∧ s < w.bits) →
        assembleInstr ⟨m, .reg w rd :: .imm v :: suffix⟩ addr = .error .eRange)) ∧
    (∀ k, k ≠ ShiftKind.lsl → suffix = [.shift k s] →
      assembleInstr ⟨m, .reg w rd :: .imm v :: suffix⟩ addr = .error .eRange)

/-- A line `m front, rm{, k #amount}` at width `w` assembles to `form imm6` with `imm6` the amount,
exactly when the amount is below the width, else to `E_RANGE`; no suffix is `lsl #0`
(42_dp_register.md R270, R271). -/
def AssemblesShifted (w : Width) (k : ShiftKind) (rm : RegIdx) (addr : BitVec 32) (m : Mnemonic)
    (front : List Operand) (form : BitVec 6 → Instr) : Prop :=
  ∀ (amount : Int) (suffix : List Operand),
    suffix = [] ∧ k = .lsl ∧ amount = 0 ∨ suffix = [.shift k amount] →
    (0 ≤ amount ∧ amount < w.bits → ∃ imm6, (imm6.toNat : Int) = amount ∧
      assembleInstr ⟨m, front ++ .reg w rm :: suffix⟩ addr = .ok (form imm6)) ∧
    (¬(0 ≤ amount ∧ amount < w.bits) →
      assembleInstr ⟨m, front ++ .reg w rm :: suffix⟩ addr = .error .eRange)

/-- Data-processing lines with an operand of another width `w'` than the first one's, `E_SYNTAX` also
with a suffix that is in range (30_encoding.md R142; 41_dp_immediate.md R223; 42_dp_register.md
R275). -/
def RefusesOtherWidths (w w' : Width) (a b c d : RegIdx) (addr : BitVec 32) : Prop :=
  (∀ (suffix : List Operand) (v s : Int), 0 ≤ v → v ≤ 0xFFF →
    suffix = [] ∨ suffix = [.shift .lsl s] ∧ (s = 0 ∨ s = 12) →
    ∀ m ∈ [Mnemonic.add, .adds, .sub, .subs],
      assembleInstr ⟨m, .reg w a :: .reg w' b :: .imm v :: suffix⟩ addr = .error .eSyntax) ∧
  (∀ (suffix : List Operand) (k : ShiftKind) (amount : Int),
    suffix = [] ∨ suffix = [.shift k amount] ∧ 0 ≤ amount ∧ amount < w.bits →
    (∀ m ∈ [Mnemonic.add, .adds, .sub, .subs, .and, .bic, .orr, .orn, .eor, .eon, .ands, .bics],
      assembleInstr ⟨m, .reg w a :: .reg w' b :: .reg w c :: suffix⟩ addr = .error .eSyntax ∧
      assembleInstr ⟨m, .reg w a :: .reg w b :: .reg w' c :: suffix⟩ addr = .error .eSyntax) ∧
    (∀ m ∈ [Mnemonic.cmp, .cmn, .neg, .negs, .tst, .mvn],
      assembleInstr ⟨m, .reg w a :: .reg w' b :: suffix⟩ addr = .error .eSyntax)) ∧
  assembleInstr ⟨.mov, [.reg w a, .reg w' b]⟩ addr = .error .eSyntax ∧
  (∀ m ∈ [Mnemonic.madd, .msub],
    assembleInstr ⟨m, [.reg w a, .reg w' b, .reg w c, .reg w d]⟩ addr = .error .eSyntax ∧
    assembleInstr ⟨m, [.reg w a, .reg w b, .reg w' c, .reg w d]⟩ addr = .error .eSyntax ∧
    assembleInstr ⟨m, [.reg w a, .reg w b, .reg w c, .reg w' d]⟩ addr = .error .eSyntax) ∧
  (∀ m ∈ [Mnemonic.mul, .mneg],
    assembleInstr ⟨m, [.reg w a, .reg w' b, .reg w c]⟩ addr = .error .eSyntax ∧
    assembleInstr ⟨m, [.reg w a, .reg w b, .reg w' c]⟩ addr = .error .eSyntax)

/-- Load and store lines with a 32-bit base or index, `E_SYNTAX` in each form with an offset in range;
and BR with a 32-bit register (30_encoding.md R142; 43_load_store.md R301; 44_branch.md R353). -/
def Refuses32BitAddresses (w : Width) (a b c : RegIdx) (addr : BitVec 32) : Prop :=
  (∀ m ∈ [Mnemonic.ldr, .str],
    (∀ v : Int, v % w.bytes = 0 → 0 ≤ v → v ≤ 4095 * w.bytes →
      assembleInstr ⟨m, [.reg w a, .offset .w32 b v]⟩ addr = .error .eSyntax) ∧
    (∀ v : Int, -256 ≤ v → v ≤ 255 →
      assembleInstr ⟨m, [.reg w a, .preIndex .w32 b v]⟩ addr = .error .eSyntax ∧
      assembleInstr ⟨m, [.reg w a, .postIndex .w32 b v]⟩ addr = .error .eSyntax) ∧
    (∀ wb wi : Width, ¬(wb = .w64 ∧ wi = .w64) →
      assembleInstr ⟨m, [.reg w a, .regOffset wb b wi c]⟩ addr = .error .eSyntax)) ∧
  assembleInstr ⟨.br, [.reg .w32 a]⟩ addr = .error .eSyntax

end Sys2Proof.Machine
end

