-- ==== Sys2Proof/Certificates/Slice0/Obligations.lean ====
section
/-! DEFINITION. The statements for the provers, from the spec's numbered rules. -/

section

open Sys2Proof Sys2Proof.Machine

/-! ## Decoder and encoder -/

/-- 30_encoding.md R145: every well-formed canonical instruction decodes back from its word. -/
def Obligations.DecodeOfEncodeIsTheInstruction : Prop :=
  ∀ i : Instr, i.wf = true → i.isCanonical = true → decode (encode i) = .ok i

/-- 30_encoding.md R145, second law: the instruction a word decodes to encodes to that word. -/
def Obligations.EncodeOfDecodedWordIsTheWord : Prop :=
  ∀ (v : Word) (i : Instr), decode v = .ok i →
    i.wf = true ∧ i.isCanonical = true ∧ encode i = v

/-- 30_encoding.md R136: an alias's word decodes as its canonical instruction, which runs as the alias
does; `neg rd, #imm` computes `0 - imm`.
The spec marks R136 as derived. -/
def Obligations.AliasesDecodeAndRunAsCanonical : Prop :=
  (∀ i : Instr, i.wf = true → decode (encode i) = .ok i.canonical) ∧
  (∀ i : Instr, i.canonical.isCanonical = true) ∧
  (∀ (i : Instr) (s : State), exec i s = exec i.canonical s) ∧
  (∀ (w : Width) (sh : Bool) (imm12 : BitVec 12) (rd : RegIdx) (s : State), rd ≠ zr →
    ∃ t, exec (.negImm w sh imm12 rd) s = .next t ∧
      (t.x rd).toNat = diffNat w 0 (immNat sh imm12))

/-- 30_encoding.md R126, R146: a word is accepted exactly when one row of the opcode map takes it,
that row is the decoded instruction's, no word matches two rows, and every row is reached.
The spec marks R126 as derived. -/
def Obligations.AcceptedWordsTakeExactlyOneRow : Prop :=
  (∀ (v : Word) (i : Instr), decode v = .ok i →
    opcodeMap.filter (fun r => r.takes v) = [i.row]) ∧
  (∀ v : Word, (∃ r ∈ opcodeMap, r.takes v = true) → ∃ i, decode v = .ok i) ∧
  (∀ v : Word, (opcodeMap.filter (fun r => r.takes v)).length ≤ 1) ∧
  (∀ r ∈ opcodeMap, ∃ v i, decode v = .ok i ∧ i.row = r)

/-- 30_encoding.md R102: the selector `w[28:25]` sends every word other than the terminate word to
its category, and the category fault is raised exactly for the other values. -/
def Obligations.CategorySelectorDispatches : Prop :=
  ∀ v : Word, v ≠ terminateWord →
    (v.toNat / 2 ^ 25 % 16 ∈ [8, 9] → decode v = decodeDPImm v) ∧
    (v.toNat / 2 ^ 25 % 16 ∈ [5, 13] → decode v = decodeDPReg v) ∧
    (v.toNat / 2 ^ 25 % 16 ∈ [4, 6, 12, 14] → decode v = decodeLdSt v) ∧
    (v.toNat / 2 ^ 25 % 16 ∈ [10, 11] → decode v = decodeBranch v) ∧
    (decode v = .error .category ↔ v.toNat / 2 ^ 25 % 16 ∈ [0, 1, 2, 3, 7, 15])

/-- 30_encoding.md R119, R127, R377: the condition fault and the illegal-shift fault, each exactly.
The spec marks the order, R377, as derived (D35). -/
def Obligations.ConditionAndShiftFaultsAreExact : Prop :=
  ∀ v : Word,
    (decode v = .error .condition ↔
      v.toNat / 2 ^ 24 = 0x54 ∧ v.toNat / 16 % 2 = 0 ∧ v.toNat % 16 ∉ [0, 1, 10, 11, 12, 13, 14]) ∧
    (decode v = .error .illegalShift ↔
      v.toNat / 2 ^ 24 % 32 = 11 ∧ v.toNat / 2 ^ 22 % 4 = 3 ∧ v.toNat / 2 ^ 21 % 2 = 0)

/-- Words written out from the layouts of 30_encoding.md decode to what they spell. -/
def Obligations.WrittenOutWordsDecode : Prop :=
  decode 0b1_00_100010_1_000000000001_00001_00000#32 = .ok (.addImm .w64 true 1#12 1#5 0#5) ∧
  decode 0b0_10_100101_01_1111111111111111_00000#32 = .ok (.movz .w32 1#2 0xFFFF#16 0#5) ∧
  decode 0b1_10_01011_10_0_00010_111111_00001_00000#32
    = .ok (.subReg .w64 .asr 2#5 63#6 1#5 0#5) ∧
  decode 0b0_10_01010_11_1_00010_000100_00001_00000#32
    = .ok (.eonReg .w32 .ror 2#5 4#6 1#5 0#5) ∧
  decode 0b1_00_11011000_00010_1_00011_00001_00000#32 = .ok (.msub .w64 2#5 3#5 1#5 0#5) ∧
  decode 0b1_1_111_0_0_1_0_1_000000000001_00001_00000#32 = .ok (.ldrUoff .w64 1#12 1#5 0#5) ∧
  decode 0b1_0_111_0_0_0_0_0_0_011111111_0_1_00001_00000#32
    = .ok (.strPost .w32 255#9 1#5 0#5) ∧
  decode 0b0_0_011000_1111111111111111111_00000#32 = .ok (.ldrLit .w32 0x7FFFF#19 0#5) ∧
  decode 0b01010100_0000000000000000011_0_1101#32 = .ok (.bCond 3#19 .le) ∧
  decode 0b1101011_0000_11111_000000_11110_00000#32 = .ok (.br 30#5)

/-- 00_scope.md R9: the two laws of `insert` and `extract`, and the encoder builds every word by
inserting each field into its row's fixed bits. -/
def Obligations.FieldInsertsObeyTheCodecLaws : Prop :=
  (∀ (n : Nat) (v value : BitVec n) (lo hi : Nat), lo ≤ hi → hi < n →
    (slice hi lo (insertField hi lo v value)).toNat = value.toNat % 2 ^ (hi - lo + 1) ∧
    ∀ k, k < lo ∨ hi < k → (insertField hi lo v value).getLsbD k = v.getLsbD k) ∧
  (∀ i : Instr, encode i = insertFields i.row.pattern i.fields)

/-! ## Shifter, ALU and conditions -/

/-- 00_scope.md R10: sign extension is the signed value of the field modulo 2^64, and extending again
from the same width changes nothing. -/
def Obligations.SignExtensionLaws : Prop :=
  ∀ (n : Nat) (v : BitVec n), 1 ≤ n → n ≤ 64 →
    (sext v).toNat = (if v.toNat < 2 ^ (n - 1) then v.toNat else 2 ^ 64 - 2 ^ n + v.toNat) ∧
    sext ((sext v).setWidth n) = sext v

/-- 40_execution_cycle.md R171: the four shift formulas, and a shift by 0. -/
def Obligations.ShiftFormulas : Prop :=
  (∀ (w : Width) (kind : ShiftKind) (v : BitVec w.bits) (n : Nat), n < w.bits →
    (shiftBy kind v n).toNat = shiftNat w kind n v.toNat) ∧
  (∀ (w : Width) (kind : ShiftKind) (v : BitVec w.bits), shiftBy kind v 0 = v)

/-- 40_execution_cycle.md R173: the result and flags of `AddSub` are those of `AddWithCarry`, and its
V is a sign rule. The spec marks R173 as derived. -/
def Obligations.AddSubIsAddWithCarry : Prop :=
  ∀ (w : Width) (a b : BitVec w.bits),
    addSub a b false = addWithCarry a b false ∧
    addSub a b true = addWithCarry a (~~~b) true ∧
    ((addSub a b false).2.v = true ↔ a.msb = b.msb ∧ (a + b).msb ≠ a.msb) ∧
    ((addSub a b true).2.v = true ↔ a.msb ≠ b.msb ∧ (a - b).msb ≠ a.msb)

/-- 40_execution_cycle.md R175: `MulAcc` on exact unsigned products, the same on signed ones, and no
flag written. -/
def Obligations.MultiplyAccumulateFormulas : Prop :=
  (∀ (w : Width) (a b acc : BitVec w.bits),
    (mulAcc a b acc false).toNat = (acc.toNat + a.toNat * b.toNat) % 2 ^ w.bits ∧
    ((mulAcc a b acc true).toNat : Int) = ((acc.toNat : Int) - a.toNat * b.toNat) % 2 ^ w.bits ∧
    mulAcc a b acc false = BitVec.ofInt w.bits (acc.toInt + a.toInt * b.toInt) ∧
    mulAcc a b acc true = BitVec.ofInt w.bits (acc.toInt - a.toInt * b.toInt)) ∧
  (∀ (w : Width) (rm ra rn rd : RegIdx) (s t : State),
    exec (.madd w rm ra rn rd) s = .next t ∨ exec (.msub w rm ra rn rd) s = .next t →
      t.flags = s.flags)

/-- 40_execution_cycle.md R179: after a compare, each condition is the signed comparison it names.
The spec marks R179 as derived. -/
def Obligations.ConditionsAfterCompare : Prop :=
  (∀ (w : Width) (sh : Bool) (imm12 : BitVec 12) (rn : RegIdx) (s : State),
    ∃ t, exec (.cmpImm w sh imm12 rn) s = .next t ∧
      ComparesSigned t.flags (signedAt w (regNat s w rn)) (signedAt w (immNat sh imm12))) ∧
  (∀ (w : Width) (shift : ShiftKind) (rm : RegIdx) (imm6 : BitVec 6) (rn : RegIdx) (s : State),
    arithShiftAllowed shift = true → amountFits w imm6 = true →
    ∃ t, exec (.cmpReg w shift rm imm6 rn) s = .next t ∧
      ComparesSigned t.flags (signedAt w (regNat s w rn))
        (signedAt w (shiftNat w shift imm6.toNat (regNat s w rm))))

/-! ## Registers -/

/-- 00_scope.md R13 and the register rules 10_state.md R31, R32: what a width-aware read gives and
what a width-aware write leaves in every register. -/
def Obligations.WidthAwareRegisterAccess : Prop :=
  ∀ (s : State) (w : Width) (i : RegIdx) (v : BitVec w.bits),
    (s.xw w i).toNat = (s.x i).toNat % 2 ^ w.bits ∧
    (i ≠ zr → ((s.setXw w i v).x i).toNat = v.toNat) ∧
    (∀ j, j ≠ i → (s.setXw w i v).x j = s.x j) ∧
    s.x zr = 0#64 ∧ s.setXw w zr v = s

/-! ## Data processing -/

/-- 41_dp_immediate.md R200 to R203: ADD, ADDS, SUB, SUBS (immediate) complete for every operand, with
their result, flags and frame. -/
def Obligations.ArithmeticImmediateResults : Prop :=
  ∀ (w : Width) (sh : Bool) (imm12 : BitVec 12) (rn rd : RegIdx) (s : State),
    (∃ t, exec (.addImm w sh imm12 rn rd) s = .next t ∧
      WritesOnly s t rd (sumNat w (regNat s w rn) (immNat sh imm12)) s.flags) ∧
    (∃ t, exec (.addsImm w sh imm12 rn rd) s = .next t ∧
      WritesOnly s t rd (sumNat w (regNat s w rn) (immNat sh imm12))
        (sumFlags w (regNat s w rn) (immNat sh imm12))) ∧
    (∃ t, exec (.subImm w sh imm12 rn rd) s = .next t ∧
      WritesOnly s t rd (diffNat w (regNat s w rn) (immNat sh imm12)) s.flags) ∧
    (∃ t, exec (.subsImm w sh imm12 rn rd) s = .next t ∧
      WritesOnly s t rd (diffNat w (regNat s w rn) (immNat sh imm12))
        (diffFlags w (regNat s w rn) (immNat sh imm12)))

/-- 41_dp_immediate.md R210 to R212: MOVN, MOVZ, MOVK complete, with their result and frame. The bits
of MOVK are given one by one. -/
def Obligations.WideMoveResults : Prop :=
  ∀ (w : Width) (hw : BitVec 2) (imm16 : BitVec 16) (rd : RegIdx) (s : State),
    halfwordFits w hw = true →
    (∃ t, exec (.movn w hw imm16 rd) s = .next t ∧
      WritesOnly s t rd (notNat w (imm16.toNat * 2 ^ (16 * hw.toNat))) s.flags) ∧
    (∃ t, exec (.movz w hw imm16 rd) s = .next t ∧
      WritesOnly s t rd (imm16.toNat * 2 ^ (16 * hw.toNat)) s.flags) ∧
    (∃ t r, exec (.movk w hw imm16 rd) s = .next t ∧ WritesOnly s t rd r s.flags ∧
      ∀ k, r.testBit k =
        if 16 * hw.toNat ≤ k ∧ k < 16 * hw.toNat + 16 then imm16.getLsbD (k - 16 * hw.toNat)
        else decide (k < w.bits) && (s.x rd).getLsbD k)

/-- 42_dp_register.md R240 to R243: ADD, ADDS, SUB, SUBS (shifted register) complete, with their result,
flags and frame. -/
def Obligations.ArithmeticRegisterResults : Prop :=
  ∀ (w : Width) (shift : ShiftKind) (rm : RegIdx) (imm6 : BitVec 6) (rn rd : RegIdx) (s : State)
    (a b : Nat), arithShiftAllowed shift = true → amountFits w imm6 = true →
    a = regNat s w rn → b = shiftNat w shift imm6.toNat (regNat s w rm) →
    (∃ t, exec (.addReg w shift rm imm6 rn rd) s = .next t ∧
      WritesOnly s t rd (sumNat w a b) s.flags) ∧
    (∃ t, exec (.addsReg w shift rm imm6 rn rd) s = .next t ∧
      WritesOnly s t rd (sumNat w a b) (sumFlags w a b)) ∧
    (∃ t, exec (.subReg w shift rm imm6 rn rd) s = .next t ∧
      WritesOnly s t rd (diffNat w a b) s.flags) ∧
    (∃ t, exec (.subsReg w shift rm imm6 rn rd) s = .next t ∧
      WritesOnly s t rd (diffNat w a b) (diffFlags w a b))

/-- 42_dp_register.md R250 to R255: AND, BIC, ORR, ORN, EOR, EON complete, with their result and frame;
no flag changes. -/
def Obligations.LogicalResults : Prop :=
  ∀ (w : Width) (shift : ShiftKind) (rm : RegIdx) (imm6 : BitVec 6) (rn rd : RegIdx) (s : State)
    (a b : Nat), amountFits w imm6 = true →
    a = regNat s w rn → b = shiftNat w shift imm6.toNat (regNat s w rm) →
    (spellsTerminate w shift rm imm6 rn rd = false →
      ∃ t, exec (.andReg w shift rm imm6 rn rd) s = .next t ∧
        WritesOnly s t rd (a &&& b) s.flags) ∧
    (∃ t, exec (.bicReg w shift rm imm6 rn rd) s = .next t ∧
      WritesOnly s t rd (a &&& notNat w b) s.flags) ∧
    (∃ t, exec (.orrReg w shift rm imm6 rn rd) s = .next t ∧
      WritesOnly s t rd (a ||| b) s.flags) ∧
    (∃ t, exec (.ornReg w shift rm imm6 rn rd) s = .next t ∧
      WritesOnly s t rd (a ||| notNat w b) s.flags) ∧
    (∃ t, exec (.eorReg w shift rm imm6 rn rd) s = .next t ∧
      WritesOnly s t rd (a ^^^ b) s.flags) ∧
    (∃ t, exec (.eonReg w shift rm imm6 rn rd) s = .next t ∧
      WritesOnly s t rd (a ^^^ notNat w b) s.flags)

/-- 42_dp_register.md R256, R257: ANDS and BICS complete, with their result, their flags (C and V
cleared whatever they held) and their frame. -/
def Obligations.LogicalFlagResults : Prop :=
  ∀ (w : Width) (shift : ShiftKind) (rm : RegIdx) (imm6 : BitVec 6) (rn rd : RegIdx) (s : State)
    (a b : Nat), amountFits w imm6 = true →
    a = regNat s w rn → b = shiftNat w shift imm6.toNat (regNat s w rm) →
    (∃ t, exec (.andsReg w shift rm imm6 rn rd) s = .next t ∧
      WritesOnly s t rd (a &&& b) (bitFlags w (a &&& b))) ∧
    (∃ t, exec (.bicsReg w shift rm imm6 rn rd) s = .next t ∧
      WritesOnly s t rd (a &&& notNat w b) (bitFlags w (a &&& notNat w b)))

/-- 42_dp_register.md R260, R261: MADD and MSUB complete, with their result and frame. -/
def Obligations.MultiplyResults : Prop :=
  ∀ (w : Width) (rm ra rn rd : RegIdx) (s : State),
    (∃ t, exec (.madd w rm ra rn rd) s = .next t ∧
      WritesOnly s t rd ((regNat s w ra + regNat s w rn * regNat s w rm) % 2 ^ w.bits) s.flags) ∧
    (∃ t, exec (.msub w rm ra rn rd) s = .next t ∧
      WritesOnly s t rd (diffNat w (regNat s w ra) (regNat s w rn * regNat s w rm)) s.flags)

/-- 30_encoding.md R135: CMP, CMN and TST complete, changing only the flags and the PC. -/
def Obligations.CompareAliasResults : Prop :=
  (∀ (w : Width) (sh : Bool) (imm12 : BitVec 12) (rn : RegIdx) (s : State),
    (∃ t, exec (.cmpImm w sh imm12 rn) s = .next t ∧
      WritesOnly s t zr 0 (diffFlags w (regNat s w rn) (immNat sh imm12))) ∧
    (∃ t, exec (.cmnImm w sh imm12 rn) s = .next t ∧
      WritesOnly s t zr 0 (sumFlags w (regNat s w rn) (immNat sh imm12)))) ∧
  (∀ (w : Width) (shift : ShiftKind) (rm : RegIdx) (imm6 : BitVec 6) (rn : RegIdx) (s : State)
    (a b : Nat), amountFits w imm6 = true →
    a = regNat s w rn → b = shiftNat w shift imm6.toNat (regNat s w rm) →
    (arithShiftAllowed shift = true → ∃ t, exec (.cmpReg w shift rm imm6 rn) s = .next t ∧
      WritesOnly s t zr 0 (diffFlags w a b)) ∧
    (arithShiftAllowed shift = true → ∃ t, exec (.cmnReg w shift rm imm6 rn) s = .next t ∧
      WritesOnly s t zr 0 (sumFlags w a b)) ∧
    (∃ t, exec (.tst w shift rm imm6 rn) s = .next t ∧
      WritesOnly s t zr 0 (bitFlags w (a &&& b))))

/-- 30_encoding.md R135: NEG and NEGS complete, giving `0 - op2`. -/
def Obligations.NegateAliasResults : Prop :=
  (∀ (w : Width) (sh : Bool) (imm12 : BitVec 12) (rd : RegIdx) (s : State),
    (∃ t, exec (.negImm w sh imm12 rd) s = .next t ∧
      WritesOnly s t rd (diffNat w 0 (immNat sh imm12)) s.flags) ∧
    (∃ t, exec (.negsImm w sh imm12 rd) s = .next t ∧
      WritesOnly s t rd (diffNat w 0 (immNat sh imm12)) (diffFlags w 0 (immNat sh imm12)))) ∧
  (∀ (w : Width) (shift : ShiftKind) (rm : RegIdx) (imm6 : BitVec 6) (rd : RegIdx) (s : State)
    (b : Nat), arithShiftAllowed shift = true → amountFits w imm6 = true →
    b = shiftNat w shift imm6.toNat (regNat s w rm) →
    (∃ t, exec (.negReg w shift rm imm6 rd) s = .next t ∧
      WritesOnly s t rd (diffNat w 0 b) s.flags) ∧
    (∃ t, exec (.negsReg w shift rm imm6 rd) s = .next t ∧
      WritesOnly s t rd (diffNat w 0 b) (diffFlags w 0 b)))

/-- 30_encoding.md R135: MVN, MOV, MUL and MNEG complete, with their result and frame. -/
def Obligations.MoveAndMultiplyAliasResults : Prop :=
  (∀ (w : Width) (shift : ShiftKind) (rm : RegIdx) (imm6 : BitVec 6) (rd : RegIdx) (s : State),
    amountFits w imm6 = true →
    ∃ t, exec (.mvn w shift rm imm6 rd) s = .next t ∧
      WritesOnly s t rd (notNat w (shiftNat w shift imm6.toNat (regNat s w rm))) s.flags) ∧
  (∀ (w : Width) (rm rd : RegIdx) (s : State),
    ∃ t, exec (.mov w rm rd) s = .next t ∧ WritesOnly s t rd (regNat s w rm) s.flags) ∧
  (∀ (w : Width) (rm rn rd : RegIdx) (s : State),
    (∃ t, exec (.mul w rm rn rd) s = .next t ∧
      WritesOnly s t rd (regNat s w rn * regNat s w rm % 2 ^ w.bits) s.flags) ∧
    (∃ t, exec (.mneg w rm rn rd) s = .next t ∧
      WritesOnly s t rd (diffNat w 0 (regNat s w rn * regNat s w rm)) s.flags))

/-! ## Loads and stores -/

/-- 43_load_store.md R290, R291: the effective addresses as integers modulo 2^64. -/
def Obligations.EffectiveAddressFormulas : Prop :=
  ∀ (s : State) (w : Width) (rn : RegIdx),
    (∀ imm12 : BitVec 12, (effAddr s w (.unsignedOffset imm12) rn).toNat =
      ((s.x rn).toNat + imm12.toNat * w.bytes) % 2 ^ 64) ∧
    (∀ rm : RegIdx, (effAddr s w (.regOffset rm) rn).toNat =
      ((s.x rn).toNat + (s.x rm).toNat) % 2 ^ 64) ∧
    (∀ simm9 : BitVec 9, ((effAddr s w (.preIndex simm9) rn).toNat : Int) =
      ((s.x rn).toNat + simm9.toInt) % 2 ^ 64) ∧
    (∀ simm9 : BitVec 9, effAddr s w (.postIndex simm9) rn = s.x rn) ∧
    (∀ simm19 : BitVec 19, ((pcRelative s simm19).toNat : Int) =
      (s.pc.toNat + simm19.toInt * 4) % 2 ^ 64)

/-- 43_load_store.md R320, R326: LDR (unsigned offset) and LDR (register offset) complete at every
address in bounds, aligned or not; `Rt` alone changes. -/
def Obligations.OffsetLoadResults : Prop :=
  ∀ (w : Width) (rn rt : RegIdx) (s : State),
    (∀ (imm12 : BitVec 12) (ea : DWord), ea = effAddr s w (.unsignedOffset imm12) rn →
      ea.toNat + w.bytes ≤ memSize →
      ∃ t, exec (.ldrUoff w imm12 rn rt) s = .next t ∧
        (rt ≠ zr → HoldsBytes s t rt ea w.bytes) ∧ (∀ j, j ≠ rt → t.x j = s.x j) ∧
        TransferFrame s t ∧ MemoryKept s t) ∧
    (∀ (rm : RegIdx) (ea : DWord), ea = effAddr s w (.regOffset rm) rn →
      ea.toNat + w.bytes ≤ memSize →
      ∃ t, exec (.ldrReg w rm rn rt) s = .next t ∧
        (rt ≠ zr → HoldsBytes s t rt ea w.bytes) ∧ (∀ j, j ≠ rt → t.x j = s.x j) ∧
        TransferFrame s t ∧ MemoryKept s t)

/-- 43_load_store.md R322, R295: LDR (pre-index) completes in bounds; the base gets the address, and
with `Rt = Rn` the loaded value stays. -/
def Obligations.PreIndexLoadResults : Prop :=
  ∀ (w : Width) (simm9 : BitVec 9) (rn rt : RegIdx) (s : State) (ea : DWord),
    ea = effAddr s w (.preIndex simm9) rn → ea.toNat + w.bytes ≤ memSize →
    ∃ t, exec (.ldrPre w simm9 rn rt) s = .next t ∧
      (rt ≠ zr → HoldsBytes s t rt ea w.bytes) ∧ (rn ≠ zr → rn ≠ rt → t.x rn = ea) ∧
      (∀ j, j ≠ rt → j ≠ rn → t.x j = s.x j) ∧ t.x zr = 0#64 ∧
      TransferFrame s t ∧ MemoryKept s t

/-- 43_load_store.md R324, R295: LDR (post-index) completes in bounds; the base gets the old base plus
the offset, which with `Rt = Rn` replaces the loaded value. -/
def Obligations.PostIndexLoadResults : Prop :=
  ∀ (w : Width) (simm9 : BitVec 9) (rn rt : RegIdx) (s : State) (ea : DWord),
    ea = effAddr s w (.postIndex simm9) rn → ea.toNat + w.bytes ≤ memSize →
    ∃ t, exec (.ldrPost w simm9 rn rt) s = .next t ∧
      (rt ≠ zr → rt ≠ rn → HoldsBytes s t rt ea w.bytes) ∧
      (rn ≠ zr → t.x rn = BitVec.ofInt 64 ((s.x rn).toNat + simm9.toInt)) ∧
      (∀ j, j ≠ rt → j ≠ rn → t.x j = s.x j) ∧ t.x zr = 0#64 ∧
      TransferFrame s t ∧ MemoryKept s t

/-- 43_load_store.md R328: LDR (literal) completes in bounds. -/
def Obligations.LiteralLoadResults : Prop :=
  ∀ (w : Width) (simm19 : BitVec 19) (rt : RegIdx) (s : State) (ea : DWord),
    ea = pcRelative s simm19 → ea.toNat + w.bytes ≤ memSize →
    ∃ t, exec (.ldrLit w simm19 rt) s = .next t ∧
      (rt ≠ zr → HoldsBytes s t rt ea w.bytes) ∧ (∀ j, j ≠ rt → t.x j = s.x j) ∧
      TransferFrame s t ∧ MemoryKept s t

/-- 43_load_store.md R321, R327: STR (unsigned offset) and STR (register offset) complete in bounds;
exactly the bytes at the effective address change. -/
def Obligations.OffsetStoreResults : Prop :=
  ∀ (w : Width) (rn rt : RegIdx) (s : State), s.Inv →
    (∀ (imm12 : BitVec 12) (ea : DWord), ea = effAddr s w (.unsignedOffset imm12) rn →
      ea.toNat + w.bytes ≤ memSize →
      ∃ t, exec (.strUoff w imm12 rn rt) s = .next t ∧ MemoryStored s t ea w.bytes (s.x rt) ∧
        (∀ j, t.x j = s.x j) ∧ TransferFrame s t) ∧
    (∀ (rm : RegIdx) (ea : DWord), ea = effAddr s w (.regOffset rm) rn →
      ea.toNat + w.bytes ≤ memSize →
      ∃ t, exec (.strReg w rm rn rt) s = .next t ∧ MemoryStored s t ea w.bytes (s.x rt) ∧
        (∀ j, t.x j = s.x j) ∧ TransferFrame s t)

/-- 43_load_store.md R323, R295: STR (pre-index) completes in bounds; with `Rt = Rn` it stores the
updated base. -/
def Obligations.PreIndexStoreResults : Prop :=
  ∀ (w : Width) (simm9 : BitVec 9) (rn rt : RegIdx) (s : State) (ea : DWord), s.Inv →
    ea = effAddr s w (.preIndex simm9) rn → ea.toNat + w.bytes ≤ memSize →
    ∃ t, exec (.strPre w simm9 rn rt) s = .next t ∧
      MemoryStored s t ea w.bytes (if rt = rn ∧ rn ≠ zr then ea else s.x rt) ∧
      (rn ≠ zr → t.x rn = ea) ∧ (∀ j, j ≠ rn → t.x j = s.x j) ∧ t.x zr = 0#64 ∧
      TransferFrame s t

/-- 43_load_store.md R325, R295: STR (post-index) completes in bounds; it stores the old `Rt`, and the
base gets the old base plus the offset. -/
def Obligations.PostIndexStoreResults : Prop :=
  ∀ (w : Width) (simm9 : BitVec 9) (rn rt : RegIdx) (s : State) (ea : DWord), s.Inv →
    ea = effAddr s w (.postIndex simm9) rn → ea.toNat + w.bytes ≤ memSize →
    ∃ t, exec (.strPost w simm9 rn rt) s = .next t ∧
      MemoryStored s t ea w.bytes (s.x rt) ∧
      (rn ≠ zr → t.x rn = BitVec.ofInt 64 ((s.x rn).toNat + simm9.toInt)) ∧
      (∀ j, j ≠ rn → t.x j = s.x j) ∧ t.x zr = 0#64 ∧ TransferFrame s t

/-- 43_load_store.md R292: every LDR and STR form raises `DATA_BOUNDS` exactly when its access is out
of bounds, with the address, the size and the PC recorded. -/
def Obligations.TransfersFaultExactlyOutOfBounds : Prop :=
  ∀ (w : Width) (rn rt : RegIdx) (s : State),
    (∀ (imm12 : BitVec 12) (ea : DWord), ea = effAddr s w (.unsignedOffset imm12) rn →
      (memSize < ea.toNat + w.bytes ↔
        exec (.ldrUoff w imm12 rn rt) s = .fault (.dataBounds ea w.bytes s.pc)) ∧
      (memSize < ea.toNat + w.bytes ↔
        exec (.strUoff w imm12 rn rt) s = .fault (.dataBounds ea w.bytes s.pc))) ∧
    (∀ (rm : RegIdx) (ea : DWord), ea = effAddr s w (.regOffset rm) rn →
      (memSize < ea.toNat + w.bytes ↔
        exec (.ldrReg w rm rn rt) s = .fault (.dataBounds ea w.bytes s.pc)) ∧
      (memSize < ea.toNat + w.bytes ↔
        exec (.strReg w rm rn rt) s = .fault (.dataBounds ea w.bytes s.pc))) ∧
    (∀ (simm9 : BitVec 9) (ea : DWord), ea = effAddr s w (.preIndex simm9) rn →
      (memSize < ea.toNat + w.bytes ↔
        exec (.ldrPre w simm9 rn rt) s = .fault (.dataBounds ea w.bytes s.pc)) ∧
      (memSize < ea.toNat + w.bytes ↔
        exec (.strPre w simm9 rn rt) s = .fault (.dataBounds ea w.bytes s.pc))) ∧
    (∀ (simm9 : BitVec 9) (ea : DWord), ea = effAddr s w (.postIndex simm9) rn →
      (memSize < ea.toNat + w.bytes ↔
        exec (.ldrPost w simm9 rn rt) s = .fault (.dataBounds ea w.bytes s.pc)) ∧
      (memSize < ea.toNat + w.bytes ↔
        exec (.strPost w simm9 rn rt) s = .fault (.dataBounds ea w.bytes s.pc))) ∧
    (∀ (simm19 : BitVec 19) (ea : DWord), ea = pcRelative s simm19 →
      (memSize < ea.toNat + w.bytes ↔
        exec (.ldrLit w simm19 rt) s = .fault (.dataBounds ea w.bytes s.pc)))

/-! ## Memory -/

/-- 20_memory.md R60, R66: a data read answers the bytes at its address, or `DATA_BOUNDS` exactly where
the access passes the end of memory, counted on unbounded integers. -/
def Obligations.MemReadRule : Prop :=
  ∀ (s : State) (w : Width) (ea : DWord),
    (ea.toNat + w.bytes ≤ memSize → ∃ v, s.loadData w ea = .ok v ∧
      ∀ k, k < w.bytes → byteAt v k = s.mem.readByte (ea.toNat + k)) ∧
    (memSize < ea.toNat + w.bytes → s.loadData w ea = .error (.dataBounds ea w.bytes s.pc))

/-- 20_memory.md R61: a data write stores its bytes and nothing else, or faults and writes no byte. The
canonical form of memory, assumed before and claimed after, is the model's own (log entry 8). -/
def Obligations.MemWriteRule : Prop :=
  ∀ (s : State) (w : Width) (ea : DWord) (v : BitVec w.bits), s.Inv →
    (ea.toNat + w.bytes ≤ memSize → ∃ t, s.storeData w ea v = .ok t ∧
      (∀ b, t.mem.readByte b =
        if ea.toNat ≤ b ∧ b < ea.toNat + w.bytes then byteAt v (b - ea.toNat)
        else s.mem.readByte b) ∧
      t.regs = s.regs ∧ t.flags = s.flags ∧ t.pc = s.pc ∧ t.run = s.run ∧ t.Inv) ∧
    (memSize < ea.toNat + w.bytes → s.storeData w ea v = .error (.dataBounds ea w.bytes s.pc))

/-- 20_memory.md R65: after an 8-byte write, the 4-byte reads at its two halves, and the fetch of
either half, see its bytes. The spec marks R65 as derived. -/
def Obligations.MixedWidthAccessesSeeBytes : Prop :=
  ∀ (s t : State) (ea : DWord) (v : BitVec 64), s.Inv → s.storeData .w64 ea v = .ok t →
    t.loadData .w32 ea = .ok (v.extractLsb' 0 32) ∧
    t.loadData .w32 (ea + 4#64) = .ok (v.extractLsb' 32 32) ∧
    fetchWord false (t.setPc ea) = .ok (v.extractLsb' 0 32) ∧
    fetchWord false (t.setPc (ea + 4#64)) = .ok (v.extractLsb' 32 32)

/-- 20_memory.md R75, 70_reset_and_hazards.md R421: a store over the instruction right after it is seen
by the very next fetch. The spec marks both rules as derived. -/
def Obligations.NextFetchSeesTheStore : Prop :=
  ∀ (w : Width) (rn rt : RegIdx) (s t : State), s.Inv →
    (∀ imm12 : BitVec 12, effAddr s w (.unsignedOffset imm12) rn = s.pc + 4#64 →
      exec (.strUoff w imm12 rn rt) s = .next t →
        fetchWord false t = .ok ((s.x rt).extractLsb' 0 32)) ∧
    (∀ rm : RegIdx, effAddr s w (.regOffset rm) rn = s.pc + 4#64 →
      exec (.strReg w rm rn rt) s = .next t →
        fetchWord false t = .ok ((s.x rt).extractLsb' 0 32)) ∧
    (∀ simm9 : BitVec 9, effAddr s w (.postIndex simm9) rn = s.pc + 4#64 →
      exec (.strPost w simm9 rn rt) s = .next t →
        fetchWord false t = .ok ((s.x rt).extractLsb' 0 32)) ∧
    (∀ simm9 : BitVec 9, effAddr s w (.preIndex simm9) rn = s.pc + 4#64 →
      exec (.strPre w simm9 rn rt) s = .next t →
        fetchWord false t =
          .ok ((if rt = rn ∧ rn ≠ zr then s.pc + 4#64 else s.x rt).extractLsb' 0 32))

/-! ## Branches and the terminate word -/

/-- 44_branch.md R340, R342: B completes with the PC at its target, BR with the register as the PC,
index 31 giving address 0. Nothing else changes. -/
def Obligations.UnconditionalBranchResults : Prop :=
  (∀ (simm26 : BitVec 26) (s : State),
    exec (.b simm26) s = .next (s.setPc (branchTarget s simm26.toInt))) ∧
  (∀ (rn : RegIdx) (s : State), rn ≠ zr → exec (.br rn) s = .next (s.setPc (s.x rn))) ∧
  (∀ s : State, exec (.br zr) s = .next (s.setPc 0#64))

/-- 44_branch.md R341: B.cond completes, taken or not, changing the PC alone. -/
def Obligations.ConditionalBranchResult : Prop :=
  ∀ (simm19 : BitVec 19) (cond : Cond) (s : State),
    (condHolds cond s.flags = true →
      exec (.bCond simm19 cond) s = .next (s.setPc (branchTarget s simm19.toInt))) ∧
    (condHolds cond s.flags = false → exec (.bCond simm19 cond) s = .next (s.setPc (s.pc + 4#64)))

/-- 44_branch.md R341 with 40_execution_cycle.md R178: the seven spellings of B.cond complete, each on
its own flag test. -/
def Obligations.ConditionalBranchSpellings : Prop :=
  ∀ (simm19 : BitVec 19) (s : State) (taken following : State),
    taken = s.setPc (branchTarget s simm19.toInt) → following = s.setPc (s.pc + 4#64) →
    exec (.bEq simm19) s = .next (if s.flags.z then taken else following) ∧
    exec (.bNe simm19) s = .next (if s.flags.z then following else taken) ∧
    exec (.bGe simm19) s = .next (if s.flags.n = s.flags.v then taken else following) ∧
    exec (.bLt simm19) s = .next (if s.flags.n = s.flags.v then following else taken) ∧
    exec (.bGt simm19) s =
      .next (if s.flags.z = false ∧ s.flags.n = s.flags.v then taken else following) ∧
    exec (.bLe simm19) s =
      .next (if s.flags.z = true ∨ s.flags.n ≠ s.flags.v then taken else following) ∧
    exec (.bAl simm19) s = .next taken

/-- 40_execution_cycle.md R165: HALT completes, changing the run state alone. -/
def Obligations.HaltResult : Prop :=
  ∀ s : State, ∃ t, exec .halt s = .next t ∧ t.run = .halted ∧ t.regs = s.regs ∧
    t.flags = s.flags ∧ t.pc = s.pc ∧ t.mem = s.mem

/-! ## The step -/

/-- 40_execution_cycle.md R162: a running machine whose four bytes at the PC decode to an instruction
runs exactly that instruction. The model's step adds nothing around exec: the advance or the redirect
of the PC is the end of the instruction's meaning. -/
def Obligations.StepRunsTheDecodedInstruction : Prop :=
  ∀ (s : State) (i : Instr), s.run = .running → s.pc.toNat + 4 ≤ memSize →
    decodeBytes [s.mem.readByte s.pc.toNat, s.mem.readByte (s.pc.toNat + 1),
      s.mem.readByte (s.pc.toNat + 2), s.mem.readByte (s.pc.toNat + 3)] = .ok i →
    step s = exec i s

/-- 60_exceptions.md R376: the fetch bounds come first, then the decode fault with the word and the
PC, and after decode only a data access out of bounds faults. -/
def Obligations.FaultOrderOfAStep : Prop :=
  ∀ s : State, s.run = .running →
    (memSize < s.pc.toNat + 4 → step s = .fault (.fetchBounds s.pc)) ∧
    (s.pc.toNat + 4 ≤ memSize →
      (decode s.nextWord = .error .category →
        step s = .fault (.decodeCategory s.nextWord s.pc)) ∧
      (decode s.nextWord = .error .condition →
        step s = .fault (.decodeCondition s.nextWord s.pc)) ∧
      (decode s.nextWord = .error .illegalShift →
        step s = .fault (.decodeIllegalShift s.nextWord s.pc)) ∧
      (decode s.nextWord = .error .unallocated →
        step s = .fault (.decodeUnallocated s.nextWord s.pc)) ∧
      (∀ i f, decode s.nextWord = .ok i → step s = .fault f →
        i.isTransfer = true ∧
          ∃ ea n, f = .dataBounds ea n s.pc ∧ memSize < ea.toNat + n))

/-- 40_execution_cycle.md R161 says that no step exists from Halted or Failed. That the step function
answers a refusal there, and nowhere else, is the model's own (log entry 2). -/
def Obligations.StepsExistExactlyWhileRunning : Prop :=
  ∀ s : State, (∃ r, step s = .refused r) ↔ s.run ≠ .running

/-- 20_memory.md R68: without `FETCH_ALIGN_FAULT`, which is this hardware, an unaligned fetch reads its
four bytes like any other; with it, such a fetch faults; only BR can unalign the PC.
That this hardware is without it is the spec's decision D9. -/
def Obligations.FetchAlignmentRule : Prop :=
  (∀ s : State, step s = stepWith false s) ∧
  (∀ s : State, s.pc.toNat + 4 ≤ memSize → ∃ v, fetchWord false s = .ok v ∧
    ∀ k, k < 4 → byteAt v k = s.mem.readByte (s.pc.toNat + k)) ∧
  (∀ s : State, s.run = .running → s.pcAligned = false →
    stepWith true s = .fault (.fetchAlign s.pc)) ∧
  (∀ s : State, s.pcAligned = true → stepWith true s = stepWith false s) ∧
  (∀ (i : Instr) (s t : State), s.pcAligned = true → exec i s = .next t →
    (∀ rn, i ≠ .br rn) → t.pcAligned = true)

/-- The memory's canonical form, which is the invariant `State.Inv`, holds after every step that
answers a next state. The canonical form is the model's own (log entry 8). -/
def Obligations.EveryStepKeepsTheInvariant : Prop :=
  ∀ s t : State, s.Inv → step s = .next t → t.Inv

/-- The invariant `State.Inv` holds right after reset. The canonical form is the model's
own (log entry 8). -/
def Obligations.ResetMeetsTheInvariant : Prop :=
  State.reset.Inv

/-- 70_reset_and_hazards.md R400: the value of every piece of state after reset. -/
def Obligations.ResetValues : Prop :=
  (∀ i : RegIdx, State.reset.x i = 0#64) ∧ State.reset.flags.nzcv = 0b0100#4 ∧
  State.reset.pc = 0#64 ∧ (∀ a, State.reset.mem.readByte a = 0#8) ∧ State.reset.run = .running

/-- 10_state.md R36: an instruction that is no flag writer leaves all four flags. -/
def Obligations.OnlyFlagWritersChangeFlags : Prop :=
  ∀ (i : Instr) (s t : State), exec i s = .next t → i.writesFlags = false → t.flags = s.flags

/-- 43_load_store.md: an instruction that is no STR leaves every byte of memory. -/
def Obligations.OnlyStoresChangeMemory : Prop :=
  ∀ (i : Instr) (s t : State), exec i s = .next t → i.isStore = false → MemoryKept s t

/-- 60_exceptions.md R372, R373: no instruction but LDR and STR faults after decode, none is refused,
and a fault of theirs is `DATA_BOUNDS` with the PC of the instruction.
The spec marks both rules as derived. -/
def Obligations.OnlyTransfersFaultAfterDecode : Prop :=
  ∀ (i : Instr) (s : State),
    (∀ f, exec i s = .fault f → i.isTransfer = true ∧ ∃ ea n, f = .dataBounds ea n s.pc) ∧
    (∀ r, exec i s ≠ .refused r)

/-- 40_execution_cycle.md R165, 10_state.md R39: a step halts exactly at the terminate word, and
writes nothing else. -/
def Obligations.StepHaltsExactlyAtTheTerminateWord : Prop :=
  ∀ s t : State, step s = .next t →
    (t.run = .halted ↔ s.nextWord = terminateWord) ∧
    (s.nextWord = terminateWord → t = { s with run := .halted }) ∧
    (s.nextWord ≠ terminateWord → t.run = .running)

/-! ## Runs, reset and the report -/

/-- 70_reset_and_hazards.md R401: loading an image, and refusing one longer than the memory. The
spec decides so in D24. That the loaded memory is in canonical form (`Inv`) is the model's own clause
(log entry 8). -/
def Obligations.ImageLoadRule : Prop :=
  ∀ image : List Byte,
    (image.length ≤ memSize → ∃ s, loadImage image = some s ∧
      (∀ a, s.mem.readByte a = (image[a]?).getD 0#8) ∧ (∀ i, s.x i = 0#64) ∧
      s.flags.nzcv = 0b0100#4 ∧ s.pc = 0#64 ∧ s.run = .running ∧ s.Inv) ∧
    (memSize < image.length → loadImage image = none)

/-- 30_encoding.md R144, 70_reset_and_hazards.md R401: the image of assembled words, once loaded, is
read back word by word. -/
def Obligations.LoadedImageHoldsItsWords : Prop :=
  ∀ (vs : List Word) (s : State), loadImage (imageOf vs) = some s →
    ∀ k v, vs[k]? = some v → s.mem.read (4 * k) .w32 = v

/-- 70_reset_and_hazards.md R410, R411: the registers, PC and flag mask of the report, and its memory
list: exactly the non-zero aligned words, in ascending order. -/
def Obligations.ReportContents : Prop :=
  ∀ s : State,
    (∀ i : RegIdx, i ≠ zr → (report s).regs[i.toNat]? = some (s.x i)) ∧ (report s).pc = s.pc ∧
    (report s).flags =
      [if s.flags.n then 'N' else '-', if s.flags.z then 'Z' else '-',
       if s.flags.c then 'C' else '-', if s.flags.v then 'V' else '-'] ∧
    (∀ a v, (a, v) ∈ (report s).mem ↔
      a % 4 = 0 ∧ a + 4 ≤ memSize ∧ s.mem.read a .w32 = v ∧ v ≠ 0#32) ∧
    (report s).mem.Pairwise (fun p q => p.1 < q.1)

/-- 40_execution_cycle.md R163, R167: at the word `b .` a step changes nothing, however many steps are
taken, and the run shows neither a halt nor a fault. -/
def Obligations.BranchToItselfHangs : Prop :=
  ∀ s : State, s.run = .running → s.pc.toNat + 4 ≤ memSize → s.nextWord = 0x14000000#32 →
    ∀ k, runFor k s = .next s ∧ observe (runFor k s) = .unfinished

/-- 10_state.md R40, 40_execution_cycle.md R167: a run that halted or faulted stays as it is with any
more steps allowed, and a run from a running state is never refused. -/
def Obligations.EndedRunsStayEnded : Prop :=
  ∀ (s : State) (k n : Nat), s.run = .running →
    (∀ t, runFor k s = .next t → t.run = .halted → runFor (k + n) s = .next t) ∧
    (∀ f, runFor k s = .fault f → runFor (k + n) s = .fault f) ∧
    (∀ r, runFor k s ≠ .refused r)

/-! ## The assembler's encoder -/

/-- 30_encoding.md R145: what an assembler instruction encodes to, aliases included, decodes to the
well-formed canonical instruction the encoder chose for it. Which one that is, the statements
AssembledTargetsAreReached, AssembledOffsetsAddressTheirBytes and
AssembledLinesAreTheInstructionsTheySpell say. -/
def Obligations.AssembledWordsDecodeBack : Prop :=
  ∀ (a : AsmInstr) (addr : BitVec 32) (v : Word), encodeAsm a addr = .ok v →
    ∃ i, assembleInstr a addr = .ok i ∧ i.wf = true ∧ i.isCanonical = true ∧ decode v = .ok i

/-- 44_branch.md R350 to R352, 43_load_store.md R309 to R311: a label target is encoded exactly when
its offset is aligned and in range, and the encoded instruction, at its own address, reaches it. The
literal range, R310, is the spec's own inference (derived, D37). -/
def Obligations.AssembledTargetsAreReached : Prop :=
  ∀ (target addr : BitVec 32) (offset : Int) (s : State), target ≠ 0xFFFFFFFF#32 →
    offset = (target.toNat : Int) - addr.toNat → s.pc = addr.setWidth 64 →
    (offset % 4 = 0 ∧ -2 ^ 27 ≤ offset ∧ offset ≤ 2 ^ 27 - 4 →
      ∃ i, assembleInstr ⟨.b, [.label target]⟩ addr = .ok i ∧
        exec i s = .next (s.setPc (target.setWidth 64))) ∧
    (¬(offset % 4 = 0 ∧ -2 ^ 27 ≤ offset ∧ offset ≤ 2 ^ 27 - 4) →
      assembleInstr ⟨.b, [.label target]⟩ addr = .error .eRange) ∧
    (∀ cond, condHolds cond s.flags = true →
      offset % 4 = 0 ∧ -2 ^ 20 ≤ offset ∧ offset ≤ 2 ^ 20 - 4 →
      ∃ i, assembleInstr ⟨.bCond cond, [.label target]⟩ addr = .ok i ∧
        exec i s = .next (s.setPc (target.setWidth 64))) ∧
    (∀ cond, ¬(offset % 4 = 0 ∧ -2 ^ 20 ≤ offset ∧ offset ≤ 2 ^ 20 - 4) →
      assembleInstr ⟨.bCond cond, [.label target]⟩ addr = .error .eRange) ∧
    (∀ w rt, offset % 4 = 0 ∧ -2 ^ 20 ≤ offset ∧ offset ≤ 2 ^ 20 - 4 →
      ∃ simm19, assembleInstr ⟨.ldr, [.reg w rt, .label target]⟩ addr = .ok (.ldrLit w simm19 rt) ∧
        pcRelative s simm19 = target.setWidth 64) ∧
    (∀ w rt, ¬(offset % 4 = 0 ∧ -2 ^ 20 ≤ offset ∧ offset ≤ 2 ^ 20 - 4) →
      assembleInstr ⟨.ldr, [.reg w rt, .label target]⟩ addr = .error .eRange)

/-- 43_load_store.md R303 to R306: a byte offset is encoded exactly when its field holds it, in each of
the six forms that take one, and the encoded form addresses, and writes back, base plus that offset. -/
def Obligations.AssembledOffsetsAddressTheirBytes : Prop :=
  ∀ (w : Width) (rn rt : RegIdx) (offset : Int) (addr : BitVec 32) (s : State),
    (offset % w.bytes = 0 ∧ 0 ≤ offset ∧ offset ≤ 4095 * w.bytes →
      ∃ imm12, assembleInstr ⟨.ldr, [.reg w rt, .offset .w64 rn offset]⟩ addr
          = .ok (.ldrUoff w imm12 rn rt) ∧
        assembleInstr ⟨.str, [.reg w rt, .offset .w64 rn offset]⟩ addr
          = .ok (.strUoff w imm12 rn rt) ∧
        effAddr s w (.unsignedOffset imm12) rn = BitVec.ofInt 64 ((s.x rn).toNat + offset)) ∧
    (¬(offset % w.bytes = 0 ∧ 0 ≤ offset ∧ offset ≤ 4095 * w.bytes) →
      assembleInstr ⟨.ldr, [.reg w rt, .offset .w64 rn offset]⟩ addr = .error .eRange ∧
      assembleInstr ⟨.str, [.reg w rt, .offset .w64 rn offset]⟩ addr = .error .eRange) ∧
    (-256 ≤ offset ∧ offset ≤ 255 →
      ∃ simm9, simm9.toInt = offset ∧
        assembleInstr ⟨.ldr, [.reg w rt, .preIndex .w64 rn offset]⟩ addr
          = .ok (.ldrPre w simm9 rn rt) ∧
        assembleInstr ⟨.str, [.reg w rt, .preIndex .w64 rn offset]⟩ addr
          = .ok (.strPre w simm9 rn rt) ∧
        assembleInstr ⟨.ldr, [.reg w rt, .postIndex .w64 rn offset]⟩ addr
          = .ok (.ldrPost w simm9 rn rt) ∧
        assembleInstr ⟨.str, [.reg w rt, .postIndex .w64 rn offset]⟩ addr
          = .ok (.strPost w simm9 rn rt) ∧
        effAddr s w (.preIndex simm9) rn = BitVec.ofInt 64 ((s.x rn).toNat + offset) ∧
        effAddr s w (.postIndex simm9) rn = s.x rn ∧
        (∀ t, rn ≠ zr → (writebackAfter s t (.postIndex simm9) rn).x rn =
          BitVec.ofInt 64 ((s.x rn).toNat + offset))) ∧
    (¬(-256 ≤ offset ∧ offset ≤ 255) →
      assembleInstr ⟨.ldr, [.reg w rt, .preIndex .w64 rn offset]⟩ addr = .error .eRange ∧
      assembleInstr ⟨.str, [.reg w rt, .preIndex .w64 rn offset]⟩ addr = .error .eRange ∧
      assembleInstr ⟨.ldr, [.reg w rt, .postIndex .w64 rn offset]⟩ addr = .error .eRange ∧
      assembleInstr ⟨.str, [.reg w rt, .postIndex .w64 rn offset]⟩ addr = .error .eRange)

/-- 41_dp_immediate.md R220 to R223, 42_dp_register.md R270 to R275, 30_encoding.md R135: the
instruction each data-processing line spells, canonical or alias, with the limits of its immediate or
amount; 43_load_store.md R307 and 44_branch.md R353: the same for the register offset and BR;
30_encoding.md R142, R143: operands of a wrong width, and words that are no mnemonic, are refused.
That such a word is `E_SYNTAX` also where its operands hold another error is the model's own order
(log entry 10). -/
def Obligations.AssembledLinesAreTheInstructionsTheySpell : Prop :=
  ∀ (w : Width) (a b c d : RegIdx) (addr : BitVec 32),
    (AssemblesArithImm .add [.reg w a, .reg w b] addr (fun sh n => .addImm w sh n b a) ∧
      AssemblesArithImm .adds [.reg w a, .reg w b] addr (fun sh n => .addsImm w sh n b a) ∧
      AssemblesArithImm .sub [.reg w a, .reg w b] addr (fun sh n => .subImm w sh n b a) ∧
      AssemblesArithImm .subs [.reg w a, .reg w b] addr (fun sh n => .subsImm w sh n b a) ∧
      AssemblesArithImm .cmp [.reg w a] addr (fun sh n => .subsImm w sh n a zr) ∧
      AssemblesArithImm .cmn [.reg w a] addr (fun sh n => .addsImm w sh n a zr) ∧
      AssemblesArithImm .neg [.reg w a] addr (fun sh n => .subImm w sh n zr a) ∧
      AssemblesArithImm .negs [.reg w a] addr (fun sh n => .subsImm w sh n zr a)) ∧
    (AssemblesWideMove .movn w a addr (fun hw n => .movn w hw n a) ∧
      AssemblesWideMove .movz w a addr (fun hw n => .movz w hw n a) ∧
      AssemblesWideMove .movk w a addr (fun hw n => .movk w hw n a)) ∧
    (∀ k, k ≠ ShiftKind.ror →
      AssemblesShifted w k c addr .add [.reg w a, .reg w b] (fun n => .addReg w k c n b a) ∧
      AssemblesShifted w k c addr .adds [.reg w a, .reg w b] (fun n => .addsReg w k c n b a) ∧
      AssemblesShifted w k c addr .sub [.reg w a, .reg w b] (fun n => .subReg w k c n b a) ∧
      AssemblesShifted w k c addr .subs [.reg w a, .reg w b] (fun n => .subsReg w k c n b a) ∧
      AssemblesShifted w k c addr .cmp [.reg w a] (fun n => .subsReg w k c n a zr) ∧
      AssemblesShifted w k c addr .cmn [.reg w a] (fun n => .addsReg w k c n a zr) ∧
      AssemblesShifted w k c addr .neg [.reg w a] (fun n => .subReg w k c n zr a) ∧
      AssemblesShifted w k c addr .negs [.reg w a] (fun n => .subsReg w k c n zr a)) ∧
    (∀ k,
      AssemblesShifted w k c addr .and [.reg w a, .reg w b]
        (fun n => if spellsTerminate w k c n b a then .halt else .andReg w k c n b a) ∧
      AssemblesShifted w k c addr .bic [.reg w a, .reg w b] (fun n => .bicReg w k c n b a) ∧
      AssemblesShifted w k c addr .orr [.reg w a, .reg w b] (fun n => .orrReg w k c n b a) ∧
      AssemblesShifted w k c addr .orn [.reg w a, .reg w b] (fun n => .ornReg w k c n b a) ∧
      AssemblesShifted w k c addr .eor [.reg w a, .reg w b] (fun n => .eorReg w k c n b a) ∧
      AssemblesShifted w k c addr .eon [.reg w a, .reg w b] (fun n => .eonReg w k c n b a) ∧
      AssemblesShifted w k c addr .ands [.reg w a, .reg w b] (fun n => .andsReg w k c n b a) ∧
      AssemblesShifted w k c addr .bics [.reg w a, .reg w b] (fun n => .bicsReg w k c n b a) ∧
      AssemblesShifted w k c addr .tst [.reg w a] (fun n => .andsReg w k c n a zr) ∧
      AssemblesShifted w k c addr .mvn [.reg w a] (fun n => .ornReg w k c n zr a)) ∧
    (∀ amount : Int, 0 ≤ amount → amount < w.bits →
      (∀ m ∈ [Mnemonic.add, .adds, .sub, .subs],
        assembleInstr ⟨m, [.reg w a, .reg w b, .reg w c, .shift .ror amount]⟩ addr
          = .error .eSyntax) ∧
      (∀ m ∈ [Mnemonic.cmp, .cmn, .neg, .negs],
        assembleInstr ⟨m, [.reg w a, .reg w c, .shift .ror amount]⟩ addr = .error .eSyntax)) ∧
    (assembleInstr ⟨.madd, [.reg w a, .reg w b, .reg w c, .reg w d]⟩ addr
        = .ok (.madd w c d b a) ∧
      assembleInstr ⟨.msub, [.reg w a, .reg w b, .reg w c, .reg w d]⟩ addr
        = .ok (.msub w c d b a) ∧
      assembleInstr ⟨.mul, [.reg w a, .reg w b, .reg w c]⟩ addr = .ok (.madd w c zr b a) ∧
      assembleInstr ⟨.mneg, [.reg w a, .reg w b, .reg w c]⟩ addr = .ok (.msub w c zr b a) ∧
      assembleInstr ⟨.mov, [.reg w a, .reg w b]⟩ addr = .ok (.orrReg w .lsl b 0#6 zr a)) ∧
    (∀ w', w' ≠ w → RefusesOtherWidths w w' a b c d addr) ∧
    Refuses32BitAddresses w a b c addr ∧
    (∀ text ops, text ∉ mnemonicTable.map Prod.fst →
      assembleInstr ⟨mnemonicOfText text, ops⟩ addr = .error .eSyntax) ∧
    (assembleInstr ⟨.ldr, [.reg w a, .regOffset .w64 b .w64 c]⟩ addr = .ok (.ldrReg w c b a) ∧
      assembleInstr ⟨.str, [.reg w a, .regOffset .w64 b .w64 c]⟩ addr = .ok (.strReg w c b a) ∧
      assembleInstr ⟨.br, [.reg .w64 a]⟩ addr = .ok (.br a))

end
end

