-- ==== Sys2Proof/Laws/Assembler.lean ====
section
/-! SUPPORT. One lemma for each shared operation of the assembler's encoder: what it answers, and
when. -/

namespace Sys2Proof.Machine

/-- A suffix is a kind and an amount exactly where it is absent (`lsl #0`) or one shift
(42_dp_register.md R270). -/
theorem shiftSuffix_ok_iff (ops : List Operand) (k : ShiftKind) (amount : Int) :
    shiftSuffix ops = .ok (k, amount) ↔
      (ops = [] ∧ k = .lsl ∧ amount = 0) ∨ ops = [.shift k amount] := by
  unfold shiftSuffix
  split <;> simp_all [eq_comm]

/-- A byte offset of -256 to 255 keeps its value in the 9-bit field (43_load_store.md R305). -/
theorem simm9Field_of_fits {v : Int} (h : -256 ≤ v ∧ v ≤ 255) :
    ∃ simm9 : BitVec 9, simm9Field v = .ok simm9 ∧ simm9.toInt = v :=
  ⟨_, if_pos h, by rw [BitVec.toInt_ofInt, Int.bmod_eq_of_le] <;> omega⟩

/-- Any other byte offset is `E_RANGE` (43_load_store.md R305). -/
theorem simm9Field_of_not_fits {v : Int} (h : ¬(-256 ≤ v ∧ v ≤ 255)) :
    simm9Field v = .error .eRange :=
  if_neg h

/-- An unsigned integer below `2^n` keeps its value in a field of `n` bits. -/
theorem toNat_ofInt_of_fits {n : Nat} {v : Int} (h0 : 0 ≤ v) (h : v < 2 ^ n) :
    ((BitVec.ofInt n v).toNat : Int) = v := by
  rw [BitVec.toNat_ofInt, Int.emod_eq_of_lt h0 (by exact_mod_cast h), Int.toNat_of_nonneg h0]

/-- A signed integer of `n` bits keeps its value in a field of `n` bits. -/
theorem toInt_ofInt_of_fits {n : Nat} {v : Int} (hn : 0 < n) (h0 : -2 ^ (n - 1) ≤ v)
    (h : v ≤ 2 ^ (n - 1) - 1) : (BitVec.ofInt n v).toInt = v := by
  obtain ⟨m, rfl⟩ : ∃ m, n = m + 1 := ⟨n - 1, by omega⟩
  rw [Nat.add_sub_cancel] at h0 h
  have hp : ((2 ^ (m + 1) : Nat) : Int) = 2 * 2 ^ m := by push_cast; rw [pow_succ]; omega
  rw [BitVec.toInt_ofInt, Int.bmod_eq_of_le] <;> rw [hp] <;> omega

/-- A PC-relative field is encoded exactly where the offset is a multiple of 4 that the field holds,
and then holds the offset in instruction units (44_branch.md R350 to R352; 43_load_store.md R309 to
R311). -/
theorem offsetField_ok_iff {n : Nat} (hn : 0 < n) (target : Int) (addr : BitVec 32)
    (v : BitVec n) :
    offsetField n target addr = .ok v ↔ v.toInt * 4 = target - addr.toNat := by
  have hlo := BitVec.le_toInt v
  have hhi := BitVec.toInt_lt (x := v)
  unfold offsetField
  simp only
  split
  · rename_i h
    have hv := toInt_ofInt_of_fits hn h.2.1 h.2.2
    rw [Except.ok.injEq]
    constructor
    · rintro rfl
      omega
    · intro e
      apply BitVec.eq_of_toInt_eq
      omega
  · rename_i h
    simp only [reduceCtorEq, false_iff]
    intro e
    exact h ⟨by omega, by omega, by omega⟩

/-! ## Which encoder takes each mnemonic (30_encoding.md R135, R140) -/

theorem assembleInstr_add (ops : List Operand) (addr : BitVec 32) :
    assembleInstr ⟨.add, ops⟩ addr = assembleArith .addImm .addReg ops := rfl

theorem assembleInstr_adds (ops : List Operand) (addr : BitVec 32) :
    assembleInstr ⟨.adds, ops⟩ addr = assembleArith .addsImm .addsReg ops := rfl

theorem assembleInstr_sub (ops : List Operand) (addr : BitVec 32) :
    assembleInstr ⟨.sub, ops⟩ addr = assembleArith .subImm .subReg ops := rfl

theorem assembleInstr_subs (ops : List Operand) (addr : BitVec 32) :
    assembleInstr ⟨.subs, ops⟩ addr = assembleArith .subsImm .subsReg ops := rfl

theorem assembleInstr_and (ops : List Operand) (addr : BitVec 32) :
    assembleInstr ⟨.and, ops⟩ addr = assembleLogic andOrHalt ops := rfl

theorem assembleInstr_bic (ops : List Operand) (addr : BitVec 32) :
    assembleInstr ⟨.bic, ops⟩ addr = assembleLogic .bicReg ops := rfl

theorem assembleInstr_orr (ops : List Operand) (addr : BitVec 32) :
    assembleInstr ⟨.orr, ops⟩ addr = assembleLogic .orrReg ops := rfl

theorem assembleInstr_orn (ops : List Operand) (addr : BitVec 32) :
    assembleInstr ⟨.orn, ops⟩ addr = assembleLogic .ornReg ops := rfl

theorem assembleInstr_eor (ops : List Operand) (addr : BitVec 32) :
    assembleInstr ⟨.eor, ops⟩ addr = assembleLogic .eorReg ops := rfl

theorem assembleInstr_eon (ops : List Operand) (addr : BitVec 32) :
    assembleInstr ⟨.eon, ops⟩ addr = assembleLogic .eonReg ops := rfl

theorem assembleInstr_ands (ops : List Operand) (addr : BitVec 32) :
    assembleInstr ⟨.ands, ops⟩ addr = assembleLogic .andsReg ops := rfl

theorem assembleInstr_bics (ops : List Operand) (addr : BitVec 32) :
    assembleInstr ⟨.bics, ops⟩ addr = assembleLogic .bicsReg ops := rfl

theorem assembleInstr_movn (ops : List Operand) (addr : BitVec 32) :
    assembleInstr ⟨.movn, ops⟩ addr = assembleWideMove .movn ops := rfl

theorem assembleInstr_movz (ops : List Operand) (addr : BitVec 32) :
    assembleInstr ⟨.movz, ops⟩ addr = assembleWideMove .movz ops := rfl

theorem assembleInstr_movk (ops : List Operand) (addr : BitVec 32) :
    assembleInstr ⟨.movk, ops⟩ addr = assembleWideMove .movk ops := rfl

theorem assembleInstr_madd (ops : List Operand) (addr : BitVec 32) :
    assembleInstr ⟨.madd, ops⟩ addr = assembleMultiply .madd ops := rfl

theorem assembleInstr_msub (ops : List Operand) (addr : BitVec 32) :
    assembleInstr ⟨.msub, ops⟩ addr = assembleMultiply .msub ops := rfl

theorem assembleInstr_cmp (w : Width) (i : RegIdx) (rest : List Operand) (addr : BitVec 32) :
    assembleInstr ⟨.cmp, .reg w i :: rest⟩ addr =
      assembleArith .subsImm .subsReg (.reg w zr :: .reg w i :: rest) := rfl

theorem assembleInstr_cmn (w : Width) (i : RegIdx) (rest : List Operand) (addr : BitVec 32) :
    assembleInstr ⟨.cmn, .reg w i :: rest⟩ addr =
      assembleArith .addsImm .addsReg (.reg w zr :: .reg w i :: rest) := rfl

theorem assembleInstr_neg (w : Width) (i : RegIdx) (rest : List Operand) (addr : BitVec 32) :
    assembleInstr ⟨.neg, .reg w i :: rest⟩ addr =
      assembleArith .subImm .subReg (.reg w i :: .reg w zr :: rest) := rfl

theorem assembleInstr_negs (w : Width) (i : RegIdx) (rest : List Operand) (addr : BitVec 32) :
    assembleInstr ⟨.negs, .reg w i :: rest⟩ addr =
      assembleArith .subsImm .subsReg (.reg w i :: .reg w zr :: rest) := rfl

theorem assembleInstr_tst (w : Width) (i : RegIdx) (rest : List Operand) (addr : BitVec 32) :
    assembleInstr ⟨.tst, .reg w i :: rest⟩ addr =
      assembleLogic .andsReg (.reg w zr :: .reg w i :: rest) := rfl

theorem assembleInstr_mvn (w : Width) (i : RegIdx) (rest : List Operand) (addr : BitVec 32) :
    assembleInstr ⟨.mvn, .reg w i :: rest⟩ addr =
      assembleLogic .ornReg (.reg w i :: .reg w zr :: rest) := rfl

theorem assembleInstr_mov (w : Width) (rd : RegIdx) (rm : Operand) (addr : BitVec 32) :
    assembleInstr ⟨.mov, [.reg w rd, rm]⟩ addr =
      assembleLogic .orrReg [.reg w rd, .reg w zr, rm] := rfl

theorem assembleInstr_mul (w : Width) (rd : RegIdx) (rn rm : Operand) (addr : BitVec 32) :
    assembleInstr ⟨.mul, [.reg w rd, rn, rm]⟩ addr = 
      assembleMultiply .madd [.reg w rd, rn, rm, .reg w zr] := rfl

theorem assembleInstr_mneg (w : Width) (rd : RegIdx) (rn rm : Operand) (addr : BitVec 32) :
    assembleInstr ⟨.mneg, [.reg w rd, rn, rm]⟩ addr = 
      assembleMultiply .msub [.reg w rd, rn, rm, .reg w zr] := rfl

theorem assembleInstr_b (ops : List Operand) (addr : BitVec 32) :
    assembleInstr ⟨.b, ops⟩ addr = assembleBranch .b ops addr := rfl

theorem assembleInstr_bCond (cond : Cond) (ops : List Operand) (addr : BitVec 32) :
    assembleInstr ⟨.bCond cond, ops⟩ addr = assembleBranch (.bCond cond) ops addr := rfl

theorem assembleInstr_br (ops : List Operand) (addr : BitVec 32) :
    assembleInstr ⟨.br, ops⟩ addr = assembleBranch .br ops addr := rfl

theorem assembleInstr_ldr (ops : List Operand) (addr : BitVec 32) :
    assembleInstr ⟨.ldr, ops⟩ addr = assembleTransfer true ops addr := rfl

theorem assembleInstr_str (ops : List Operand) (addr : BitVec 32) :
    assembleInstr ⟨.str, ops⟩ addr = assembleTransfer false ops addr := rfl

theorem assembleInstr_unknown (text : String) (ops : List Operand) (addr : BitVec 32) :
    assembleInstr ⟨.unknown text, ops⟩ addr = .error .eSyntax := rfl

/-! ## The mnemonics' spellings (00_scope.md R3) -/

/-- Each of the 37 spellings is read as its mnemonic. -/
theorem mnemonicOfText_of_mem : ∀ e ∈ mnemonicTable, mnemonicOfText e.1 = e.2 := by decide

/-- Every other word is read as no mnemonic. -/
theorem mnemonicOfText_of_not_mem {text : String} (h : text ∉ mnemonicTable.map Prod.fst) :
    mnemonicOfText text = .unknown text := by
  have hn : mnemonicTable.find? (fun e => e.1 == text) = none := by
    rw [List.find?_eq_none]
    intro e he hb
    exact h (List.mem_map.2 ⟨e, he, eq_of_beq hb⟩)
  rw [mnemonicOfText, hn]

/-! ## The families' encoders on their shapes -/

/-- The immediate form of an arithmetic line (41_dp_immediate.md R220, R223, D29, D39). -/
theorem assembleArith_imm (immForm : Width → Bool → BitVec 12 → RegIdx → RegIdx → Instr)
    (regForm : Width → ShiftKind → RegIdx → BitVec 6 → RegIdx → RegIdx → Instr) (w w1 : Width)
    (rd rn : RegIdx) {v s : Int} {k : ShiftKind} {rest : List Operand}
    (h : shiftSuffix rest = .ok (k, s)) :
    assembleArith immForm regForm (.reg w rd :: .reg w1 rn :: .imm v :: rest) =
      if w1 ≠ w ∨ arithShiftAllowed k = false then .error .eSyntax
      else if k = .lsl ∧ 0 ≤ v ∧ v ≤ 0xFFF ∧ (s = 0 ∨ s = 12) then
        .ok (immForm w (decide (s = 12)) (BitVec.ofInt 12 v) rn rd)
      else .error .eRange := by
  simp only [assembleArith, h]

/-- The register form of an arithmetic line (42_dp_register.md R270, R275). -/
theorem assembleArith_reg (immForm : Width → Bool → BitVec 12 → RegIdx → RegIdx → Instr)
    (regForm : Width → ShiftKind → RegIdx → BitVec 6 → RegIdx → RegIdx → Instr) (w w1 w2 : Width)
    (rd rn rm : RegIdx) {amount : Int} {k : ShiftKind} {rest : List Operand}
    (h : shiftSuffix rest = .ok (k, amount)) :
    assembleArith immForm regForm (.reg w rd :: .reg w1 rn :: .reg w2 rm :: rest) =
      if w1 ≠ w ∨ w2 ≠ w ∨ arithShiftAllowed k = false then .error .eSyntax
      else if 0 ≤ amount ∧ amount < w.bits then
        .ok (regForm w k rm (BitVec.ofInt 6 amount) rn rd)
      else .error .eRange := by
  simp only [assembleArith, h]

/-- A logical line (42_dp_register.md R271, R275). -/
theorem assembleLogic_reg
    (form : Width → ShiftKind → RegIdx → BitVec 6 → RegIdx → RegIdx → Instr) (w w1 w2 : Width)
    (rd rn rm : RegIdx) {amount : Int} {k : ShiftKind} {rest : List Operand}
    (h : shiftSuffix rest = .ok (k, amount)) :
    assembleLogic form (.reg w rd :: .reg w1 rn :: .reg w2 rm :: rest) =
      if w1 ≠ w ∨ w2 ≠ w then .error .eSyntax
      else if 0 ≤ amount ∧ amount < w.bits then .ok (form w k rm (BitVec.ofInt 6 amount) rn rd)
      else .error .eRange := by
  simp only [assembleLogic, h]

/-- A wide-move line (41_dp_immediate.md R221, D30). -/
theorem assembleWideMove_imm (form : Width → BitVec 2 → BitVec 16 → RegIdx → Instr) (w : Width)
    (rd : RegIdx) {v s : Int} {k : ShiftKind} {rest : List Operand}
    (h : shiftSuffix rest = .ok (k, s)) :
    assembleWideMove form (.reg w rd :: .imm v :: rest) =
      if k = .lsl ∧ 0 ≤ v ∧ v ≤ 0xFFFF ∧ s % 16 = 0 ∧ 0 ≤ s ∧ s < w.bits then
        .ok (form w (BitVec.ofInt 2 (s / 16)) (BitVec.ofInt 16 v) rd)
      else .error .eRange := by
  simp only [assembleWideMove, h]

/-! ## The exit status -/

/-- An assembly that gives words exits with 0, and a failed one nonzero, whatever the free value is
(70_reset_and_hazards.md R412). -/
theorem assemblyStatus_eq_zero_iff (r : Except EncodeError (List Word)) :
    assemblyStatus r = 0 ↔ ∃ vs, r = .ok vs := by
  cases r <;> simp [assemblyStatus]

end Sys2Proof.Machine
end

