-- ==== Sys2Proof/Laws/Encode.lean ====
section
/-! SUPPORT. The bits of the encoder's placed fields and of the decoder's slices. -/

namespace Sys2Proof

/-- A bit of a placed field. -/
theorem getLsbD_place (lo : Nat) {n : Nat} (v : BitVec n) (i : Nat) :
    (place lo v).getLsbD i = (decide (i < 32) && decide (lo ≤ i) && v.getLsbD (i - lo)) := by
  by_cases h : i < 32
  · by_cases h2 : i < lo
    · simp [place, h, h2, Nat.not_le.2 h2]
    · simp [place, h, h2, Nat.not_lt.1 h2]
  · simp [place, h]

/-- A bit of a slice (00_scope.md R8). -/
theorem getLsbD_slice (hi lo : Nat) {n : Nat} (v : BitVec n) (i : Nat) :
    (slice hi lo v).getLsbD i = (decide (i < hi - lo + 1) && v.getLsbD (lo + i)) := by
  simp [slice]

/-- A slice of a disjunction (00_scope.md R8). -/
theorem slice_or (hi lo : Nat) {n : Nat} (u v : BitVec n) :
    slice hi lo (u ||| v) = slice hi lo u ||| slice hi lo v := by
  refine BitVec.eq_of_getLsbD_eq fun i _ => ?_
  simp only [getLsbD_slice, BitVec.getLsbD_or, Bool.and_or_distrib_left]

/-- A slice of exactly a placed field is the field. -/
theorem slice_place_self {lo hi n : Nat} (v : BitVec n) (h : hi - lo + 1 = n) (hl : lo ≤ hi)
    (h32 : hi < 32) : slice hi lo (place lo v) = v.cast h.symm := by
  refine BitVec.eq_of_getLsbD_eq fun i hi' => ?_
  have : lo + i < 32 := by omega
  simp only [getLsbD_slice, getLsbD_place, BitVec.getLsbD_cast]
  simp [hi', this]

/-- A slice that a placed field does not reach is zero. -/
theorem slice_place_of_disjoint {lo hi l n : Nat} (v : BitVec n) (h : hi < l ∨ l + n ≤ lo)
    (hl : lo ≤ hi) : slice hi lo (place l v) = 0#(hi - lo + 1) := by
  refine BitVec.eq_of_getLsbD_eq fun i hi' => ?_
  simp only [getLsbD_slice, getLsbD_place, BitVec.getLsbD_zero]
  rcases h with h | h
  · have : ¬ l ≤ lo + i := by omega
    simp [this]
  · simp [BitVec.getLsbD_of_ge v (lo + i - l) (by omega)]

/-- A bit that a placed field does not reach is clear. -/
theorem getLsbD_place_of_disjoint {l n k : Nat} (v : BitVec n) (h : k < l ∨ l + n ≤ k) :
    (place l v).getLsbD k = false := by
  rw [getLsbD_place]
  rcases h with h | h
  · simp [Nat.not_le.2 h]
  · simp [BitVec.getLsbD_of_ge v (k - l) (by omega)]

/-- A bit of a placed field inside the word. -/
theorem getLsbD_place_of_le {l n k : Nat} (v : BitVec n) (h : l ≤ k) (h32 : k < 32) :
    (place l v).getLsbD k = v.getLsbD (k - l) := by
  rw [getLsbD_place, decide_eq_true h, decide_eq_true h32, Bool.and_self, Bool.true_and]

/-- A field under a mask that is clear in all of the field's places vanishes. -/
theorem place_and_eq_zero {lo n : Nat} (v : BitVec n) {mask : Word}
    (h : place lo (BitVec.allOnes n) &&& mask = 0#32) : place lo v &&& mask = 0#32 := by
  refine BitVec.eq_of_getLsbD_eq fun i hi => ?_
  have hb := congrArg (fun u => u.getLsbD i) h
  simp only [BitVec.getLsbD_and, getLsbD_place, BitVec.getLsbD_allOnes, BitVec.getLsbD_zero] at hb ⊢
  by_cases hn : i - lo < n
  · rw [decide_eq_true hn, Bool.and_true] at hb
    rw [Bool.and_right_comm, hb, Bool.false_and]
  · simp [BitVec.getLsbD_of_ge v _ (Nat.not_lt.1 hn)]

/-- A field a mask covers stays. -/
theorem place_and_eq_self {lo n : Nat} (v : BitVec n) {mask : Word}
    (h : place lo (BitVec.allOnes n) &&& mask = place lo (BitVec.allOnes n)) :
    place lo v &&& mask = place lo v := by
  refine BitVec.eq_of_getLsbD_eq fun i hi => ?_
  have hb := congrArg (fun u => u.getLsbD i) h
  simp only [BitVec.getLsbD_and, getLsbD_place, BitVec.getLsbD_allOnes] at hb ⊢
  by_cases hn : i - lo < n
  · rw [decide_eq_true hn, Bool.and_true] at hb
    rw [Bool.and_right_comm, hb]
  · simp [BitVec.getLsbD_of_ge v _ (Nat.not_lt.1 hn)]

/-- The bits of an inserted field (00_scope.md R9). -/
theorem getLsbD_insertField {hi lo n : Nat} (word value : BitVec n) (h : lo ≤ hi) (i : Nat)
    (hi' : hi < n) :
    (insertField hi lo word value).getLsbD i =
      if lo ≤ i ∧ i ≤ hi then value.getLsbD (i - lo) else word.getLsbD i := by
  have key : ∀ j, (BitVec.ofNat n (2 ^ (hi - lo + 1) - 1)).getLsbD j
      = (decide (j < n) && decide (j < hi - lo + 1)) := fun j => by
    rw [BitVec.getLsbD_ofNat, Nat.testBit_two_pow_sub_one]
  by_cases hin : i < n
  · by_cases h1 : lo ≤ i
    · by_cases h2 : i ≤ hi
      · have e : i - lo < hi - lo + 1 := by omega
        have e' : i - lo < n := by omega
        simp only [insertField, BitVec.getLsbD_or, BitVec.getLsbD_and, BitVec.getLsbD_not,
          BitVec.getLsbD_shiftLeft, key]
        simp [hin, h1, h2, e, e', Nat.not_lt.2 h1]
      · have e : ¬ i - lo < hi - lo + 1 := by omega
        simp only [insertField, BitVec.getLsbD_or, BitVec.getLsbD_and, BitVec.getLsbD_not,
          BitVec.getLsbD_shiftLeft, key]
        simp [hin, h2, e]
    · have e : i < lo := by omega
      simp only [insertField, BitVec.getLsbD_or, BitVec.getLsbD_and, BitVec.getLsbD_not,
        BitVec.getLsbD_shiftLeft, key]
      simp [hin, h1, e]
  · have e : ¬ i ≤ hi := by omega
    simp [e, BitVec.getLsbD_of_ge _ _ (Nat.not_lt.1 hin)]

/-- The `sf` bit of a width selects it (00_scope.md R16). -/
theorem widthOfBit_sf (w : Width) : widthOfBit (w.sf.getLsbD 0) = w := by cases w <;> rfl

/-- The bits of a shift kind's code name it (30_encoding.md R120). -/
theorem shiftKindOfBits_code (k : ShiftKind) :
    shiftKindOfBits (k.code.getLsbD 1) (k.code.getLsbD 0) = k := by cases k <;> rfl

/-- A condition's code names it (30_encoding.md R119). -/
theorem condOfCode_code (c : Cond) : condOfCode c.code = some c := by cases c <;> rfl

/-- A code that names a condition is that condition's code (30_encoding.md R119). -/
theorem code_of_condOfCode {b : BitVec 4} {c : Cond} (h : condOfCode b = some c) : c.code = b := by
  revert h; revert c; revert b; decide

end Sys2Proof
end

