-- ==== Sys2Proof/Laws/State.lean ====
section
/-! SUPPORT. The small lemmas of State: one per field per update, and how the register reads and
writes of 10_state.md R31, R32 meet. -/

namespace Sys2Proof.Machine

/-! ## Flags and PC -/

@[simp] theorem State.setFlags_flags (s : State) (f : Flags) : (s.setFlags f).flags = f := rfl
@[simp] theorem State.setFlags_regs (s : State) (f : Flags) : (s.setFlags f).regs = s.regs := rfl
@[simp] theorem State.setFlags_pc (s : State) (f : Flags) : (s.setFlags f).pc = s.pc := rfl
@[simp] theorem State.setFlags_mem (s : State) (f : Flags) : (s.setFlags f).mem = s.mem := rfl
@[simp] theorem State.setFlags_run (s : State) (f : Flags) : (s.setFlags f).run = s.run := rfl

@[simp] theorem State.setPc_pc (s : State) (v : DWord) : (s.setPc v).pc = v := rfl
@[simp] theorem State.setPc_regs (s : State) (v : DWord) : (s.setPc v).regs = s.regs := rfl
@[simp] theorem State.setPc_flags (s : State) (v : DWord) : (s.setPc v).flags = s.flags := rfl
@[simp] theorem State.setPc_mem (s : State) (v : DWord) : (s.setPc v).mem = s.mem := rfl
@[simp] theorem State.setPc_run (s : State) (v : DWord) : (s.setPc v).run = s.run := rfl

/-! ## Registers -/

@[simp] theorem State.setX_flags (s : State) (i : RegIdx) (v : DWord) : (s.setX i v).flags = s.flags := by
  unfold State.setX; split <;> rfl

@[simp] theorem State.setX_pc (s : State) (i : RegIdx) (v : DWord) : (s.setX i v).pc = s.pc := by
  unfold State.setX; split <;> rfl

@[simp] theorem State.setX_mem (s : State) (i : RegIdx) (v : DWord) : (s.setX i v).mem = s.mem := by
  unfold State.setX; split <;> rfl

@[simp] theorem State.setX_run (s : State) (i : RegIdx) (v : DWord) : (s.setX i v).run = s.run := by
  unfold State.setX; split <;> rfl

@[simp] theorem State.setXw_flags (s : State) (w : Width) (i : RegIdx) (v : BitVec w.bits) :
    (s.setXw w i v).flags = s.flags := State.setX_flags s i _

@[simp] theorem State.setXw_pc (s : State) (w : Width) (i : RegIdx) (v : BitVec w.bits) :
    (s.setXw w i v).pc = s.pc := State.setX_pc s i _

@[simp] theorem State.setXw_mem (s : State) (w : Width) (i : RegIdx) (v : BitVec w.bits) :
    (s.setXw w i v).mem = s.mem := State.setX_mem s i _

@[simp] theorem State.setXw_run (s : State) (w : Width) (i : RegIdx) (v : BitVec w.bits) :
    (s.setXw w i v).run = s.run := State.setX_run s i _

/-- Index 31 reads 0 (10_state.md R31). -/
@[simp] theorem State.x_zr (s : State) : s.x zr = 0#64 := rfl

/-- A write to index 31 is discarded (10_state.md R32). -/
@[simp] theorem State.setX_zr (s : State) (v : DWord) : s.setX zr v = s := rfl

/-- A width-aware write to index 31 is discarded (10_state.md R32). -/
@[simp] theorem State.setXw_zr (s : State) (w : Width) (v : BitVec w.bits) : s.setXw w zr v = s := rfl

/-- An index is stored or it is the zero register (10_state.md R30). -/
theorem regIdx_lt_or_zr (i : RegIdx) : i.toNat < 31 ∨ i = zr := by
  by_cases h : i.toNat < 31
  · exact .inl h
  · exact .inr (BitVec.eq_of_toNat_eq (by have := i.isLt; simp; omega))

/-- An index other than 31 is stored. -/
theorem regIdx_lt_of_ne_zr {i : RegIdx} (h : i ≠ zr) : i.toNat < 31 :=
  (regIdx_lt_or_zr i).resolve_right h

/-- Reading a register after writing one (10_state.md R31, R32). -/
theorem State.x_setX (s : State) (i j : RegIdx) (v : DWord) :
    (s.setX i v).x j = if j = i ∧ i ≠ zr then v else s.x j := by
  by_cases hi : i = zr
  · subst hi; simp
  have hi' := regIdx_lt_of_ne_zr hi
  by_cases hj : j.toNat < 31
  · by_cases e : j = i
    · subst e; simp [State.setX, State.x, hi', hi]
    · have hne : i.toNat ≠ j.toNat := fun h => e (BitVec.eq_of_toNat_eq h.symm)
      simp [State.setX, State.x, hi', hj, e, hne]
  · have e : j ≠ i := fun h => hj (h ▸ hi')
    simp [State.x, hj, e]

/-- A register just written holds the value written. -/
@[simp] theorem State.x_setX_self {i : RegIdx} (s : State) (v : DWord) (h : i ≠ zr) :
    (s.setX i v).x i = v := by simp [State.x_setX, h]

/-- Another register keeps its value. -/
@[simp] theorem State.x_setX_of_ne {i j : RegIdx} (s : State) (v : DWord) (h : j ≠ i) :
    (s.setX i v).x j = s.x j := by simp [State.x_setX, h]

/-- Reading a register after a width-aware write: all 64 bits are written (00_scope.md R13). -/
theorem State.x_setXw (s : State) (w : Width) (i j : RegIdx) (v : BitVec w.bits) :
    (s.setXw w i v).x j = if j = i ∧ i ≠ zr then v.setWidth 64 else s.x j :=
  State.x_setX s i j _

@[simp] theorem State.x_setFlags (s : State) (f : Flags) (i : RegIdx) : (s.setFlags f).x i = s.x i := rfl

@[simp] theorem State.x_setPc (s : State) (v : DWord) (i : RegIdx) : (s.setPc v).x i = s.x i := rfl

@[simp] theorem State.xw_setFlags (s : State) (f : Flags) (w : Width) (i : RegIdx) :
    (s.setFlags f).xw w i = s.xw w i := rfl

@[simp] theorem State.xw_setPc (s : State) (v : DWord) (w : Width) (i : RegIdx) :
    (s.setPc v).xw w i = s.xw w i := rfl

/-- The zero register at a width. -/
@[simp] theorem State.xw_zr (s : State) (w : Width) : s.xw w zr = 0#w.bits := by
  simp [State.xw]

/-- Two states with equal registers, flags, PC, memory and run state are equal. -/
theorem State.ext_fields {s t : State} (hr : s.regs = t.regs) (hf : s.flags = t.flags)
    (hp : s.pc = t.pc) (hm : s.mem = t.mem) (hn : s.run = t.run) : s = t := by
  cases s; cases t; simp_all

/-! ## Memory and run state -/

@[simp] theorem State.withMem_regs (s : State) (m : Memory) : State.regs (State.mk s.regs s.flags s.pc m s.run) = s.regs := rfl
@[simp] theorem State.withMem_flags (s : State) (m : Memory) : State.flags (State.mk s.regs s.flags s.pc m s.run) = s.flags := rfl
@[simp] theorem State.withMem_pc (s : State) (m : Memory) : State.pc (State.mk s.regs s.flags s.pc m s.run) = s.pc := rfl
@[simp] theorem State.withMem_run (s : State) (m : Memory) : State.run (State.mk s.regs s.flags s.pc m s.run) = s.run := rfl
@[simp] theorem State.withMem_mem (s : State) (m : Memory) :
    State.mem (State.mk s.regs s.flags s.pc m s.run) = m := rfl

@[simp] theorem State.withMem_x (s : State) (m : Memory) (i : RegIdx) :
    State.x (State.mk s.regs s.flags s.pc m s.run) i = s.x i := rfl

/-! ## Reset -/

@[simp] theorem State.reset_pc : State.reset.pc = 0#64 := rfl
@[simp] theorem State.reset_mem : State.reset.mem = [] := rfl
@[simp] theorem State.reset_run : State.reset.run = .running := rfl
@[simp] theorem State.reset_flags : State.reset.flags = ⟨false, true, false, false⟩ := rfl

/-- Every register is zero after reset (10_state.md R43). -/
@[simp] theorem State.reset_x (i : RegIdx) : State.reset.x i = 0#64 := by
  simp [State.x, State.reset]

end Sys2Proof.Machine
end

