-- ==== Sys2Proof/Laws/Memory.lean ====
section
/-! SUPPORT. What the memory operations of Machine/Ops.lean do, byte by byte, and that each keeps
the canonical form. -/

namespace Sys2Proof.Machine

theorem memSize_eq : memSize = 0x200000 := rfl

/-! ## One byte -/

@[simp] theorem Memory.readByte_nil (a : Nat) : Memory.readByte [] a = unlistedByte := rfl

/-- An address below every listed one reads as unlisted. -/
theorem Memory.readByte_of_lt {m : Memory} {a : Nat} (h : ∀ c ∈ m, a < c.1) :
    m.readByte a = unlistedByte := by
  induction m with
  | nil => rfl
  | cons c m ih =>
    have hc := h c (by simp)
    simp only [Memory.readByte]
    rw [if_neg (by omega)]
    exact ih fun d hd => h d (by simp [hd])

/-- Reading a byte after writing one, in a memory in canonical form. -/
theorem Memory.readByte_writeByte {m : Memory} (hm : m.Pairwise (fun c d => c.1 < d.1))
    (a b : Nat) (v : Byte) :
    (m.writeByte a v).readByte b = if b = a then v else m.readByte b := by
  induction m with
  | nil =>
    by_cases hv : v = unlistedByte <;> by_cases h : a = b <;>
      simp [Memory.writeByte, Memory.readByte, hv, h, eq_comm]
  | cons c m ih =>
    rw [List.pairwise_cons] at hm
    obtain ⟨hc, hm⟩ := hm
    have below : ∀ x, x ≤ c.1 → Memory.readByte m x = unlistedByte := fun x hx =>
      Memory.readByte_of_lt fun d hd => by have := hc d hd; omega
    simp only [Memory.writeByte]
    split
    · rename_i h1
      have ha := below a (by omega)
      split
      · rename_i hv
        simp only [Memory.readByte]
        by_cases e : b = a
        · subst e; rw [if_neg (by omega), if_pos rfl, ha, hv]
        · rw [if_neg e]
      · simp only [Memory.readByte]
        by_cases e : b = a
        · subst e; simp
        · rw [if_neg (fun h => e h.symm), if_neg e]
    · split
      · rename_i h1 h2
        split
        · rename_i hv
          by_cases e : b = a
          · subst e; rw [if_pos rfl, hv, below b (by omega)]
          · rw [if_neg e]; simp only [Memory.readByte]; rw [if_neg (by omega)]
        · simp only [Memory.readByte]
          by_cases e : b = a
          · subst e; simp
          · rw [if_neg (fun h => e h.symm), if_neg e, if_neg (by omega)]
      · rename_i h1 h2
        simp only [Memory.readByte, ih hm]
        by_cases e : b = a
        · subst e; rw [if_neg (by omega), if_pos rfl, if_pos rfl]
        · simp [e]

/-- Every address a byte write lists was listed before or is the one written. -/
theorem Memory.mem_writeByte {m : Memory} {a : Nat} {v : Byte} {c : Host.Cell}
    (h : c ∈ m.writeByte a v) : c ∈ m ∨ (c = (a, v) ∧ v ≠ unlistedByte) := by
  induction m with
  | nil =>
    by_cases hv : v = unlistedByte
    · simp [Memory.writeByte, hv] at h
    · simp [Memory.writeByte, hv] at h; exact .inr ⟨h, hv⟩
  | cons d m ih =>
    simp only [Memory.writeByte] at h
    split at h
    · split at h
      · exact .inl h
      · rename_i hv
        rcases List.mem_cons.1 h with h | h
        · exact .inr ⟨h, hv⟩
        · exact .inl h
    · split at h
      · split at h
        · exact .inl (by simp [h])
        · rename_i hv
          rcases List.mem_cons.1 h with h | h
          · exact .inr ⟨h, hv⟩
          · exact .inl (by simp [h])
      · rcases List.mem_cons.1 h with h | h
        · exact .inl (by simp [h])
        · rcases ih h with h | h
          · exact .inl (by simp [h])
          · exact .inr h

/-- A byte write keeps addresses strictly rising. -/
theorem Memory.pairwise_writeByte {m : Memory} (hm : m.Pairwise (fun c d => c.1 < d.1)) (a : Nat)
    (v : Byte) : (m.writeByte a v).Pairwise (fun c d => c.1 < d.1) := by
  induction m with
  | nil => by_cases hv : v = unlistedByte <;> simp [Memory.writeByte, hv]
  | cons c m ih =>
    have hcm := hm
    rw [List.pairwise_cons] at hm
    obtain ⟨hc, hm⟩ := hm
    simp only [Memory.writeByte]
    split
    · rename_i h1
      split
      · exact hcm
      · refine List.pairwise_cons.2 ⟨fun d hd => ?_, hcm⟩
        rcases List.mem_cons.1 hd with rfl | hd
        · exact h1
        · have := hc d hd; simp only; omega
    · split
      · rename_i h1 h2
        split
        · exact hm
        · exact List.pairwise_cons.2 ⟨fun d hd => by have := hc d hd; simp only; omega, hm⟩
      · rename_i h1 h2
        refine List.pairwise_cons.2 ⟨fun d hd => ?_, ih hm⟩
        rcases Memory.mem_writeByte hd with hd | ⟨rfl, -⟩
        · exact hc d hd
        · simp only; omega

/-- A byte write inside the array keeps the canonical form. -/
theorem Memory.wf_writeByte {m : Memory} (hm : m.wf) {a : Nat} (ha : a < memSize) (v : Byte) :
    (m.writeByte a v).wf := by
  refine ⟨Memory.pairwise_writeByte hm.1 a v, fun c hc => ?_⟩
  rcases Memory.mem_writeByte hc with hc | ⟨rfl, hv⟩
  · exact hm.2 c hc
  · exact ⟨hv, ha⟩

/-- The empty memory is in canonical form. -/
theorem Memory.wf_nil : Memory.wf [] := by simp [Memory.wf]

/-! ## Several bytes -/

/-- Writing bytes keeps addresses strictly rising. -/
theorem Memory.pairwise_writeBytes {m : Memory} (hm : m.Pairwise (fun c d => c.1 < d.1)) (a : Nat)
    (bs : List Byte) : (m.writeBytes a bs).Pairwise (fun c d => c.1 < d.1) := by
  induction bs generalizing m a with
  | nil => exact hm
  | cons b bs ih => exact ih (Memory.pairwise_writeByte hm a b) (a + 1)

/-- Writing bytes inside the array keeps the canonical form. -/
theorem Memory.wf_writeBytes {m : Memory} (hm : m.wf) {a : Nat} {bs : List Byte}
    (ha : a + bs.length ≤ memSize) : (m.writeBytes a bs).wf := by
  induction bs generalizing m a with
  | nil => exact hm
  | cons b bs ih =>
    rw [List.length_cons] at ha
    exact ih (Memory.wf_writeByte hm (by omega) b) (by omega)

/-- Reading a byte after writing bytes: the byte written there, or what was there. -/
theorem Memory.readByte_writeBytes {m : Memory} (hm : m.Pairwise (fun c d => c.1 < d.1)) (a b : Nat)
    (bs : List Byte) :
    (m.writeBytes a bs).readByte b =
      if a ≤ b then (bs[b - a]?).getD (m.readByte b) else m.readByte b := by
  induction bs generalizing m a with
  | nil => simp [Memory.writeBytes]
  | cons v bs ih =>
    simp only [Memory.writeBytes, ih (Memory.pairwise_writeByte hm a v),
      Memory.readByte_writeByte hm]
    by_cases h0 : b = a
    · subst h0; simp
    · by_cases h1 : a ≤ b
      · obtain ⟨k, rfl⟩ : ∃ k, b = a + 1 + k := ⟨b - a - 1, by omega⟩
        simp [h0, h1, show a + 1 + k - a = k + 1 by omega]
      · simp [h0, h1, show ¬ a + 1 ≤ b by omega]

/-! ## Values -/

@[simp] theorem length_bytesOf (w : Width) (v : BitVec w.bits) : (bytesOf w v).length = w.bytes := by
  simp [bytesOf]

/-- Reading a byte after storing a value: byte `k` of the value at `a + k`, else what was there
(20_memory.md R61). -/
theorem Memory.readByte_write {m : Memory} (hm : m.Pairwise (fun c d => c.1 < d.1)) (a b : Nat)
    (w : Width) (v : BitVec w.bits) :
    (m.write a w v).readByte b =
      if a ≤ b ∧ b < a + w.bytes then byteAt v (b - a) else m.readByte b := by
  rw [Memory.write, Memory.readByte_writeBytes hm]
  by_cases h1 : a ≤ b
  · by_cases h2 : b < a + w.bytes
    · have h3 : b - a < w.bytes := by omega
      simp [h1, h2, bytesOf, h3]
    · have h3 : ¬ b - a < w.bytes := by omega
      simp [h1, h2, bytesOf, h3]
  · simp [h1]

/-- A store inside the array keeps the canonical form. -/
theorem Memory.wf_write {m : Memory} (hm : m.wf) {a : Nat} {w : Width} (ha : a + w.bytes ≤ memSize)
    (v : BitVec w.bits) : (m.write a w v).wf :=
  Memory.wf_writeBytes hm (by simpa using ha)

/-- The bits of a value made of bytes. -/
theorem getLsbD_valueOfBytes (bits : Nat) (bs : List Byte) (i : Nat) :
    (valueOfBytes bits bs).getLsbD i = (decide (i < bits) && ((bs[i / 8]?).getD 0#8).getLsbD (i % 8)) := by
  induction bs generalizing i with
  | nil => simp [valueOfBytes]
  | cons b bs ih =>
    by_cases hi : i < bits
    · by_cases h8 : i < 8
      · simp [valueOfBytes, hi, h8, Nat.div_eq_of_lt h8, Nat.mod_eq_of_lt h8]
      · obtain ⟨j, rfl⟩ : ∃ j, i = j + 8 := ⟨i - 8, by omega⟩
        have hb : b.getLsbD (j + 8) = false := BitVec.getLsbD_of_ge _ _ (by omega)
        have hj := ih j
        rw [show decide (j < bits) = true by simp; omega, Bool.true_and] at hj
        simp only [valueOfBytes, BitVec.getLsbD_or, BitVec.getLsbD_setWidth, BitVec.getLsbD_shiftLeft,
          hb, Nat.add_sub_cancel, hj, hi, Nat.add_div_right j (by decide : 0 < 8), Nat.add_mod_right]
        simp
    · simp [hi, BitVec.getLsbD_of_ge _ _ (Nat.le_of_not_lt hi)]

/-- Byte `k` of a value made of at least `k + 1` bytes that fit it. -/
theorem byteAt_valueOfBytes {bits : Nat} {bs : List Byte} {k : Nat} (h : 8 * k + 8 ≤ bits) :
    byteAt (valueOfBytes bits bs) k = (bs[k]?).getD 0#8 := by
  refine BitVec.eq_of_getLsbD_eq fun i hi => ?_
  simp only [byteAt, BitVec.getLsbD_extractLsb', getLsbD_valueOfBytes]
  rw [show (8 * k + i) / 8 = k by omega, show (8 * k + i) % 8 = i by omega]
  simp [hi, show 8 * k + i < bits by omega]

/-- Byte `k` of what a read answers is the byte at `a + k` (20_memory.md R60). -/
theorem Memory.byteAt_read (m : Memory) (a : Nat) (w : Width) {k : Nat} (hk : k < w.bytes) :
    byteAt (m.read a w) k = m.readByte (a + k) := by
  have h : 8 * k + 8 ≤ w.bits := by cases w <;> simp_all [Width.bytes, Width.bits] <;> omega
  rw [Memory.read, byteAt_valueOfBytes h]
  simp [hk]

/-- Two values with equal bytes are equal. -/
theorem eq_of_byteAt {w : Width} {u v : BitVec w.bits}
    (h : ∀ k, k < w.bytes → byteAt u k = byteAt v k) : u = v := by
  refine BitVec.eq_of_getLsbD_eq fun i hi => ?_
  have hk : i / 8 < w.bytes := by cases w <;> simp_all [Width.bytes, Width.bits] <;> omega
  have := congrArg (fun b => b.getLsbD (i % 8)) (h (i / 8) hk)
  simpa [byteAt, BitVec.getLsbD_extractLsb', Nat.mod_lt, Nat.div_add_mod] using this

/-! ## Bounds -/

theorem inBounds_iff (addr : DWord) (n : Nat) : inBounds addr n = true ↔ addr.toNat + n ≤ memSize := by
  simp [inBounds]

theorem not_inBounds_iff (addr : DWord) (n : Nat) :
    inBounds addr n = false ↔ memSize < addr.toNat + n := by
  simp [inBounds]

end Sys2Proof.Machine
end

