-- ==== Sys2Proof/Laws/Ops.lean ====
section
/-! SUPPORT. What each shared operation can do, said once: the data accesses, the ends of an
instruction, the shared meanings, the address translator, the fetch and the step. -/

namespace Sys2Proof.Machine

/-! ## Data accesses -/

/-- A load from inside the array answers the bytes there (20_memory.md R60). -/
theorem State.loadData_of_inBounds {s : State} {w : Width} {ea : DWord}
    (h : inBounds ea w.bytes = true) : s.loadData w ea = .ok (s.mem.read ea.toNat w) := by
  simp [State.loadData, h]

/-- A load from outside the array faults (20_memory.md R60). -/
theorem State.loadData_of_not_inBounds {s : State} {w : Width} {ea : DWord}
    (h : inBounds ea w.bytes = false) : s.loadData w ea = .error (.dataBounds ea w.bytes s.pc) := by
  simp [State.loadData, h]

/-- A load answers a value only from inside the array. -/
theorem State.loadData_eq_ok {s : State} {w : Width} {ea : DWord} {v : BitVec w.bits} :
    s.loadData w ea = .ok v ↔ inBounds ea w.bytes = true ∧ s.mem.read ea.toNat w = v := by
  cases h : inBounds ea w.bytes
  · simp [State.loadData_of_not_inBounds h]
  · simp [State.loadData_of_inBounds h]

/-- A store inside the array changes the memory alone (20_memory.md R61). -/
theorem State.storeData_of_inBounds {s : State} {w : Width} {ea : DWord} {v : BitVec w.bits}
    (h : inBounds ea w.bytes = true) :
    s.storeData w ea v = .ok { s with mem := s.mem.write ea.toNat w v } := by
  simp [State.storeData, h]

/-- A store outside the array faults (20_memory.md R61). -/
theorem State.storeData_of_not_inBounds {s : State} {w : Width} {ea : DWord} {v : BitVec w.bits}
    (h : inBounds ea w.bytes = false) :
    s.storeData w ea v = .error (.dataBounds ea w.bytes s.pc) := by
  simp [State.storeData, h]

/-- A store answers a state only inside the array. -/
theorem State.storeData_eq_ok {s t : State} {w : Width} {ea : DWord} {v : BitVec w.bits} :
    s.storeData w ea v = .ok t ↔
      inBounds ea w.bytes = true ∧ { s with mem := s.mem.write ea.toNat w v } = t := by
  cases h : inBounds ea w.bytes
  · simp [State.storeData_of_not_inBounds h]
  · simp [State.storeData_of_inBounds h]

/-! ## The ends of an instruction -/

theorem advance_eq (s : State) : advance s = .next (s.setPc (s.pc + 4#64)) := rfl

theorem redirect_eq (target : DWord) (s : State) : redirect target s = .next (s.setPc target) := rfl

theorem halt_eq (s : State) : halt s = .next { s with run := .halted } := rfl

theorem raise_eq (f : Fault) : raise f = .fault f := rfl

/-! ## Data processing -/

/-- The state the arithmetic immediates leave (41_dp_immediate.md R200 to R203). -/
theorem arithImm_eq (sub setflags : Bool) (w : Width) (sh : Bool) (imm12 : BitVec 12)
    (rn rd : RegIdx) (s : State) :
    arithImm sub setflags w sh imm12 rn rd s =
      .next (((s.setXw w rd (addSub (s.xw w rn) (arithImmediate w sh imm12) sub).1).setFlags
        (if setflags then (addSub (s.xw w rn) (arithImmediate w sh imm12) sub).2 else s.flags)).setPc
        (s.pc + 4#64)) := by
  cases setflags
  · simp only [arithImm, advance_eq, Bool.false_eq_true, if_false, State.setXw_pc]
    exact congrArg Host.Outcome.next (State.ext_fields rfl (by simp) rfl rfl rfl)
  · simp [arithImm, advance_eq]

/-- The state the arithmetic shifted-register instructions leave (42_dp_register.md R240 to R243). -/
theorem arithReg_eq (sub setflags : Bool) (w : Width) (shift : ShiftKind) (rm : RegIdx)
    (imm6 : BitVec 6) (rn rd : RegIdx) (s : State) :
    arithReg sub setflags w shift rm imm6 rn rd s =
      .next (((s.setXw w rd (addSub (s.xw w rn) (shiftedReg s w shift rm imm6) sub).1).setFlags
        (if setflags then (addSub (s.xw w rn) (shiftedReg s w shift rm imm6) sub).2
          else s.flags)).setPc (s.pc + 4#64)) := by
  cases setflags
  · simp only [arithReg, advance_eq, Bool.false_eq_true, if_false, State.setXw_pc]
    exact congrArg Host.Outcome.next (State.ext_fields rfl (by simp) rfl rfl rfl)
  · simp [arithReg, advance_eq]

/-- The state the logical instructions leave (42_dp_register.md R250 to R257). -/
theorem logicReg_eq (op : LogicOp) (N setflags : Bool) (w : Width) (shift : ShiftKind)
    (rm : RegIdx) (imm6 : BitVec 6) (rn rd : RegIdx) (s : State) :
    logicReg op N setflags w shift rm imm6 rn rd s =
      .next (((s.setXw w rd (logic op (s.xw w rn) (logicOperand s w N shift rm imm6))).setFlags
        (if setflags then logicFlags (logic op (s.xw w rn) (logicOperand s w N shift rm imm6))
          else s.flags)).setPc (s.pc + 4#64)) := by
  cases setflags
  · simp only [logicReg, advance_eq, Bool.false_eq_true, if_false, State.setXw_pc]
    exact congrArg Host.Outcome.next (State.ext_fields rfl (by simp) rfl rfl rfl)
  · simp [logicReg, advance_eq]

/-- The state the multiplies leave (42_dp_register.md R260, R261). -/
theorem multiply_eq (sub : Bool) (w : Width) (rm ra rn rd : RegIdx) (s : State) :
    multiply sub w rm ra rn rd s =
      .next ((s.setXw w rd (mulAcc (s.xw w rn) (s.xw w rm) (s.xw w ra) sub)).setPc
        (s.pc + 4#64)) := by
  simp [multiply, advance_eq]

/-! ## The address translator -/

@[simp] theorem writebackBefore_flags (s : State) (w : Width) (mode : AddrMode) (rn : RegIdx) :
    (writebackBefore s w mode rn).flags = s.flags := by cases mode <;> simp [writebackBefore]

@[simp] theorem writebackBefore_pc (s : State) (w : Width) (mode : AddrMode) (rn : RegIdx) :
    (writebackBefore s w mode rn).pc = s.pc := by cases mode <;> simp [writebackBefore]

@[simp] theorem writebackBefore_mem (s : State) (w : Width) (mode : AddrMode) (rn : RegIdx) :
    (writebackBefore s w mode rn).mem = s.mem := by cases mode <;> simp [writebackBefore]

@[simp] theorem writebackBefore_run (s : State) (w : Width) (mode : AddrMode) (rn : RegIdx) :
    (writebackBefore s w mode rn).run = s.run := by cases mode <;> simp [writebackBefore]

@[simp] theorem writebackAfter_flags (s t : State) (mode : AddrMode) (rn : RegIdx) :
    (writebackAfter s t mode rn).flags = t.flags := by cases mode <;> simp [writebackAfter]

@[simp] theorem writebackAfter_pc (s t : State) (mode : AddrMode) (rn : RegIdx) :
    (writebackAfter s t mode rn).pc = t.pc := by cases mode <;> simp [writebackAfter]

@[simp] theorem writebackAfter_mem (s t : State) (mode : AddrMode) (rn : RegIdx) :
    (writebackAfter s t mode rn).mem = t.mem := by cases mode <;> simp [writebackAfter]

@[simp] theorem writebackAfter_run (s t : State) (mode : AddrMode) (rn : RegIdx) :
    (writebackAfter s t mode rn).run = t.run := by cases mode <;> simp [writebackAfter]

/-! ## Loads and stores -/

/-- All a load can do (43_load_store.md R296). -/
theorem load_eq (w : Width) (mode : AddrMode) (rn rt : RegIdx) (s : State) :
    load w mode rn rt s =
      if inBounds (effAddr s w mode rn) w.bytes then
        .next ((writebackAfter s ((writebackBefore s w mode rn).setXw w rt
          (s.mem.read (effAddr s w mode rn).toNat w)) mode rn).setPc (s.pc + 4#64))
      else .fault (.dataBounds (effAddr s w mode rn) w.bytes s.pc) := by
  cases h : inBounds (effAddr s w mode rn) w.bytes
  · simp [load, State.loadData_of_not_inBounds h, raise_eq]
  · simp [load, State.loadData_of_inBounds h, advance_eq]

/-- All a store can do (43_load_store.md R296). -/
theorem store_eq (w : Width) (mode : AddrMode) (rn rt : RegIdx) (s : State) :
    store w mode rn rt s =
      if inBounds (effAddr s w mode rn) w.bytes then
        .next ((writebackAfter s
          { writebackBefore s w mode rn with
            mem := s.mem.write (effAddr s w mode rn).toNat w
              ((writebackBefore s w mode rn).xw w rt) } mode rn).setPc (s.pc + 4#64))
      else .fault (.dataBounds (effAddr s w mode rn) w.bytes s.pc) := by
  cases h : inBounds (effAddr s w mode rn) w.bytes
  · simp [store, State.storeData_of_not_inBounds h, raise_eq]
  · simp [store, State.storeData_of_inBounds h, advance_eq]

/-- All a literal load can do (43_load_store.md R328). -/
theorem execLdrLit_eq (w : Width) (simm19 : BitVec 19) (rt : RegIdx) (s : State) :
    execLdrLit w simm19 rt s =
      if inBounds (pcRelative s simm19) w.bytes then
        .next ((s.setXw w rt (s.mem.read (pcRelative s simm19).toNat w)).setPc (s.pc + 4#64))
      else .fault (.dataBounds (pcRelative s simm19) w.bytes s.pc) := by
  cases h : inBounds (pcRelative s simm19) w.bytes
  · simp [execLdrLit, State.loadData_of_not_inBounds h, raise_eq]
  · simp [execLdrLit, State.loadData_of_inBounds h, advance_eq]

/-- All a conditional branch can do (44_branch.md R341). -/
theorem branchOn_eq (cond : Cond) (simm19 : BitVec 19) (s : State) :
    branchOn cond simm19 s =
      .next (s.setPc (if condHolds cond s.flags then pcRelative s simm19 else s.pc + 4#64)) := by
  cases h : condHolds cond s.flags <;> simp [branchOn, h, advance_eq, redirect_eq]

/-! ## Fetch and step -/

/-- The little-endian value of four bytes read one by one is the word read there (20_memory.md R62). -/
theorem valueOfBytes_four (m : Memory) (a : Nat) :
    valueOfBytes 32 [m.readByte a, m.readByte (a + 1), m.readByte (a + 2), m.readByte (a + 3)] =
      m.read a .w32 := rfl

/-- The word a fetch inside the array reads, without the alignment fault (20_memory.md R62, R68). -/
theorem fetchWord_of_inBounds {s : State} (h : inBounds s.pc 4 = true) :
    fetchWord false s = .ok (s.mem.read s.pc.toNat .w32) := by
  simp [fetchWord, h]

/-- A fetch outside the array faults (20_memory.md R62). -/
theorem fetchWord_of_not_inBounds {s : State} (h : inBounds s.pc 4 = false) :
    fetchWord false s = .error (.fetchBounds s.pc) := by
  simp [fetchWord, h]

theorem step_eq (s : State) : step s = stepWith false s := rfl

/-- All a step of a running machine can do (40_execution_cycle.md R162). -/
theorem step_of_running {s : State} (hr : s.run = .running) :
    step s =
      if inBounds s.pc 4 then
        match decode (s.mem.read s.pc.toNat .w32) with
        | .error e => .fault (faultOfDecodeError e (s.mem.read s.pc.toNat .w32) s.pc)
        | .ok i => exec i s
      else .fault (.fetchBounds s.pc) := by
  simp only [step_eq, stepWith, hr, fetchInstr]
  cases h : inBounds s.pc 4
  · simp [fetchWord_of_not_inBounds h, raise_eq]
  · simp only [fetchWord_of_inBounds h, if_true]
    cases decode (s.mem.read s.pc.toNat .w32) <;> simp [raise_eq]

/-- A step of a machine that is not running is refused (40_execution_cycle.md R161). -/
theorem step_of_not_running {s : State} (hr : s.run ≠ .running) : step s = .refused .noStep := by
  cases h : s.run <;> simp_all [step_eq, stepWith]

end Sys2Proof.Machine
end

