-- ==== Sys2Proof/Laws/Exec.lean ====
section
/-! SUPPORT. What exec answers: each instruction as its shared operation, and one inversion lemma
for all of them. -/

namespace Sys2Proof.Machine

/-! ## Each instruction is its shared operation -/

theorem exec_halt (s : State) :
    exec .halt s = halt s := rfl

theorem exec_addImm (w : Width) (sh : Bool) (imm12 : BitVec 12) (rn rd : RegIdx) (s : State) :
    exec (.addImm w sh imm12 rn rd) s = arithImm false false w sh imm12 rn rd s := rfl

theorem exec_addsImm (w : Width) (sh : Bool) (imm12 : BitVec 12) (rn rd : RegIdx) (s : State) :
    exec (.addsImm w sh imm12 rn rd) s = arithImm false true w sh imm12 rn rd s := rfl

theorem exec_subImm (w : Width) (sh : Bool) (imm12 : BitVec 12) (rn rd : RegIdx) (s : State) :
    exec (.subImm w sh imm12 rn rd) s = arithImm true false w sh imm12 rn rd s := rfl

theorem exec_subsImm (w : Width) (sh : Bool) (imm12 : BitVec 12) (rn rd : RegIdx) (s : State) :
    exec (.subsImm w sh imm12 rn rd) s = arithImm true true w sh imm12 rn rd s := rfl

theorem exec_movn (w : Width) (hw : BitVec 2) (imm16 : BitVec 16) (rd : RegIdx) (s : State) :
    exec (.movn w hw imm16 rd) s = advance (s.setXw w rd (~~~wideImmediate w hw imm16)) := rfl

theorem exec_movz (w : Width) (hw : BitVec 2) (imm16 : BitVec 16) (rd : RegIdx) (s : State) :
    exec (.movz w hw imm16 rd) s = advance (s.setXw w rd (wideImmediate w hw imm16)) := rfl

theorem exec_movk (w : Width) (hw : BitVec 2) (imm16 : BitVec 16) (rd : RegIdx) (s : State) :
    exec (.movk w hw imm16 rd) s =
      advance (s.setXw w rd (keepHalfwords w hw imm16 (s.xw w rd))) := rfl

theorem exec_addReg (w : Width) (shift : ShiftKind) (rm : RegIdx)
    (imm6 : BitVec 6) (rn rd : RegIdx) (s : State) :
    exec (.addReg w shift rm imm6 rn rd) s = arithReg false false w shift rm imm6 rn rd s := rfl

theorem exec_addsReg (w : Width) (shift : ShiftKind) (rm : RegIdx)
    (imm6 : BitVec 6) (rn rd : RegIdx) (s : State) :
    exec (.addsReg w shift rm imm6 rn rd) s = arithReg false true w shift rm imm6 rn rd s := rfl

theorem exec_subReg (w : Width) (shift : ShiftKind) (rm : RegIdx)
    (imm6 : BitVec 6) (rn rd : RegIdx) (s : State) :
    exec (.subReg w shift rm imm6 rn rd) s = arithReg true false w shift rm imm6 rn rd s := rfl

theorem exec_subsReg (w : Width) (shift : ShiftKind) (rm : RegIdx)
    (imm6 : BitVec 6) (rn rd : RegIdx) (s : State) :
    exec (.subsReg w shift rm imm6 rn rd) s = arithReg true true w shift rm imm6 rn rd s := rfl

theorem exec_andReg (w : Width) (shift : ShiftKind) (rm : RegIdx)
    (imm6 : BitVec 6) (rn rd : RegIdx) (s : State) :
    exec (.andReg w shift rm imm6 rn rd) s =
      logicReg .and false false w shift rm imm6 rn rd s := rfl

theorem exec_bicReg (w : Width) (shift : ShiftKind) (rm : RegIdx)
    (imm6 : BitVec 6) (rn rd : RegIdx) (s : State) :
    exec (.bicReg w shift rm imm6 rn rd) s = logicReg .and true false w shift rm imm6 rn rd s := rfl

theorem exec_orrReg (w : Width) (shift : ShiftKind) (rm : RegIdx)
    (imm6 : BitVec 6) (rn rd : RegIdx) (s : State) :
    exec (.orrReg w shift rm imm6 rn rd) s =
      logicReg .orr false false w shift rm imm6 rn rd s := rfl

theorem exec_ornReg (w : Width) (shift : ShiftKind) (rm : RegIdx)
    (imm6 : BitVec 6) (rn rd : RegIdx) (s : State) :
    exec (.ornReg w shift rm imm6 rn rd) s = logicReg .orr true false w shift rm imm6 rn rd s := rfl

theorem exec_eorReg (w : Width) (shift : ShiftKind) (rm : RegIdx)
    (imm6 : BitVec 6) (rn rd : RegIdx) (s : State) :
    exec (.eorReg w shift rm imm6 rn rd) s =
      logicReg .eor false false w shift rm imm6 rn rd s := rfl

theorem exec_eonReg (w : Width) (shift : ShiftKind) (rm : RegIdx)
    (imm6 : BitVec 6) (rn rd : RegIdx) (s : State) :
    exec (.eonReg w shift rm imm6 rn rd) s = logicReg .eor true false w shift rm imm6 rn rd s := rfl

theorem exec_andsReg (w : Width) (shift : ShiftKind) (rm : RegIdx)
    (imm6 : BitVec 6) (rn rd : RegIdx) (s : State) :
    exec (.andsReg w shift rm imm6 rn rd) s =
      logicReg .and false true w shift rm imm6 rn rd s := rfl

theorem exec_bicsReg (w : Width) (shift : ShiftKind) (rm : RegIdx)
    (imm6 : BitVec 6) (rn rd : RegIdx) (s : State) :
    exec (.bicsReg w shift rm imm6 rn rd) s = logicReg .and true true w shift rm imm6 rn rd s := rfl

theorem exec_madd (w : Width) (rm ra rn rd : RegIdx) (s : State) :
    exec (.madd w rm ra rn rd) s = multiply false w rm ra rn rd s := rfl

theorem exec_msub (w : Width) (rm ra rn rd : RegIdx) (s : State) :
    exec (.msub w rm ra rn rd) s = multiply true w rm ra rn rd s := rfl

theorem exec_ldrUoff (w : Width) (imm12 : BitVec 12) (rn rt : RegIdx) (s : State) :
    exec (.ldrUoff w imm12 rn rt) s = load w (.unsignedOffset imm12) rn rt s := rfl

theorem exec_strUoff (w : Width) (imm12 : BitVec 12) (rn rt : RegIdx) (s : State) :
    exec (.strUoff w imm12 rn rt) s = store w (.unsignedOffset imm12) rn rt s := rfl

theorem exec_ldrPre (w : Width) (simm9 : BitVec 9) (rn rt : RegIdx) (s : State) :
    exec (.ldrPre w simm9 rn rt) s = load w (.preIndex simm9) rn rt s := rfl

theorem exec_strPre (w : Width) (simm9 : BitVec 9) (rn rt : RegIdx) (s : State) :
    exec (.strPre w simm9 rn rt) s = store w (.preIndex simm9) rn rt s := rfl

theorem exec_ldrPost (w : Width) (simm9 : BitVec 9) (rn rt : RegIdx) (s : State) :
    exec (.ldrPost w simm9 rn rt) s = load w (.postIndex simm9) rn rt s := rfl

theorem exec_strPost (w : Width) (simm9 : BitVec 9) (rn rt : RegIdx) (s : State) :
    exec (.strPost w simm9 rn rt) s = store w (.postIndex simm9) rn rt s := rfl

theorem exec_ldrReg (w : Width) (rm rn rt : RegIdx) (s : State) :
    exec (.ldrReg w rm rn rt) s = load w (.regOffset rm) rn rt s := rfl

theorem exec_strReg (w : Width) (rm rn rt : RegIdx) (s : State) :
    exec (.strReg w rm rn rt) s = store w (.regOffset rm) rn rt s := rfl

theorem exec_ldrLit (w : Width) (simm19 : BitVec 19) (rt : RegIdx) (s : State) :
    exec (.ldrLit w simm19 rt) s = execLdrLit w simm19 rt s := rfl

theorem exec_b (simm26 : BitVec 26) (s : State) :
    exec (.b simm26) s = redirect (pcRelative s simm26) s := rfl

theorem exec_bCond (simm19 : BitVec 19) (cond : Cond) (s : State) :
    exec (.bCond simm19 cond) s = branchOn cond simm19 s := rfl

theorem exec_br (rn : RegIdx) (s : State) :
    exec (.br rn) s = redirect (s.x rn) s := rfl

theorem exec_cmpImm (w : Width) (sh : Bool) (imm12 : BitVec 12) (rn : RegIdx) (s : State) :
    exec (.cmpImm w sh imm12 rn) s = arithImm true true w sh imm12 rn zr s := rfl

theorem exec_cmnImm (w : Width) (sh : Bool) (imm12 : BitVec 12) (rn : RegIdx) (s : State) :
    exec (.cmnImm w sh imm12 rn) s = arithImm false true w sh imm12 rn zr s := rfl

theorem exec_negImm (w : Width) (sh : Bool) (imm12 : BitVec 12) (rd : RegIdx) (s : State) :
    exec (.negImm w sh imm12 rd) s = arithImm true false w sh imm12 zr rd s := rfl

theorem exec_negsImm (w : Width) (sh : Bool) (imm12 : BitVec 12) (rd : RegIdx) (s : State) :
    exec (.negsImm w sh imm12 rd) s = arithImm true true w sh imm12 zr rd s := rfl

theorem exec_cmpReg (w : Width) (shift : ShiftKind) (rm : RegIdx)
    (imm6 : BitVec 6) (rn : RegIdx) (s : State) :
    exec (.cmpReg w shift rm imm6 rn) s = arithReg true true w shift rm imm6 rn zr s := rfl

theorem exec_cmnReg (w : Width) (shift : ShiftKind) (rm : RegIdx)
    (imm6 : BitVec 6) (rn : RegIdx) (s : State) :
    exec (.cmnReg w shift rm imm6 rn) s = arithReg false true w shift rm imm6 rn zr s := rfl

theorem exec_negReg (w : Width) (shift : ShiftKind) (rm : RegIdx)
    (imm6 : BitVec 6) (rd : RegIdx) (s : State) :
    exec (.negReg w shift rm imm6 rd) s = arithReg true false w shift rm imm6 zr rd s := rfl

theorem exec_negsReg (w : Width) (shift : ShiftKind) (rm : RegIdx)
    (imm6 : BitVec 6) (rd : RegIdx) (s : State) :
    exec (.negsReg w shift rm imm6 rd) s = arithReg true true w shift rm imm6 zr rd s := rfl

theorem exec_tst (w : Width) (shift : ShiftKind) (rm : RegIdx)
    (imm6 : BitVec 6) (rn : RegIdx) (s : State) :
    exec (.tst w shift rm imm6 rn) s = logicReg .and false true w shift rm imm6 rn zr s := rfl

theorem exec_mvn (w : Width) (shift : ShiftKind) (rm : RegIdx)
    (imm6 : BitVec 6) (rd : RegIdx) (s : State) :
    exec (.mvn w shift rm imm6 rd) s = logicReg .orr true false w shift rm imm6 zr rd s := rfl

theorem exec_mov (w : Width) (rm rd : RegIdx) (s : State) :
    exec (.mov w rm rd) s = logicReg .orr false false w .lsl rm 0#6 zr rd s := rfl

theorem exec_mul (w : Width) (rm rn rd : RegIdx) (s : State) :
    exec (.mul w rm rn rd) s = multiply false w rm zr rn rd s := rfl

theorem exec_mneg (w : Width) (rm rn rd : RegIdx) (s : State) :
    exec (.mneg w rm rn rd) s = multiply true w rm zr rn rd s := rfl

theorem exec_bEq (simm19 : BitVec 19) (s : State) :
    exec (.bEq simm19) s = branchOn .eq simm19 s := rfl

theorem exec_bNe (simm19 : BitVec 19) (s : State) :
    exec (.bNe simm19) s = branchOn .ne simm19 s := rfl

theorem exec_bGe (simm19 : BitVec 19) (s : State) :
    exec (.bGe simm19) s = branchOn .ge simm19 s := rfl

theorem exec_bLt (simm19 : BitVec 19) (s : State) :
    exec (.bLt simm19) s = branchOn .lt simm19 s := rfl

theorem exec_bGt (simm19 : BitVec 19) (s : State) :
    exec (.bGt simm19) s = branchOn .gt simm19 s := rfl

theorem exec_bLe (simm19 : BitVec 19) (s : State) :
    exec (.bLe simm19) s = branchOn .le simm19 s := rfl

theorem exec_bAl (simm19 : BitVec 19) (s : State) :
    exec (.bAl simm19) s = branchOn .al simm19 s := rfl

/-! ## The shapes a result can have -/

/-- The shapes of `exec i s`: a data-processing result, a new PC, the halt, or a transfer. Each says
which instructions have it: `writesFlags`, BR and HALT. -/
inductive ExecEnds (i : Instr) (s : State) : Result → Prop where
  /-- A register and perhaps the flags are written, and the PC advances. -/
  | data (w : Width) (rd : RegIdx) (v : BitVec w.bits) (f : Flags)
      (keepsFlags : i.writesFlags = false → f = s.flags) (notBr : ∀ rn, i ≠ .br rn)
      (notHalt : i ≠ .halt) :
      ExecEnds i s (.next (((s.setXw w rd v).setFlags f).setPc (s.pc + 4#64)))
  /-- Only the PC is written; other than by BR it stays aligned. -/
  | jump (target : DWord)
      (aligned : (∀ rn, i ≠ .br rn) → s.pc.toNat % 4 = 0 → target.toNat % 4 = 0)
      (notHalt : i ≠ .halt) : ExecEnds i s (.next (s.setPc target))
  /-- HALT. -/
  | halted (isHalt : i = .halt) : ExecEnds i s (.next { s with run := .halted })
  /-- LDR in a base form. -/
  | load (w : Width) (mode : AddrMode) (rn rt : RegIdx) (isTransfer : i.isTransfer = true)
      (notBr : ∀ rn, i ≠ .br rn) (notHalt : i ≠ .halt) : ExecEnds i s (load w mode rn rt s)
  /-- STR. -/
  | store (w : Width) (mode : AddrMode) (rn rt : RegIdx) (isTransfer : i.isTransfer = true)
      (isStore : i.isStore = true) (notBr : ∀ rn, i ≠ .br rn) (notHalt : i ≠ .halt) :
      ExecEnds i s (store w mode rn rt s)
  /-- LDR (literal). -/
  | literal (w : Width) (simm19 : BitVec 19) (rt : RegIdx) (isTransfer : i.isTransfer = true)
      (notBr : ∀ rn, i ≠ .br rn) (notHalt : i ≠ .halt) :
      ExecEnds i s (execLdrLit w simm19 rt s)

/-- A multiple of 4 plus a multiple of 4 instruction units is a multiple of 4. -/
theorem aligned_pcRelative {s : State} {n : Nat} {k : BitVec n}
    (h : s.pc.toNat % 4 = 0) : (pcRelative s k).toNat % 4 = 0 := by
  simp only [pcRelative, BitVec.toNat_add, BitVec.toNat_mul, show (4#64).toNat = 4 from rfl]
  omega

/-- The next instruction's address is a multiple of 4 where this one's is. -/
theorem aligned_next {s : State} (h : s.pc.toNat % 4 = 0) : (s.pc + 4#64).toNat % 4 = 0 := by
  simp only [BitVec.toNat_add, show (4#64).toNat = 4 from rfl]
  omega

/-- Writing the flags a state has changes nothing. -/
theorem State.setFlags_self (s : State) (w : Width) (rd : RegIdx) (v : BitVec w.bits) :
    (s.setXw w rd v).setFlags s.flags = s.setXw w rd v :=
  State.ext_fields rfl (by simp) rfl rfl rfl

section

variable {i : Instr} {s : State} {w : Width} {sub setflags N : Bool} {shift : ShiftKind}
  {rm ra rn rd : RegIdx} {imm6 : BitVec 6} {sh : Bool} {imm12 : BitVec 12}

theorem arithImm_ends (hf : i.writesFlags = false → setflags = false) (hb : ∀ rn, i ≠ .br rn)
    (hh : i ≠ .halt) : ExecEnds i s (arithImm sub setflags w sh imm12 rn rd s) := by
  rw [arithImm_eq]; exact .data _ _ _ _ (fun h => by simp [hf h]) hb hh

theorem arithReg_ends (hf : i.writesFlags = false → setflags = false) (hb : ∀ rn, i ≠ .br rn)
    (hh : i ≠ .halt) : ExecEnds i s (arithReg sub setflags w shift rm imm6 rn rd s) := by
  rw [arithReg_eq]; exact .data _ _ _ _ (fun h => by simp [hf h]) hb hh

theorem logicReg_ends {op : LogicOp} (hf : i.writesFlags = false → setflags = false)
    (hb : ∀ rn, i ≠ .br rn) (hh : i ≠ .halt) :
    ExecEnds i s (logicReg op N setflags w shift rm imm6 rn rd s) := by
  rw [logicReg_eq]; exact .data _ _ _ _ (fun h => by simp [hf h]) hb hh

theorem advance_ends {v : BitVec w.bits} (hb : ∀ rn, i ≠ .br rn) (hh : i ≠ .halt) :
    ExecEnds i s (advance (s.setXw w rd v)) := by
  have := ExecEnds.data (i := i) (s := s) w rd v s.flags (fun _ => rfl) hb hh
  rwa [State.setFlags_self, ← State.setXw_pc s w rd v] at this

theorem multiply_ends (hb : ∀ rn, i ≠ .br rn) (hh : i ≠ .halt) :
    ExecEnds i s (multiply sub w rm ra rn rd s) := advance_ends hb hh

theorem branchOn_ends {cond : Cond} {simm19 : BitVec 19} (hh : i ≠ .halt) :
    ExecEnds i s (branchOn cond simm19 s) := by
  rw [branchOn_eq]
  refine .jump _ (fun _ h => ?_) hh
  split
  · exact aligned_pcRelative h
  · exact aligned_next h

end

/-- All that executing an instruction can do. -/
theorem exec_ends (i : Instr) (s : State) : ExecEnds i s (exec i s) :=
  match i with
  | .halt => .halted rfl
  | .addImm _ _ _ _ _ => arithImm_ends (fun _ => rfl) (by nofun) (by nofun)
  | .addsImm _ _ _ _ _ => arithImm_ends (by nofun) (by nofun) (by nofun)
  | .subImm _ _ _ _ _ => arithImm_ends (fun _ => rfl) (by nofun) (by nofun)
  | .subsImm _ _ _ _ _ => arithImm_ends (by nofun) (by nofun) (by nofun)
  | .movn _ _ _ _ => advance_ends (by nofun) (by nofun)
  | .movz _ _ _ _ => advance_ends (by nofun) (by nofun)
  | .movk _ _ _ _ => advance_ends (by nofun) (by nofun)
  | .addReg _ _ _ _ _ _ => arithReg_ends (fun _ => rfl) (by nofun) (by nofun)
  | .addsReg _ _ _ _ _ _ => arithReg_ends (by nofun) (by nofun) (by nofun)
  | .subReg _ _ _ _ _ _ => arithReg_ends (fun _ => rfl) (by nofun) (by nofun)
  | .subsReg _ _ _ _ _ _ => arithReg_ends (by nofun) (by nofun) (by nofun)
  | .andReg _ _ _ _ _ _ => logicReg_ends (fun _ => rfl) (by nofun) (by nofun)
  | .bicReg _ _ _ _ _ _ => logicReg_ends (fun _ => rfl) (by nofun) (by nofun)
  | .orrReg _ _ _ _ _ _ => logicReg_ends (fun _ => rfl) (by nofun) (by nofun)
  | .ornReg _ _ _ _ _ _ => logicReg_ends (fun _ => rfl) (by nofun) (by nofun)
  | .eorReg _ _ _ _ _ _ => logicReg_ends (fun _ => rfl) (by nofun) (by nofun)
  | .eonReg _ _ _ _ _ _ => logicReg_ends (fun _ => rfl) (by nofun) (by nofun)
  | .andsReg _ _ _ _ _ _ => logicReg_ends (by nofun) (by nofun) (by nofun)
  | .bicsReg _ _ _ _ _ _ => logicReg_ends (by nofun) (by nofun) (by nofun)
  | .madd _ _ _ _ _ => multiply_ends (by nofun) (by nofun)
  | .msub _ _ _ _ _ => multiply_ends (by nofun) (by nofun)
  | .ldrUoff _ _ _ _ => .load _ _ _ _ rfl (by nofun) (by nofun)
  | .strUoff _ _ _ _ => .store _ _ _ _ rfl rfl (by nofun) (by nofun)
  | .ldrPre _ _ _ _ => .load _ _ _ _ rfl (by nofun) (by nofun)
  | .strPre _ _ _ _ => .store _ _ _ _ rfl rfl (by nofun) (by nofun)
  | .ldrPost _ _ _ _ => .load _ _ _ _ rfl (by nofun) (by nofun)
  | .strPost _ _ _ _ => .store _ _ _ _ rfl rfl (by nofun) (by nofun)
  | .ldrReg _ _ _ _ => .load _ _ _ _ rfl (by nofun) (by nofun)
  | .strReg _ _ _ _ => .store _ _ _ _ rfl rfl (by nofun) (by nofun)
  | .ldrLit _ _ _ => .literal _ _ _ rfl (by nofun) (by nofun)
  | .b _ => .jump _ (fun _ h => aligned_pcRelative h) (by nofun)
  | .bCond simm19 cond => branchOn_ends (cond := cond) (simm19 := simm19) (by nofun)
  | .br rn => .jump _ (fun h _ => (h rn rfl).elim) (by nofun)
  | .cmpImm _ _ _ _ => arithImm_ends (by nofun) (by nofun) (by nofun)
  | .cmnImm _ _ _ _ => arithImm_ends (by nofun) (by nofun) (by nofun)
  | .negImm _ _ _ _ => arithImm_ends (fun _ => rfl) (by nofun) (by nofun)
  | .negsImm _ _ _ _ => arithImm_ends (by nofun) (by nofun) (by nofun)
  | .cmpReg _ _ _ _ _ => arithReg_ends (by nofun) (by nofun) (by nofun)
  | .cmnReg _ _ _ _ _ => arithReg_ends (by nofun) (by nofun) (by nofun)
  | .negReg _ _ _ _ _ => arithReg_ends (fun _ => rfl) (by nofun) (by nofun)
  | .negsReg _ _ _ _ _ => arithReg_ends (by nofun) (by nofun) (by nofun)
  | .tst _ _ _ _ _ => logicReg_ends (by nofun) (by nofun) (by nofun)
  | .mvn _ _ _ _ _ => logicReg_ends (fun _ => rfl) (by nofun) (by nofun)
  | .mov _ _ _ => logicReg_ends (fun _ => rfl) (by nofun) (by nofun)
  | .mul _ _ _ _ => multiply_ends (by nofun) (by nofun)
  | .mneg _ _ _ _ => multiply_ends (by nofun) (by nofun)
  | .bEq simm19 => branchOn_ends (cond := .eq) (simm19 := simm19) (by nofun)
  | .bNe simm19 => branchOn_ends (cond := .ne) (simm19 := simm19) (by nofun)
  | .bGe simm19 => branchOn_ends (cond := .ge) (simm19 := simm19) (by nofun)
  | .bLt simm19 => branchOn_ends (cond := .lt) (simm19 := simm19) (by nofun)
  | .bGt simm19 => branchOn_ends (cond := .gt) (simm19 := simm19) (by nofun)
  | .bLe simm19 => branchOn_ends (cond := .le) (simm19 := simm19) (by nofun)
  | .bAl simm19 => branchOn_ends (cond := .al) (simm19 := simm19) (by nofun)

end Sys2Proof.Machine
end

