-- ==== Sys2Proof/Laws/PerInstr.lean ====
section
/-! SUPPORT. Statements about every instruction, one lemma per constructor: its word has the fixed bits
of its row of opcode_table.json (30_encoding.md R146). -/

namespace Sys2Proof.Laws

/-! What a mask leaves of each layout: the fields it covers. -/

theorem layoutArithImm_and_7F800000 (w : Width) (opc : BitVec 2) (sh : Bool) (imm12 : BitVec 12) (rn rd : RegIdx) :
    layoutArithImm w opc sh imm12 rn rd &&& 0x7F800000#32 =
      place 29 opc ||| place 23 0b100010#6 := by
  simp only [layoutArithImm, BitVec.and_or_distrib_right]
  simp (disch := decide) only [place_and_eq_zero, place_and_eq_self, BitVec.or_zero, BitVec.zero_or]

theorem layoutArithImm_and_7F80001F (w : Width) (opc : BitVec 2) (sh : Bool) (imm12 : BitVec 12) (rn rd : RegIdx) :
    layoutArithImm w opc sh imm12 rn rd &&& 0x7F80001F#32 =
      place 29 opc ||| place 23 0b100010#6 ||| place 0 rd := by
  simp only [layoutArithImm, BitVec.and_or_distrib_right]
  simp (disch := decide) only [place_and_eq_zero, place_and_eq_self, BitVec.or_zero, BitVec.zero_or]

theorem layoutArithImm_and_7F8003E0 (w : Width) (opc : BitVec 2) (sh : Bool) (imm12 : BitVec 12) (rn rd : RegIdx) :
    layoutArithImm w opc sh imm12 rn rd &&& 0x7F8003E0#32 =
      place 29 opc ||| place 23 0b100010#6 ||| place 5 rn := by
  simp only [layoutArithImm, BitVec.and_or_distrib_right]
  simp (disch := decide) only [place_and_eq_zero, place_and_eq_self, BitVec.or_zero, BitVec.zero_or]

theorem layoutWideMove_and_7F800000 (w : Width) (opc : BitVec 2) (hw : BitVec 2) (imm16 : BitVec 16) (rd : RegIdx) :
    layoutWideMove w opc hw imm16 rd &&& 0x7F800000#32 =
      place 29 opc ||| place 23 0b100101#6 := by
  simp only [layoutWideMove, BitVec.and_or_distrib_right]
  simp (disch := decide) only [place_and_eq_zero, place_and_eq_self, BitVec.or_zero, BitVec.zero_or]

theorem layoutArithReg_and_7F200000 (w : Width) (opc : BitVec 2) (shift : ShiftKind) (rm : RegIdx) (imm6 : BitVec 6) (rn rd : RegIdx) :
    layoutArithReg w opc shift rm imm6 rn rd &&& 0x7F200000#32 =
      place 29 opc ||| place 24 0b01011#5 := by
  simp only [layoutArithReg, BitVec.and_or_distrib_right]
  simp (disch := decide) only [place_and_eq_zero, place_and_eq_self, BitVec.or_zero, BitVec.zero_or]

theorem layoutArithReg_and_7F20001F (w : Width) (opc : BitVec 2) (shift : ShiftKind) (rm : RegIdx) (imm6 : BitVec 6) (rn rd : RegIdx) :
    layoutArithReg w opc shift rm imm6 rn rd &&& 0x7F20001F#32 =
      place 29 opc ||| place 24 0b01011#5 ||| place 0 rd := by
  simp only [layoutArithReg, BitVec.and_or_distrib_right]
  simp (disch := decide) only [place_and_eq_zero, place_and_eq_self, BitVec.or_zero, BitVec.zero_or]

theorem layoutArithReg_and_7F2003E0 (w : Width) (opc : BitVec 2) (shift : ShiftKind) (rm : RegIdx) (imm6 : BitVec 6) (rn rd : RegIdx) :
    layoutArithReg w opc shift rm imm6 rn rd &&& 0x7F2003E0#32 =
      place 29 opc ||| place 24 0b01011#5 ||| place 5 rn := by
  simp only [layoutArithReg, BitVec.and_or_distrib_right]
  simp (disch := decide) only [place_and_eq_zero, place_and_eq_self, BitVec.or_zero, BitVec.zero_or]

theorem layoutLogicReg_and_7F200000 (w : Width) (opc : BitVec 2) (N : Bool) (shift : ShiftKind) (rm : RegIdx) (imm6 : BitVec 6) (rn rd : RegIdx) :
    layoutLogicReg w opc N shift rm imm6 rn rd &&& 0x7F200000#32 =
      place 29 opc ||| place 24 0b01010#5 ||| place 21 (BitVec.ofBool N) := by
  simp only [layoutLogicReg, BitVec.and_or_distrib_right]
  simp (disch := decide) only [place_and_eq_zero, place_and_eq_self, BitVec.or_zero, BitVec.zero_or]

theorem layoutLogicReg_and_7F20001F (w : Width) (opc : BitVec 2) (N : Bool) (shift : ShiftKind) (rm : RegIdx) (imm6 : BitVec 6) (rn rd : RegIdx) :
    layoutLogicReg w opc N shift rm imm6 rn rd &&& 0x7F20001F#32 =
      place 29 opc ||| place 24 0b01010#5 ||| place 21 (BitVec.ofBool N) ||| place 0 rd := by
  simp only [layoutLogicReg, BitVec.and_or_distrib_right]
  simp (disch := decide) only [place_and_eq_zero, place_and_eq_self, BitVec.or_zero, BitVec.zero_or]

theorem layoutLogicReg_and_7F2003E0 (w : Width) (opc : BitVec 2) (N : Bool) (shift : ShiftKind) (rm : RegIdx) (imm6 : BitVec 6) (rn rd : RegIdx) :
    layoutLogicReg w opc N shift rm imm6 rn rd &&& 0x7F2003E0#32 =
      place 29 opc ||| place 24 0b01010#5 ||| place 21 (BitVec.ofBool N) ||| place 5 rn := by
  simp only [layoutLogicReg, BitVec.and_or_distrib_right]
  simp (disch := decide) only [place_and_eq_zero, place_and_eq_self, BitVec.or_zero, BitVec.zero_or]

theorem layoutLogicReg_and_7FE0FFE0 (w : Width) (opc : BitVec 2) (N : Bool) (shift : ShiftKind) (rm : RegIdx) (imm6 : BitVec 6) (rn rd : RegIdx) :
    layoutLogicReg w opc N shift rm imm6 rn rd &&& 0x7FE0FFE0#32 =
      place 29 opc ||| place 24 0b01010#5 ||| place 22 shift.code ||| place 21 (BitVec.ofBool N) ||| place 10 imm6 ||| place 5 rn := by
  simp only [layoutLogicReg, BitVec.and_or_distrib_right]
  simp (disch := decide) only [place_and_eq_zero, place_and_eq_self, BitVec.or_zero, BitVec.zero_or]

theorem layoutMultiply_and_7FE08000 (w : Width) (x : Bool) (rm ra rn rd : RegIdx) :
    layoutMultiply w x rm ra rn rd &&& 0x7FE08000#32 =
      place 21 0b0011011000#10 ||| place 15 (BitVec.ofBool x) := by
  simp only [layoutMultiply, BitVec.and_or_distrib_right]
  simp (disch := decide) only [place_and_eq_zero, place_and_eq_self, BitVec.or_zero, BitVec.zero_or]

theorem layoutMultiply_and_7FE0FC00 (w : Width) (x : Bool) (rm ra rn rd : RegIdx) :
    layoutMultiply w x rm ra rn rd &&& 0x7FE0FC00#32 =
      place 21 0b0011011000#10 ||| place 15 (BitVec.ofBool x) ||| place 10 ra := by
  simp only [layoutMultiply, BitVec.and_or_distrib_right]
  simp (disch := decide) only [place_and_eq_zero, place_and_eq_self, BitVec.or_zero, BitVec.zero_or]

theorem layoutUnsignedOffset_and_BFC00000 (w : Width) (L : Bool) (imm12 : BitVec 12) (rn rt : RegIdx) :
    layoutUnsignedOffset w L imm12 rn rt &&& 0xBFC00000#32 =
      place 31 1#1 ||| place 27 0b111#3 ||| place 24 1#1 ||| place 22 (BitVec.ofBool L) := by
  simp only [layoutUnsignedOffset, BitVec.and_or_distrib_right]
  simp (disch := decide) only [place_and_eq_zero, place_and_eq_self, BitVec.or_zero]

theorem layoutIndexed_and_BFE00C00 (w : Width) (L : Bool) (simm9 : BitVec 9) (I : Bool) (rn rt : RegIdx) :
    layoutIndexed w L simm9 I rn rt &&& 0xBFE00C00#32 =
      place 31 1#1 ||| place 27 0b111#3 ||| place 22 (BitVec.ofBool L) ||| place 11 (BitVec.ofBool I) ||| place 10 1#1 := by
  simp only [layoutIndexed, BitVec.and_or_distrib_right]
  simp (disch := decide) only [place_and_eq_zero, place_and_eq_self, BitVec.or_zero]

theorem layoutRegOffset_and_BFE0FC00 (w : Width) (L : Bool) (rm rn rt : RegIdx) :
    layoutRegOffset w L rm rn rt &&& 0xBFE0FC00#32 =
      place 31 1#1 ||| place 27 0b111#3 ||| place 22 (BitVec.ofBool L) ||| place 21 1#1 ||| place 10 0b011010#6 := by
  simp only [layoutRegOffset, BitVec.and_or_distrib_right]
  simp (disch := decide) only [place_and_eq_zero, place_and_eq_self, BitVec.or_zero]

theorem layoutLiteral_and_BF000000 (w : Width) (simm19 : BitVec 19) (rt : RegIdx) :
    layoutLiteral w simm19 rt &&& 0xBF000000#32 =
      place 24 0b011000#6 := by
  simp only [layoutLiteral, BitVec.and_or_distrib_right]
  simp (disch := decide) only [place_and_eq_zero, place_and_eq_self, BitVec.or_zero, BitVec.zero_or]

theorem layoutBranch_and_FC000000 (simm26 : BitVec 26) :
    layoutBranch simm26 &&& 0xFC000000#32 =
      place 26 0b000101#6 := by
  simp only [layoutBranch, BitVec.and_or_distrib_right]
  simp (disch := decide) only [place_and_eq_zero, place_and_eq_self, BitVec.or_zero]

theorem layoutCondBranch_and_FF000010 (simm19 : BitVec 19) (cond : Cond) :
    layoutCondBranch simm19 cond &&& 0xFF000010#32 =
      place 24 0b01010100#8 := by
  simp only [layoutCondBranch, BitVec.and_or_distrib_right]
  simp (disch := decide) only [place_and_eq_zero, place_and_eq_self, BitVec.or_zero]

theorem layoutCondBranch_and_FF00001F (simm19 : BitVec 19) (cond : Cond) :
    layoutCondBranch simm19 cond &&& 0xFF00001F#32 =
      place 24 0b01010100#8 ||| place 0 cond.code := by
  simp only [layoutCondBranch, BitVec.and_or_distrib_right]
  simp (disch := decide) only [place_and_eq_zero, place_and_eq_self, BitVec.or_zero]

theorem layoutRegBranch_and_FFFFFC1F (rn : RegIdx) :
    layoutRegBranch rn &&& 0xFFFFFC1F#32 =
      place 25 0b1101011#7 ||| place 16 0b11111#5 := by
  simp only [layoutRegBranch, BitVec.and_or_distrib_right]
  simp (disch := decide) only [place_and_eq_zero, place_and_eq_self, BitVec.or_zero]

namespace EncodeMatchesRow

/-- The word of an instruction matches its row: `encode i AND mask = match` (30_encoding.md R146). -/
def Statement (i : Instr) : Prop :=
  encode i &&& i.row.mask = i.row.pattern

theorem halt : Statement .halt := rfl

theorem addImm (w : Width) (sh : Bool) (imm12 : BitVec 12) (rn rd : RegIdx) :
    Statement (.addImm w sh imm12 rn rd) :=
  (layoutArithImm_and_7F800000 w 0b00#2 sh imm12 rn rd).trans rfl

theorem addsImm (w : Width) (sh : Bool) (imm12 : BitVec 12) (rn rd : RegIdx) :
    Statement (.addsImm w sh imm12 rn rd) :=
  (layoutArithImm_and_7F800000 w 0b01#2 sh imm12 rn rd).trans rfl

theorem subImm (w : Width) (sh : Bool) (imm12 : BitVec 12) (rn rd : RegIdx) :
    Statement (.subImm w sh imm12 rn rd) :=
  (layoutArithImm_and_7F800000 w 0b10#2 sh imm12 rn rd).trans rfl

theorem subsImm (w : Width) (sh : Bool) (imm12 : BitVec 12) (rn rd : RegIdx) :
    Statement (.subsImm w sh imm12 rn rd) :=
  (layoutArithImm_and_7F800000 w 0b11#2 sh imm12 rn rd).trans rfl

theorem movn (w : Width) (hw : BitVec 2) (imm16 : BitVec 16) (rd : RegIdx) :
    Statement (.movn w hw imm16 rd) :=
  (layoutWideMove_and_7F800000 w 0b00#2 hw imm16 rd).trans rfl

theorem movz (w : Width) (hw : BitVec 2) (imm16 : BitVec 16) (rd : RegIdx) :
    Statement (.movz w hw imm16 rd) :=
  (layoutWideMove_and_7F800000 w 0b10#2 hw imm16 rd).trans rfl

theorem movk (w : Width) (hw : BitVec 2) (imm16 : BitVec 16) (rd : RegIdx) :
    Statement (.movk w hw imm16 rd) :=
  (layoutWideMove_and_7F800000 w 0b11#2 hw imm16 rd).trans rfl

theorem addReg (w : Width) (shift : ShiftKind) (rm : RegIdx) (imm6 : BitVec 6) (rn rd : RegIdx) :
    Statement (.addReg w shift rm imm6 rn rd) :=
  (layoutArithReg_and_7F200000 w 0b00#2 shift rm imm6 rn rd).trans rfl

theorem addsReg (w : Width) (shift : ShiftKind) (rm : RegIdx) (imm6 : BitVec 6) (rn rd : RegIdx) :
    Statement (.addsReg w shift rm imm6 rn rd) :=
  (layoutArithReg_and_7F200000 w 0b01#2 shift rm imm6 rn rd).trans rfl

theorem subReg (w : Width) (shift : ShiftKind) (rm : RegIdx) (imm6 : BitVec 6) (rn rd : RegIdx) :
    Statement (.subReg w shift rm imm6 rn rd) :=
  (layoutArithReg_and_7F200000 w 0b10#2 shift rm imm6 rn rd).trans rfl

theorem subsReg (w : Width) (shift : ShiftKind) (rm : RegIdx) (imm6 : BitVec 6) (rn rd : RegIdx) :
    Statement (.subsReg w shift rm imm6 rn rd) :=
  (layoutArithReg_and_7F200000 w 0b11#2 shift rm imm6 rn rd).trans rfl

theorem andReg (w : Width) (shift : ShiftKind) (rm : RegIdx) (imm6 : BitVec 6) (rn rd : RegIdx) :
    Statement (.andReg w shift rm imm6 rn rd) :=
  (layoutLogicReg_and_7F200000 w 0b00#2 false shift rm imm6 rn rd).trans rfl

theorem bicReg (w : Width) (shift : ShiftKind) (rm : RegIdx) (imm6 : BitVec 6) (rn rd : RegIdx) :
    Statement (.bicReg w shift rm imm6 rn rd) :=
  (layoutLogicReg_and_7F200000 w 0b00#2 true shift rm imm6 rn rd).trans rfl

theorem orrReg (w : Width) (shift : ShiftKind) (rm : RegIdx) (imm6 : BitVec 6) (rn rd : RegIdx) :
    Statement (.orrReg w shift rm imm6 rn rd) :=
  (layoutLogicReg_and_7F200000 w 0b01#2 false shift rm imm6 rn rd).trans rfl

theorem ornReg (w : Width) (shift : ShiftKind) (rm : RegIdx) (imm6 : BitVec 6) (rn rd : RegIdx) :
    Statement (.ornReg w shift rm imm6 rn rd) :=
  (layoutLogicReg_and_7F200000 w 0b01#2 true shift rm imm6 rn rd).trans rfl

theorem eorReg (w : Width) (shift : ShiftKind) (rm : RegIdx) (imm6 : BitVec 6) (rn rd : RegIdx) :
    Statement (.eorReg w shift rm imm6 rn rd) :=
  (layoutLogicReg_and_7F200000 w 0b10#2 false shift rm imm6 rn rd).trans rfl

theorem eonReg (w : Width) (shift : ShiftKind) (rm : RegIdx) (imm6 : BitVec 6) (rn rd : RegIdx) :
    Statement (.eonReg w shift rm imm6 rn rd) :=
  (layoutLogicReg_and_7F200000 w 0b10#2 true shift rm imm6 rn rd).trans rfl

theorem andsReg (w : Width) (shift : ShiftKind) (rm : RegIdx) (imm6 : BitVec 6) (rn rd : RegIdx) :
    Statement (.andsReg w shift rm imm6 rn rd) :=
  (layoutLogicReg_and_7F200000 w 0b11#2 false shift rm imm6 rn rd).trans rfl

theorem bicsReg (w : Width) (shift : ShiftKind) (rm : RegIdx) (imm6 : BitVec 6) (rn rd : RegIdx) :
    Statement (.bicsReg w shift rm imm6 rn rd) :=
  (layoutLogicReg_and_7F200000 w 0b11#2 true shift rm imm6 rn rd).trans rfl

theorem madd (w : Width) (rm ra rn rd : RegIdx) :
    Statement (.madd w rm ra rn rd) :=
  (layoutMultiply_and_7FE08000 w false rm ra rn rd).trans rfl

theorem msub (w : Width) (rm ra rn rd : RegIdx) :
    Statement (.msub w rm ra rn rd) :=
  (layoutMultiply_and_7FE08000 w true rm ra rn rd).trans rfl

theorem ldrUoff (w : Width) (imm12 : BitVec 12) (rn rt : RegIdx) :
    Statement (.ldrUoff w imm12 rn rt) :=
  (layoutUnsignedOffset_and_BFC00000 w true imm12 rn rt).trans rfl

theorem strUoff (w : Width) (imm12 : BitVec 12) (rn rt : RegIdx) :
    Statement (.strUoff w imm12 rn rt) :=
  (layoutUnsignedOffset_and_BFC00000 w false imm12 rn rt).trans rfl

theorem ldrPre (w : Width) (simm9 : BitVec 9) (rn rt : RegIdx) :
    Statement (.ldrPre w simm9 rn rt) :=
  (layoutIndexed_and_BFE00C00 w true simm9 true rn rt).trans rfl

theorem strPre (w : Width) (simm9 : BitVec 9) (rn rt : RegIdx) :
    Statement (.strPre w simm9 rn rt) :=
  (layoutIndexed_and_BFE00C00 w false simm9 true rn rt).trans rfl

theorem ldrPost (w : Width) (simm9 : BitVec 9) (rn rt : RegIdx) :
    Statement (.ldrPost w simm9 rn rt) :=
  (layoutIndexed_and_BFE00C00 w true simm9 false rn rt).trans rfl

theorem strPost (w : Width) (simm9 : BitVec 9) (rn rt : RegIdx) :
    Statement (.strPost w simm9 rn rt) :=
  (layoutIndexed_and_BFE00C00 w false simm9 false rn rt).trans rfl

theorem ldrReg (w : Width) (rm rn rt : RegIdx) :
    Statement (.ldrReg w rm rn rt) :=
  (layoutRegOffset_and_BFE0FC00 w true rm rn rt).trans rfl

theorem strReg (w : Width) (rm rn rt : RegIdx) :
    Statement (.strReg w rm rn rt) :=
  (layoutRegOffset_and_BFE0FC00 w false rm rn rt).trans rfl

theorem ldrLit (w : Width) (simm19 : BitVec 19) (rt : RegIdx) :
    Statement (.ldrLit w simm19 rt) :=
  (layoutLiteral_and_BF000000 w simm19 rt).trans rfl

theorem b (simm26 : BitVec 26) :
    Statement (.b simm26) :=
  (layoutBranch_and_FC000000 simm26).trans rfl

theorem bCond (simm19 : BitVec 19) (cond : Cond) :
    Statement (.bCond simm19 cond) :=
  (layoutCondBranch_and_FF000010 simm19 cond).trans rfl

theorem br (rn : RegIdx) :
    Statement (.br rn) :=
  (layoutRegBranch_and_FFFFFC1F rn).trans rfl

theorem cmpImm (w : Width) (sh : Bool) (imm12 : BitVec 12) (rn : RegIdx) :
    Statement (.cmpImm w sh imm12 rn) :=
  (layoutArithImm_and_7F80001F w 0b11#2 sh imm12 rn zr).trans rfl

theorem cmnImm (w : Width) (sh : Bool) (imm12 : BitVec 12) (rn : RegIdx) :
    Statement (.cmnImm w sh imm12 rn) :=
  (layoutArithImm_and_7F80001F w 0b01#2 sh imm12 rn zr).trans rfl

theorem negImm (w : Width) (sh : Bool) (imm12 : BitVec 12) (rd : RegIdx) :
    Statement (.negImm w sh imm12 rd) :=
  (layoutArithImm_and_7F8003E0 w 0b10#2 sh imm12 zr rd).trans rfl

theorem negsImm (w : Width) (sh : Bool) (imm12 : BitVec 12) (rd : RegIdx) :
    Statement (.negsImm w sh imm12 rd) :=
  (layoutArithImm_and_7F8003E0 w 0b11#2 sh imm12 zr rd).trans rfl

theorem cmpReg (w : Width) (shift : ShiftKind) (rm : RegIdx) (imm6 : BitVec 6) (rn : RegIdx) :
    Statement (.cmpReg w shift rm imm6 rn) :=
  (layoutArithReg_and_7F20001F w 0b11#2 shift rm imm6 rn zr).trans rfl

theorem cmnReg (w : Width) (shift : ShiftKind) (rm : RegIdx) (imm6 : BitVec 6) (rn : RegIdx) :
    Statement (.cmnReg w shift rm imm6 rn) :=
  (layoutArithReg_and_7F20001F w 0b01#2 shift rm imm6 rn zr).trans rfl

theorem negReg (w : Width) (shift : ShiftKind) (rm : RegIdx) (imm6 : BitVec 6) (rd : RegIdx) :
    Statement (.negReg w shift rm imm6 rd) :=
  (layoutArithReg_and_7F2003E0 w 0b10#2 shift rm imm6 zr rd).trans rfl

theorem negsReg (w : Width) (shift : ShiftKind) (rm : RegIdx) (imm6 : BitVec 6) (rd : RegIdx) :
    Statement (.negsReg w shift rm imm6 rd) :=
  (layoutArithReg_and_7F2003E0 w 0b11#2 shift rm imm6 zr rd).trans rfl

theorem tst (w : Width) (shift : ShiftKind) (rm : RegIdx) (imm6 : BitVec 6) (rn : RegIdx) :
    Statement (.tst w shift rm imm6 rn) :=
  (layoutLogicReg_and_7F20001F w 0b11#2 false shift rm imm6 rn zr).trans rfl

theorem mvn (w : Width) (shift : ShiftKind) (rm : RegIdx) (imm6 : BitVec 6) (rd : RegIdx) :
    Statement (.mvn w shift rm imm6 rd) :=
  (layoutLogicReg_and_7F2003E0 w 0b01#2 true shift rm imm6 zr rd).trans rfl

theorem mov (w : Width) (rm rd : RegIdx) :
    Statement (.mov w rm rd) :=
  (layoutLogicReg_and_7FE0FFE0 w 0b01#2 false .lsl rm 0#6 zr rd).trans rfl

theorem mul (w : Width) (rm rn rd : RegIdx) :
    Statement (.mul w rm rn rd) :=
  (layoutMultiply_and_7FE0FC00 w false rm zr rn rd).trans rfl

theorem mneg (w : Width) (rm rn rd : RegIdx) :
    Statement (.mneg w rm rn rd) :=
  (layoutMultiply_and_7FE0FC00 w true rm zr rn rd).trans rfl

theorem bEq (simm19 : BitVec 19) :
    Statement (.bEq simm19) :=
  (layoutCondBranch_and_FF00001F simm19 .eq).trans rfl

theorem bNe (simm19 : BitVec 19) :
    Statement (.bNe simm19) :=
  (layoutCondBranch_and_FF00001F simm19 .ne).trans rfl

theorem bGe (simm19 : BitVec 19) :
    Statement (.bGe simm19) :=
  (layoutCondBranch_and_FF00001F simm19 .ge).trans rfl

theorem bLt (simm19 : BitVec 19) :
    Statement (.bLt simm19) :=
  (layoutCondBranch_and_FF00001F simm19 .lt).trans rfl

theorem bGt (simm19 : BitVec 19) :
    Statement (.bGt simm19) :=
  (layoutCondBranch_and_FF00001F simm19 .gt).trans rfl

theorem bLe (simm19 : BitVec 19) :
    Statement (.bLe simm19) :=
  (layoutCondBranch_and_FF00001F simm19 .le).trans rfl

theorem bAl (simm19 : BitVec 19) :
    Statement (.bAl simm19) :=
  (layoutCondBranch_and_FF00001F simm19 .al).trans rfl

end EncodeMatchesRow

end Sys2Proof.Laws
end

