-- ==== Sys2Proof/Laws/Run.lean ====
section
/-! SUPPORT. Runs, the exit status, and the short way to the report's memory words. -/

namespace Sys2Proof.Machine

/-! ## Runs -/

/-- A run of a running machine begins with a step (40_execution_cycle.md R167). -/
theorem runFor_succ (k : Nat) {s : State} (hr : s.run = .running) :
    runFor (k + 1) s = match step s with
      | .next t => runFor k t
      | .fault f => .fault f
      | .refused r => .refused r := by
  cases h : step s <;> simp only [runFor, hr, h]

/-- A run of a machine that is not running stays where it is (10_state.md R40). -/
theorem runFor_of_not_running (k : Nat) {s : State} (hr : s.run ≠ .running) :
    runFor k s = .next s := by
  cases k with
  | zero => rfl
  | succ k => rw [runFor]; cases h : s.run <;> simp_all

/-- A halted run shows its report and exits with 0 (70_reset_and_hazards.md R412, R413). -/
theorem exitStatus_halted {t : State} (h : t.run = .halted) :
    observe (.next t) = .halted (report t) ∧ exitStatus (observe (.next t)) = some 0 := by
  simp [observe, h, exitStatus]

/-- A faulted run exits nonzero, whatever the free value is (70_reset_and_hazards.md R412). -/
theorem exitStatus_failed (f : Fault) :
    ∃ n, exitStatus (observe (.fault f)) = some n ∧ n ≠ 0 :=
  ⟨_, rfl, Nat.succ_ne_zero _⟩

/-! ## The report's memory words -/

/-- The indices of the listed bytes' words, each of them once and ascending. -/
theorem listedWordIndices_spec {m : Memory} (hm : m.Pairwise (fun c d => c.1 < d.1)) :
    (listedWordIndices m).Pairwise (· < ·) ∧
      ∀ k, k ∈ listedWordIndices m ↔ ∃ c ∈ m, c.1 / 4 = k := by
  induction m with
  | nil => simp [listedWordIndices]
  | cons c m ih =>
    rw [List.pairwise_cons] at hm
    obtain ⟨hp, hk⟩ := ih hm.2
    have low : ∀ k ∈ listedWordIndices m, c.1 / 4 ≤ k := fun k h => by
      obtain ⟨d, hd, rfl⟩ := (hk k).1 h
      exact Nat.div_le_div_right (Nat.le_of_lt (hm.1 d hd))
    simp only [listedWordIndices]
    split
    · rename_i h
      rw [h] at hk
      refine ⟨List.pairwise_singleton _ _, fun k => ?_⟩
      have := hk k
      simp only [List.not_mem_nil, false_iff] at this
      rw [List.mem_singleton]
      simp only [List.mem_cons, or_and_right, exists_or, exists_eq_left, this, or_false]
      exact eq_comm
    · rename_i j js h
      rw [h] at hp hk low
      split
      · rename_i e
        refine ⟨hp, fun k => ?_⟩
        simp only [List.mem_cons (a := _) (b := c), or_and_right, exists_or, exists_eq_left, ← hk k]
        exact ⟨.inr, fun h => h.elim (fun h => by simp [← h, e]) id⟩
      · rename_i e
        rw [List.pairwise_cons] at hp
        have lt : c.1 / 4 < j := Nat.lt_of_le_of_ne (low j (by simp)) e
        refine ⟨List.pairwise_cons.2 ⟨fun k hk' => ?_, List.pairwise_cons.2 hp⟩, fun k => ?_⟩
        · rcases List.mem_cons.1 hk' with rfl | hk'
          · exact lt
          · exact Nat.lt_trans lt (hp.1 k hk')
        · rw [List.mem_cons (b := c.1 / 4), hk k]
          simp only [List.mem_cons (b := c), or_and_right, exists_or, exists_eq_left]
          exact or_congr_left eq_comm

/-- A listed byte reads as itself. -/
theorem Memory.readByte_of_mem {m : Memory} (hm : m.Pairwise (fun c d => c.1 < d.1)) {c : Host.Cell}
    (h : c ∈ m) : m.readByte c.1 = c.2 := by
  induction m with
  | nil => simp at h
  | cons d m ih =>
    rw [List.pairwise_cons] at hm
    rcases List.mem_cons.1 h with rfl | h
    · simp [Memory.readByte]
    · have := hm.1 c h
      rw [Memory.readByte, if_neg (by omega)]
      exact ih hm.2 h

/-- An address whose byte is not the unlisted one is listed. -/
theorem Memory.mem_of_readByte {m : Memory} {a : Nat} (h : m.readByte a ≠ unlistedByte) :
    ∃ c ∈ m, c.1 = a := by
  induction m with
  | nil => simp at h
  | cons d m ih =>
    rw [Memory.readByte] at h
    split at h
    · exact ⟨d, by simp, ‹_›⟩
    · obtain ⟨c, hc, e⟩ := ih h
      exact ⟨c, by simp [hc], e⟩

/-- A word is not zero exactly when one of its bytes is listed. -/
theorem Memory.read_ne_zero_iff {m : Memory} (hm : m.wf) (k : Nat) :
    m.read (4 * k) .w32 ≠ 0#32 ↔ ∃ c ∈ m, c.1 / 4 = k := by
  have byte : ∀ j, j < 4 → byteAt (m.read (4 * k) .w32) j = m.readByte (4 * k + j) :=
    fun j hj => Memory.byteAt_read m (4 * k) .w32 hj
  constructor
  · intro h
    by_contra hn
    refine h (eq_of_byteAt (w := .w32) fun j hj => ?_)
    rw [Memory.byteAt_read _ _ _ hj]
    by_contra hb
    obtain ⟨c, hc, e⟩ := Memory.mem_of_readByte (m := m) (a := 4 * k + j)
      (fun h0 => hb (h0.trans (by simp [byteAt])))
    have hj' : j < 4 := hj
    exact hn ⟨c, hc, by omega⟩
  · rintro ⟨c, hc, rfl⟩ h
    have := byte (c.1 % 4) (Nat.mod_lt _ (by decide))
    rw [h, show 4 * (c.1 / 4) + c.1 % 4 = c.1 by omega, Memory.readByte_of_mem hm.1 hc] at this
    exact (hm.2 c hc).1 (this.symm.trans (by simp [byteAt]))

/-- The short way to the report's words is the walk over every aligned address. -/
theorem listedWords_eq_nonzeroWords {m : Memory} (hm : m.wf) : listedWords m = nonzeroWords m := by
  obtain ⟨hp, hk⟩ := listedWordIndices_spec hm.1
  have e : listedWordIndices m =
      (List.range (memSize / 4)).filter fun k => m.read (4 * k) .w32 ≠ 0#32 := by
    refine List.Perm.eq_of_pairwise (le := (· < ·)) (fun a b _ _ h1 h2 => absurd h1 (by omega)) hp
      (List.Pairwise.filter _ List.pairwise_lt_range) ?_
    refine (List.perm_ext_iff_of_nodup (hp.imp (fun h => Nat.ne_of_lt h))
      (List.Nodup.filter _ List.nodup_range)).2 fun k => ?_
    simp only [List.mem_filter, List.mem_range, decide_eq_true_eq, hk k,
      Memory.read_ne_zero_iff hm k]
    refine ⟨fun h => ⟨?_, h⟩, fun h => h.2⟩
    obtain ⟨c, hc, rfl⟩ := h
    have := (hm.2 c hc).2
    have : memSize = 0x200000 := rfl
    omega
  rw [listedWords, e, nonzeroWords, ← List.filterMap_eq_map, List.filterMap_filter]
  congr 1
  funext k
  by_cases h : m.read (4 * k) .w32 = 0#32 <;> simp [h]

end Sys2Proof.Machine
end

