-- ==== Sys2Proof/Tests/Slice0.lean ====
section
/-! SUPPORT. The model's own tests. Words, starts and results are those of spec/95_test_vectors.md and
the examples of the instruction rules, unless a comment says otherwise. -/

namespace Sys2Proof.Tests

open Sys2Proof.Machine

/-! ## Helpers -/

/-- Reset with some registers, flags `N:Z:C:V` and a PC. -/
def start (regs : List (RegIdx × DWord)) (nzcv : BitVec 4) (pc : DWord) : State :=
  { regs.foldl (fun s p => s.setX p.1 p.2) State.reset with
    flags := ⟨nzcv.getLsbD 3, nzcv.getLsbD 2, nzcv.getLsbD 1, nzcv.getLsbD 0⟩
    pc := pc }

/-- A state with 8 bytes of memory written. -/
def withMem (s : State) (a : Nat) (v : DWord) : State :=
  { s with mem := s.mem.write a .w64 v }

/-- One step at a state whose PC holds a word. -/
def stepWord (v : Word) (s : State) : Result :=
  step { s with mem := s.mem.write s.pc.toNat .w32 v }

/-- The outcome is a next state with these registers, flags and PC. -/
def gives (r : Result) (regs : List (RegIdx × DWord)) (nzcv : BitVec 4) (pc : DWord) : Bool :=
  match r with
  | .next t => regs.all (fun p => t.x p.1 == p.2) && t.flags.nzcv == nzcv && t.pc == pc
  | .fault _ => false
  | .refused _ => false

/-- The outcome is a next state with these bytes from an address on. -/
def holds (r : Result) (a : Nat) (bytes : List Byte) : Bool :=
  match r with
  | .next t => (List.range bytes.length).map (fun k => t.mem.readByte (a + k)) == bytes
  | .fault _ => false
  | .refused _ => false

/-- The outcome is this fault. -/
def faults (r : Result) (f : Fault) : Bool :=
  match r with
  | .next _ => false
  | .fault g => g == f
  | .refused _ => false

/-- The outcome is the refusal of a step that does not exist. -/
def refusesStep (r : Result) : Bool :=
  match r with
  | .next _ => false
  | .fault _ => false
  | .refused e => e == .noStep

/-- The value the load and store vectors use. -/
def V : DWord := 0x8877665544332211#64

/-! ## WellFormed: one ill-formed term for each check -/

theorem test_wf_refuses_halfword :
    (Instr.movz .w32 2#2 1#16 0#5).wf = false ∧ (Instr.movz .w32 1#2 1#16 0#5).wf = true ∧
      (Instr.movk .w64 3#2 1#16 0#5).wf = true := by decide

theorem test_wf_refuses_amount :
    (Instr.orrReg .w32 .lsl 2#5 32#6 1#5 0#5).wf = false ∧
      (Instr.orrReg .w32 .lsl 2#5 31#6 1#5 0#5).wf = true ∧
      (Instr.orrReg .w64 .lsl 2#5 63#6 1#5 0#5).wf = true := by decide

theorem test_wf_refuses_rotated_arithmetic :
    (Instr.addReg .w64 .ror 2#5 0#6 1#5 0#5).wf = false ∧
      (Instr.cmpReg .w64 .ror 2#5 0#6 1#5).wf = false ∧
      (Instr.eorReg .w64 .ror 2#5 0#6 1#5 0#5).wf = true := by decide

theorem test_wf_refuses_terminate_spelling :
    (Instr.andReg .w64 .lsl 0#5 0#6 0#5 0#5).wf = false ∧
      (Instr.andReg .w64 .lsl 0#5 0#6 0#5 1#5).wf = true ∧
      (Instr.andReg .w32 .lsl 0#5 0#6 0#5 0#5).wf = true := by decide

/-! ## Decoding: every row, its word written out from its encoding -/

theorem test_decode_dp_immediate :
    decode 0b1_00_100010_1_000000000001_00001_00000#32 = .ok (.addImm .w64 true 1#12 1#5 0#5) ∧
    decode 0b0_01_100010_0_000000000010_00001_00011#32 = .ok (.addsImm .w32 false 2#12 1#5 3#5) ∧
    decode 0b1_10_100010_0_111111111111_00001_00000#32
      = .ok (.subImm .w64 false 0xFFF#12 1#5 0#5) ∧
    decode 0b1_11_100010_0_000000000101_00001_11111#32 = .ok (.subsImm .w64 false 5#12 1#5 31#5) ∧
    decode 0b1_00_100101_01_0000000000010010_00000#32 = .ok (.movn .w64 1#2 0x12#16 0#5) ∧
    decode 0b1_10_100101_11_0001001000110100_00000#32 = .ok (.movz .w64 3#2 0x1234#16 0#5) ∧
    decode 0b0_11_100101_00_1011111011101111_00000#32 = .ok (.movk .w32 0#2 0xBEEF#16 0#5) := by
  decide

theorem test_decode_arithmetic_register :
    decode 0b1_00_01011_00_0_00010_000100_00001_00000#32
      = .ok (.addReg .w64 .lsl 2#5 4#6 1#5 0#5) ∧
    decode 0b0_01_01011_01_0_00010_011111_00001_00000#32
      = .ok (.addsReg .w32 .lsr 2#5 31#6 1#5 0#5) ∧
    decode 0b1_10_01011_10_0_00010_111111_00001_00000#32
      = .ok (.subReg .w64 .asr 2#5 63#6 1#5 0#5) ∧
    decode 0b1_11_01011_00_0_00000_000000_00000_00000#32
      = .ok (.subsReg .w64 .lsl 0#5 0#6 0#5 0#5) := by decide

theorem test_decode_logical :
    decode 0b1_00_01010_00_0_00000_000000_00000_00001#32
      = .ok (.andReg .w64 .lsl 0#5 0#6 0#5 1#5) ∧
    decode 0b1_00_01010_00_1_00010_000000_00001_00000#32
      = .ok (.bicReg .w64 .lsl 2#5 0#6 1#5 0#5) ∧
    decode 0b1_01_01010_11_0_00001_000100_11111_00000#32
      = .ok (.orrReg .w64 .ror 1#5 4#6 31#5 0#5) ∧
    decode 0b0_01_01010_00_1_00001_000000_11111_00000#32
      = .ok (.ornReg .w32 .lsl 1#5 0#6 31#5 0#5) ∧
    decode 0b0_10_01010_11_0_00010_001000_00001_00000#32
      = .ok (.eorReg .w32 .ror 2#5 8#6 1#5 0#5) ∧
    decode 0b1_10_01010_10_1_00010_000000_00001_00000#32
      = .ok (.eonReg .w64 .asr 2#5 0#6 1#5 0#5) ∧
    decode 0b1_11_01010_00_0_00010_000000_00001_11111#32
      = .ok (.andsReg .w64 .lsl 2#5 0#6 1#5 31#5) ∧
    decode 0b0_11_01010_01_1_00010_000001_00001_00000#32
      = .ok (.bicsReg .w32 .lsr 2#5 1#6 1#5 0#5) := by decide

theorem test_decode_multiply :
    decode 0b1_00_11011000_00010_0_00011_00001_00000#32 = .ok (.madd .w64 2#5 3#5 1#5 0#5) ∧
    decode 0b0_00_11011000_00010_1_11111_00001_00000#32 = .ok (.msub .w32 2#5 31#5 1#5 0#5) := by
  decide

theorem test_decode_load_store :
    decode 0b1_1_111_0_0_1_0_1_000000000001_00001_00000#32 = .ok (.ldrUoff .w64 1#12 1#5 0#5) ∧
    decode 0b1_0_111_0_0_1_0_0_000000000001_00001_00000#32 = .ok (.strUoff .w32 1#12 1#5 0#5) ∧
    decode 0b1_1_111_0_0_0_0_1_0_111111000_1_1_00001_00000#32
      = .ok (.ldrPre .w64 0x1F8#9 1#5 0#5) ∧
    decode 0b1_1_111_0_0_0_0_0_0_000010000_1_1_00001_00000#32
      = .ok (.strPre .w64 16#9 1#5 0#5) ∧
    decode 0b1_1_111_0_0_0_0_1_0_111111000_0_1_00001_00000#32
      = .ok (.ldrPost .w64 0x1F8#9 1#5 0#5) ∧
    decode 0b1_0_111_0_0_0_0_0_0_011111111_0_1_00001_00000#32
      = .ok (.strPost .w32 255#9 1#5 0#5) ∧
    decode 0b1_1_111_0_0_0_0_1_1_00010_011010_00001_00000#32 = .ok (.ldrReg .w64 2#5 1#5 0#5) ∧
    decode 0b1_0_111_0_0_0_0_0_1_11111_011010_00001_00000#32 = .ok (.strReg .w32 31#5 1#5 0#5) ∧
    decode 0b0_0_011000_1111111111111111111_00000#32 = .ok (.ldrLit .w32 0x7FFFF#19 0#5) := by
  decide

theorem test_decode_branch :
    decode 0b000101_11111111111111111111111100#32 = .ok (.b 0x3FFFFFC#26) ∧
    decode 0b01010100_0000000000000000011_0_0000#32 = .ok (.bCond 3#19 .eq) ∧
    decode 0b1101011_0000_11111_000000_11110_00000#32 = .ok (.br 30#5) ∧
    decode 0x8A000000#32 = .ok .halt := by decide

/-- The alias rows: the word `encode` gives is the spec's, and it decodes as the canonical
instruction (30_encoding.md R136). -/
theorem test_alias_words_immediate :
    encode (.cmpImm .w64 false 5#12 1#5) = 0xF100143F#32 ∧
    decode 0xF100143F#32 = .ok (.subsImm .w64 false 5#12 1#5 31#5) ∧
    encode (.cmnImm .w64 false 1#12 1#5) = 0xB100043F#32 ∧
    decode 0xB100043F#32 = .ok (.addsImm .w64 false 1#12 1#5 31#5) ∧
    encode (.negImm .w64 false 1#12 0#5) = 0xD10007E0#32 ∧
    decode 0xD10007E0#32 = .ok (.subImm .w64 false 1#12 31#5 0#5) ∧
    encode (.negsImm .w64 false 0#12 0#5) = 0xF10003E0#32 ∧
    decode 0xF10003E0#32 = .ok (.subsImm .w64 false 0#12 31#5 0#5) := by decide

theorem test_alias_words_register :
    encode (.cmpReg .w64 .lsl 2#5 0#6 1#5) = 0xEB02003F#32 ∧
    encode (.cmnReg .w64 .lsl 2#5 0#6 1#5) = 0xAB02003F#32 ∧
    encode (.negReg .w64 .lsl 1#5 0#6 0#5) = 0xCB0103E0#32 ∧
    encode (.negsReg .w64 .lsl 1#5 0#6 0#5) = 0xEB0103E0#32 ∧
    encode (.tst .w64 .lsl 2#5 0#6 1#5) = 0xEA02003F#32 ∧
    encode (.mvn .w32 .lsl 1#5 0#6 0#5) = 0x2A2103E0#32 ∧
    encode (.mov .w64 5#5 0#5) = 0xAA0503E0#32 ∧
    encode (.mul .w64 2#5 1#5 0#5) = 0x9B027C20#32 ∧
    encode (.mneg .w64 2#5 1#5 0#5) = 0x9B02FC20#32 ∧
    decode 0xAA0503E0#32 = .ok (.orrReg .w64 .lsl 5#5 0#6 31#5 0#5) ∧
    decode 0x9B027C20#32 = .ok (.madd .w64 2#5 31#5 1#5 0#5) := by decide

theorem test_alias_words_branch :
    encode (.bEq 4#19) = 0x54000080#32 ∧ encode (.bNe 4#19) = 0x54000081#32 ∧
    encode (.bGe 4#19) = 0x5400008A#32 ∧ encode (.bLt 4#19) = 0x5400008B#32 ∧
    encode (.bGt 4#19) = 0x5400008C#32 ∧ encode (.bLe 4#19) = 0x5400008D#32 ∧
    encode (.bAl 4#19) = 0x5400008E#32 ∧
    decode 0x5400008E#32 = .ok (.bCond 4#19 .al) := by decide

theorem test_decode_faults_category_and_shift :
    decode 0x00000000#32 = .error .category ∧ decode 0x54000002#32 = .error .condition ∧
    decode 0x5400000F#32 = .error .condition ∧ decode 0x54000010#32 = .error .unallocated ∧
    decode 0x8BC20020#32 = .error .illegalShift ∧ decode 0x8BC20C20#32 = .error .illegalShift ∧
    decode 0xEBC20020#32 = .error .illegalShift ∧ decode 0x0B028020#32 = .error .unallocated ∧
    decode 0x2A028020#32 = .error .unallocated ∧ decode 0x12C00000#32 = .error .unallocated ∧
    decode 0x32800000#32 = .error .unallocated ∧ decode 0x92400000#32 = .error .unallocated := by
  decide

theorem test_decode_faults_unallocated :
    decode 0x9AC20C20#32 = .error .unallocated ∧ decode 0x9B220C20#32 = .error .unallocated ∧
    decode 0x94000000#32 = .error .unallocated ∧ decode 0xD63F0020#32 = .error .unallocated ∧
    decode 0xD65F03C0#32 = .error .unallocated ∧ decode 0xB4000000#32 = .error .unallocated ∧
    decode 0xD503201F#32 = .error .unallocated ∧ decode 0x39400020#32 = .error .unallocated ∧
    decode 0xF8400020#32 = .error .unallocated ∧ decode 0xF8624820#32 = .error .unallocated ∧
    decode 0xF8627820#32 = .error .unallocated ∧ decode 0x36000000#32 = .error .unallocated ∧
    decode 0xD61F0001#32 = .error .unallocated := by decide

/-- 43_load_store.md R329. -/
theorem test_decode_faults_load_store :
    decode 0xB8400000#32 = .error .unallocated ∧ decode 0xB8600800#32 = .error .unallocated ∧
    decode 0x38400420#32 = .error .unallocated ∧ decode 0x78400420#32 = .error .unallocated ∧
    decode 0xB8C00420#32 = .error .unallocated ∧ decode 0x98000000#32 = .error .unallocated ∧
    decode 0xF9800020#32 = .error .unallocated := by decide

/-! ## Fields and sign extension -/

theorem test_insert_extract :
    insertField 9 5 0#32 0x3F#32 = 0x3E0#32 ∧ slice 9 5 0x3E0#32 = 0x1F#5 ∧
    insertField 4 0 0xFFFFFFFF#32 0#32 = 0xFFFFFFE0#32 ∧ slice 20 16 0x8B010000#32 = 1#5 ∧
    slice 31 31 0x8B010000#32 = 1#1 := by decide

theorem test_sign_extension :
    sext 0x1FFFF#19 = 0x1FFFF#64 ∧ sext 0x7FFFF#19 = 0xFFFFFFFFFFFFFFFF#64 ∧
    sext 0x40000#19 = 0xFFFFFFFFFFFC0000#64 ∧ sext 0x2000000#26 = 0xFFFFFFFFFE000000#64 ∧
    sext 0x100#9 = 0xFFFFFFFFFFFFFF00#64 ∧ sext 0x0FF#9 = 0xFF#64 := by decide

/-! ## Data processing, immediate: one step each -/

theorem test_addImm_wraps_at_32 :
    gives (stepWord 0x11000420#32 (start [(1#5, 0xFFFFFFFFFFFFFFFF#64)] 0b0100#4 0#64))
      [(0#5, 0#64)] 0b0100#4 4#64 = true := by decide

theorem test_addImm_discards_to_zr :
    gives (stepWord 0x91001C3F#32 (start [(1#5, 1#64)] 0b0100#4 0#64))
      [(0#5, 0#64), (1#5, 1#64), (31#5, 0#64)] 0b0100#4 4#64 = true := by decide

theorem test_addsImm_overflow_at_32 :
    gives (stepWord 0x31000420#32 (start [(1#5, 0x7FFFFFFF#64)] 0b0000#4 0#64))
      [(0#5, 0x80000000#64)] 0b1001#4 4#64 = true := by decide

theorem test_addsImm_carry :
    gives (stepWord 0xB1000420#32 (start [(1#5, 0xFFFFFFFFFFFFFFFF#64)] 0b0000#4 0#64))
      [(0#5, 0#64)] 0b0110#4 4#64 = true := by decide

theorem test_subImm_borrows :
    gives (stepWord 0xD13FFC20#32 (start [] 0b0100#4 0#64))
      [(0#5, 0xFFFFFFFFFFFFF001#64)] 0b0100#4 4#64 = true := by decide

theorem test_subsImm_ignores_high_half :
    gives (stepWord 0x71000420#32 (start [(1#5, 0xFFFFFFFF80000000#64)] 0b0000#4 0#64))
      [(0#5, 0x7FFFFFFF#64)] 0b0011#4 4#64 = true := by decide

theorem test_movn_at_32 :
    gives (stepWord 0x12800000#32 (start [] 0b0100#4 0#64)) [(0#5, 0xFFFFFFFF#64)] 0b0100#4 4#64
      = true := by decide

theorem test_movz_top_halfword :
    gives (stepWord 0xD2E24680#32 (start [(0#5, 0xFFFFFFFFFFFFFFFF#64)] 0b0100#4 0#64))
      [(0#5, 0x1234000000000000#64)] 0b0100#4 4#64 = true := by decide

theorem test_movk_keeps :
    gives (stepWord 0xF2B7DDE0#32 (start [(0#5, 0x1122334455667788#64)] 0b0100#4 0#64))
      [(0#5, 0x11223344BEEF7788#64)] 0b0100#4 4#64 = true := by decide

theorem test_movk_at_32_clears_high_half :
    gives (stepWord 0x7297DDE0#32 (start [(0#5, 0x1111222233334444#64)] 0b0100#4 0#64))
      [(0#5, 0x3333BEEF#64)] 0b0100#4 4#64 = true := by decide

theorem test_cmpImm :
    gives (exec (.cmpImm .w64 false 5#12 1#5) (start [(1#5, 5#64)] 0b0000#4 0#64))
      [(1#5, 5#64), (31#5, 0#64)] 0b0110#4 4#64 = true := by decide

theorem test_cmnImm :
    gives (exec (.cmnImm .w64 false 1#12 1#5)
      (start [(1#5, 0x7FFFFFFFFFFFFFFF#64)] 0b0000#4 0#64)) [(1#5, 0x7FFFFFFFFFFFFFFF#64)]
      0b1001#4 4#64 = true := by decide

theorem test_negImm_is_not_sp_relative :
    gives (exec (.negImm .w64 false 1#12 0#5) (start [] 0b0100#4 0#64))
      [(0#5, 0xFFFFFFFFFFFFFFFF#64)] 0b0100#4 4#64 = true := by decide

theorem test_negsImm_of_zero :
    gives (exec (.negsImm .w64 false 0#12 0#5) (start [(0#5, 7#64)] 0b0000#4 0#64))
      [(0#5, 0#64)] 0b0110#4 4#64 = true := by decide

/-! ## Data processing, register: one step each -/

theorem test_addReg_asr :
    gives (stepWord 0x8B82FC20#32
      (start [(1#5, 1#64), (2#5, 0x8000000000000000#64)] 0b0100#4 0#64))
      [(0#5, 0#64)] 0b0100#4 4#64 = true := by decide

theorem test_addReg_asr_at_32 :
    gives (stepWord 0x0B827C20#32 (start [(2#5, 0x80000000#64)] 0b0100#4 0#64))
      [(0#5, 0xFFFFFFFF#64)] 0b0100#4 4#64 = true := by decide

theorem test_addsReg_carry_and_overflow :
    gives (stepWord 0xAB020020#32
      (start [(1#5, 0x8000000000000000#64), (2#5, 0x8000000000000000#64)] 0b0000#4 0#64))
      [(0#5, 0#64)] 0b0111#4 4#64 = true := by decide

theorem test_subReg_lsr_at_32 :
    gives (stepWord 0x4B420420#32 (start [(1#5, 10#64), (2#5, 8#64)] 0b0100#4 0#64))
      [(0#5, 6#64)] 0b0100#4 4#64 = true := by decide

theorem test_subsReg_borrow_at_32 :
    gives (stepWord 0x6B020020#32 (start [(2#5, 1#64)] 0b0000#4 0#64))
      [(0#5, 0xFFFFFFFF#64)] 0b1000#4 4#64 = true := by decide

theorem test_subsReg_of_itself :
    gives (stepWord 0xEB000000#32 State.reset) [(0#5, 0#64)] 0b0110#4 4#64 = true := by decide

theorem test_andReg :
    gives (stepWord 0x8A020020#32
      (start [(1#5, 0xFF00FF00FF00FF00#64), (2#5, 0x0FF00FF00FF00FF0#64)] 0b0100#4 0#64))
      [(0#5, 0x0F000F000F000F00#64)] 0b0100#4 4#64 = true := by decide

theorem test_bicReg :
    gives (stepWord 0x8A220020#32 (start [(1#5, 0xFF#64), (2#5, 0x0F#64)] 0b0100#4 0#64))
      [(0#5, 0xF0#64)] 0b0100#4 4#64 = true := by decide

theorem test_orrReg_lsl :
    gives (stepWord 0xAA022020#32 (start [(1#5, 1#64), (2#5, 0xAB#64)] 0b0100#4 0#64))
      [(0#5, 0xAB01#64)] 0b0100#4 4#64 = true := by decide

theorem test_ornReg :
    gives (stepWord 0xAA220020#32 (start [(2#5, 0xF#64)] 0b0100#4 0#64))
      [(0#5, 0xFFFFFFFFFFFFFFF0#64)] 0b0100#4 4#64 = true := by decide

theorem test_eorReg_ror_at_32 :
    gives (stepWord 0x4AC21020#32 (start [(2#5, 0xF#64)] 0b0100#4 0#64))
      [(0#5, 0xF0000000#64)] 0b0100#4 4#64 = true := by decide

theorem test_eonReg :
    gives (stepWord 0xCA220020#32 (start [(1#5, 0xFFFF#64), (2#5, 0xFF#64)] 0b0100#4 0#64))
      [(0#5, 0xFFFFFFFFFFFF00FF#64)] 0b0100#4 4#64 = true := by decide

theorem test_andsReg_clears_c_and_v :
    gives (stepWord 0xEA020020#32
      (start [(1#5, 0x8000000000000000#64), (2#5, 0xFFFFFFFFFFFFFFFF#64)] 0b0011#4 0#64))
      [(0#5, 0x8000000000000000#64)] 0b1000#4 4#64 = true := by decide

theorem test_bicsReg_at_32 :
    gives (stepWord 0x6A220020#32 (start [(1#5, 0x80000001#64), (2#5, 1#64)] 0b0111#4 0#64))
      [(0#5, 0x80000000#64)] 0b1000#4 4#64 = true := by decide

theorem test_madd_masks_inputs :
    gives (exec (.madd .w32 2#5 3#5 1#5 0#5)
      (start [(1#5, 0x100000002#64), (2#5, 3#64), (3#5, 0xFFFFFFFF#64)] 0b1011#4 0#64))
      [(0#5, 5#64)] 0b1011#4 4#64 = true := by decide

theorem test_msub :
    gives (stepWord 0x9B028C20#32
      (start [(1#5, 3#64), (2#5, 4#64), (3#5, 5#64)] 0b0100#4 0#64))
      [(0#5, 0xFFFFFFFFFFFFFFF9#64)] 0b0100#4 4#64 = true := by decide

theorem test_cmpReg_overflow :
    gives (exec (.cmpReg .w64 .lsl 2#5 0#6 1#5)
      (start [(1#5, 0x7FFFFFFFFFFFFFFF#64), (2#5, 0xFFFFFFFFFFFFFFFF#64)] 0b0000#4 0#64))
      [(31#5, 0#64)] 0b1001#4 4#64 = true := by decide

theorem test_cmnReg :
    gives (exec (.cmnReg .w64 .lsl 2#5 0#6 1#5)
      (start [(1#5, 1#64), (2#5, 0xFFFFFFFFFFFFFFFF#64)] 0b0000#4 0#64))
      [(31#5, 0#64)] 0b0110#4 4#64 = true := by decide

theorem test_negReg :
    gives (exec (.negReg .w64 .lsl 1#5 0#6 0#5) (start [(1#5, 5#64)] 0b0100#4 0#64))
      [(0#5, 0xFFFFFFFFFFFFFFFB#64)] 0b0100#4 4#64 = true := by decide

theorem test_negsReg_most_negative :
    gives (exec (.negsReg .w32 .lsl 1#5 0#6 0#5) (start [(1#5, 0x80000000#64)] 0b0000#4 0#64))
      [(0#5, 0x80000000#64)] 0b1001#4 4#64 = true := by decide

theorem test_tst :
    gives (exec (.tst .w64 .lsl 2#5 0#6 1#5)
      (start [(1#5, 0xF0#64), (2#5, 0x0F#64)] 0b1011#4 0#64))
      [(1#5, 0xF0#64), (31#5, 0#64)] 0b0100#4 4#64 = true := by decide

theorem test_mvn_at_32 :
    gives (exec (.mvn .w32 .lsl 1#5 0#6 0#5) (start [(1#5, 0xF#64)] 0b0100#4 0#64))
      [(0#5, 0xFFFFFFF0#64)] 0b0100#4 4#64 = true := by decide

theorem test_mov :
    gives (exec (.mov .w64 5#5 0#5) (start [(5#5, 0x123456789#64)] 0b0100#4 0#64))
      [(0#5, 0x123456789#64)] 0b0100#4 4#64 = true := by decide

theorem test_mul_at_32 :
    gives (exec (.mul .w32 2#5 1#5 0#5)
      (start [(1#5, 0x10000#64), (2#5, 0x10001#64)] 0b0100#4 0#64))
      [(0#5, 0x10000#64)] 0b0100#4 4#64 = true := by decide

theorem test_mneg :
    gives (exec (.mneg .w64 2#5 1#5 0#5) (start [(1#5, 3#64), (2#5, 4#64)] 0b0100#4 0#64))
      [(0#5, 0xFFFFFFFFFFFFFFF4#64)] 0b0100#4 4#64 = true := by decide

/-! ## Loads and stores: one step each -/

theorem test_ldrUoff_address_wraps :
    gives (stepWord 0xF9400420#32 (start [(1#5, 0xFFFFFFFFFFFFFFF8#64)] 0b0100#4 0#64))
      [(0#5, 0xF9400420#64)] 0b0100#4 4#64 = true := by decide

theorem test_ldrUoff_zero_extends :
    gives (stepWord 0xB9400420#32
      (withMem (start [(0#5, 0xFFFFFFFFFFFFFFFF#64), (1#5, 0x100#64)] 0b0100#4 0#64)
        0x100 0x89ABCDEFFFFFFFFF#64))
      [(0#5, 0x89ABCDEF#64)] 0b0100#4 4#64 = true := by decide

theorem test_strUoff_stores_low_half :
    holds (stepWord 0xB9000420#32 (start [(0#5, V), (1#5, 0x200#64)] 0b0100#4 0#64)) 0x200
      [0, 0, 0, 0, 0x11, 0x22, 0x33, 0x44, 0] = true := by decide

theorem test_ldrPre :
    gives (stepWord 0xF85F8C20#32 (withMem (start [(1#5, 0x108#64)] 0b0100#4 0#64) 0x100 V))
      [(0#5, V), (1#5, 0x100#64)] 0b0100#4 4#64 = true := by decide

theorem test_ldrPre_same_register :
    gives (stepWord 0xF8408C21#32 (withMem (start [(1#5, 0x100#64)] 0b0100#4 0#64) 0x108 V))
      [(1#5, V)] 0b0100#4 4#64 = true := by decide

theorem test_strPre_same_register :
    holds (stepWord 0xF8008C21#32 (start [(1#5, 0x100#64)] 0b0100#4 0#64)) 0x108
      [0x08, 0x01, 0, 0, 0, 0, 0, 0] = true := by decide

theorem test_ldrPost :
    gives (stepWord 0xF85F8420#32 (withMem (start [(1#5, 0x108#64)] 0b0100#4 0#64) 0x108 V))
      [(0#5, V), (1#5, 0x100#64)] 0b0100#4 4#64 = true := by decide

theorem test_ldrPost_same_register :
    gives (stepWord 0xF8408421#32 (withMem (start [(1#5, 0x100#64)] 0b0100#4 0#64) 0x100 V))
      [(1#5, 0x108#64)] 0b0100#4 4#64 = true := by decide

theorem test_strPost_same_register :
    holds (stepWord 0xF8008421#32 (start [(1#5, 0x100#64)] 0b0100#4 0#64)) 0x100
      [0x00, 0x01, 0, 0, 0, 0, 0, 0] = true := by decide

theorem test_strPost_base :
    gives (stepWord 0xB80FF420#32 (start [(0#5, V), (1#5, 0x100#64)] 0b0100#4 0#64))
      [(0#5, V), (1#5, 0x1FF#64)] 0b0100#4 4#64 = true := by decide

theorem test_ldrReg_negative_index :
    gives (stepWord 0xF8626820#32
      (withMem (start [(1#5, 0x120#64), (2#5, 0xFFFFFFFFFFFFFFE0#64)] 0b0100#4 0#64) 0x100 V))
      [(0#5, V)] 0b0100#4 4#64 = true := by decide

/-- 43_load_store.md R326: an unaligned address. -/
theorem test_ldrReg_unaligned :
    gives (stepWord 0xF8626820#32
      (withMem (withMem (start [(1#5, 0x101#64)] 0b0100#4 0#64) 0x100 V) 0x108 0xFF#64))
      [(0#5, 0xFF88776655443322#64)] 0b0100#4 4#64 = true := by decide

theorem test_strReg_index_zr :
    holds (stepWord 0xB83F6820#32 (start [(0#5, 0xDEADBEEF#64), (1#5, 0x300#64)] 0b0100#4 0#64))
      0x300 [0xEF, 0xBE, 0xAD, 0xDE, 0] = true := by decide

theorem test_ldrLit_backward :
    gives (stepWord 0x18FFFFE0#32
      (withMem (start [(0#5, 0xFFFFFFFFFFFFFFFF#64)] 0b0100#4 0x100#64) 0xF8
        0x1234567800000000#64))
      [(0#5, 0x12345678#64)] 0b0100#4 0x104#64 = true := by decide

theorem test_data_bounds :
    faults (stepWord 0xF9400420#32 (start [(1#5, 0x1FFFF8#64)] 0b0100#4 0#64))
      (.dataBounds 0x200000#64 8 0#64) = true ∧
    faults (stepWord 0x58FFFFC0#32 (start [] 0b0100#4 4#64))
      (.dataBounds 0xFFFFFFFFFFFFFFFC#64 8 4#64) = true := by decide

theorem test_last_bytes_are_in_bounds :
    gives (exec (.ldrUoff .w64 1#12 1#5 0#5)
      (withMem (start [(1#5, 0x1FFFF0#64)] 0b0100#4 0#64) 0x1FFFF8 V))
      [(0#5, V)] 0b0100#4 4#64 = true := by decide

/-! ## Branches, the terminate word and the fetch -/

theorem test_b_to_itself :
    gives (stepWord 0x14000000#32 (start [] 0b0100#4 0x20#64)) [] 0b0100#4 0x20#64 = true := by
  decide

theorem test_b_wraps :
    gives (stepWord 0x16000000#32 (start [] 0b0100#4 0x1000#64)) [] 0b0100#4
      0xFFFFFFFFF8001000#64 = true := by decide

theorem test_bCond_backward :
    gives (stepWord 0x54FFFF01#32 (start [] 0b0000#4 0x40#64)) [] 0b0000#4 0x20#64 = true := by
  decide

/-- Whether each of EQ, NE, GE, LT, GT, LE, AL is taken, from one flag value. -/
def takenAt (nzcv : BitVec 4) : List Bool :=
  let s := start [] nzcv 0#64
  [exec (.bEq 4#19) s, exec (.bNe 4#19) s, exec (.bGe 4#19) s, exec (.bLt 4#19) s,
    exec (.bGt 4#19) s, exec (.bLe 4#19) s, exec (.bAl 4#19) s].map
      fun r => gives r [] nzcv 0x10#64

/-- The truth table of 44_branch.md R341. -/
theorem test_condition_spellings :
    takenAt 0b0100#4 = [true, false, true, false, false, true, true] ∧
    takenAt 0b0000#4 = [false, true, true, false, true, false, true] ∧
    takenAt 0b1000#4 = [false, true, false, true, false, true, true] ∧
    takenAt 0b1001#4 = [false, true, true, false, true, false, true] ∧
    takenAt 0b0001#4 = [false, true, false, true, false, true, true] ∧
    takenAt 0b0101#4 = [true, false, false, true, false, true, true] ∧
    takenAt 0b1111#4 = [true, false, true, false, false, true, true] := by decide

theorem test_br_unaligned :
    gives (stepWord 0xD61F0020#32 (start [(1#5, 0x102#64)] 0b0100#4 8#64)) [] 0b0100#4 0x102#64
      = true := by decide

theorem test_halt :
    (match stepWord 0x8A000000#32 State.reset with
      | .next t => t.run == .halted && t.pc == 0#64
      | .fault _ => false
      | .refused _ => false) = true ∧
    gives (stepWord 0x8A000001#32 (start [(0#5, 5#64)] 0b0100#4 0#64)) [(1#5, 5#64)] 0b0100#4
      4#64 = true := by decide

theorem test_fetch :
    faults (step (start [] 0b0100#4 0x1FFFFC#64)) (.decodeCategory 0#32 0x1FFFFC#64) = true ∧
    faults (step (start [] 0b0100#4 0x1FFFFE#64)) (.fetchBounds 0x1FFFFE#64) = true ∧
    faults (step (start [] 0b0100#4 0x7FFFFFC#64)) (.fetchBounds 0x7FFFFFC#64) = true ∧
    gives (stepWord 0xD2800020#32 (start [] 0b0100#4 0x102#64)) [(0#5, 1#64)] 0b0100#4 0x106#64
      = true ∧
    faults (stepWith true (start [] 0b0100#4 0x102#64)) (.fetchAlign 0x102#64) = true := by decide

theorem test_no_step_after_the_end :
    refusesStep (step { State.reset with run := .halted }) = true ∧
    refusesStep (step { State.reset with run := .failed (.fetchBounds 0#64) }) = true := by decide

/-- 10_state.md R43: the reset flags are `-Z--`, and the report shows them so (R410). -/
theorem test_reset_flag_mask : flagMask State.reset.flags = ['-', 'Z', '-', '-'] := by decide

/-- 70_reset_and_hazards.md R410: one 8-byte value shows as its two words, a zero word not at all. -/
theorem test_report_words :
    listedWords (withMem (withMem State.reset 0x100 V) 0x108 0x5500000000#64).mem =
      [(0x100, 0x44332211#32), (0x104, 0x88776655#32), (0x10C, 0x55#32)] := by decide

/-- A word of the opcode table laid out and read back, and run as the first instruction. -/
theorem test_table_word :
    decodeTableWord 32 0x91000000 = some (.addImm .w64 false 0#12 0#5 0#5) ∧
    gives (step (State.reset.withFetchWord 32 0xD28000A0)) [(0#5, 5#64)] 0b0100#4 4#64 = true := by
  decide

/-! ## The assembler's encoder -/

theorem test_assemble_arithmetic :
    encodeAsm ⟨.add, [.reg .w64 0, .reg .w64 31, .imm 0xFFF, .shift .lsl 12]⟩ 0
      = .ok 0x917FFFE0#32 ∧
    encodeAsm ⟨.add, [.reg .w64 0, .reg .w64 1, .imm 4096]⟩ 0 = .error .eRange ∧
    encodeAsm ⟨.add, [.reg .w64 0, .reg .w64 1, .imm 1, .shift .lsl 8]⟩ 0 = .error .eRange ∧
    encodeAsm ⟨.movz, [.reg .w32 0, .imm 1, .shift .lsl 32]⟩ 0 = .error .eRange ∧
    encodeAsm ⟨.movz, [.reg .w64 0, .imm 0x10000]⟩ 0 = .error .eRange ∧
    encodeAsm ⟨.add, [.reg .w64 0, .reg .w32 1, .imm 1]⟩ 0 = .error .eSyntax ∧
    encodeAsm ⟨.cmp, [.reg .w64 1, .imm 5]⟩ 0 = .ok 0xF100143F#32 ∧
    encodeAsm ⟨.neg, [.reg .w64 0, .imm 1]⟩ 0 = .ok 0xD10007E0#32 := by decide

/-- 92_eei_decisions.md D29, D30: a shift other than those the fields hold is `E_RANGE`; D39: `ror` on
an arithmetic mnemonic is `E_SYNTAX`. -/
theorem test_assemble_immediate_shifts :
    encodeAsm ⟨.add, [.reg .w64 0, .reg .w64 1, .imm 1, .shift .lsr 12]⟩ 0 = .error .eRange ∧
    encodeAsm ⟨.cmp, [.reg .w64 1, .imm 1, .shift .asr 0]⟩ 0 = .error .eRange ∧
    encodeAsm ⟨.add, [.reg .w64 0, .reg .w64 1, .imm 1, .shift .ror 12]⟩ 0 = .error .eSyntax ∧
    encodeAsm ⟨.movk, [.reg .w64 0, .imm 1, .shift .lsr 16]⟩ 0 = .error .eRange ∧
    encodeAsm ⟨.movz, [.reg .w64 1, .imm 0x1234, .shift .lsl 48]⟩ 0 = .ok 0xD2E24681#32 := by
  decide

theorem test_assemble_register :
    encodeAsm ⟨.cmp, [.reg .w32 1, .reg .w32 2]⟩ 0 = .ok 0x6B02003F#32 ∧
    encodeAsm ⟨.add, [.reg .w64 0, .reg .w64 1, .reg .w64 2, .shift .ror 1]⟩ 0
      = .error .eSyntax ∧
    encodeAsm ⟨.add, [.reg .w64 0, .reg .w64 1, .reg .w64 2, .shift .lsl 64]⟩ 0
      = .error .eRange ∧
    encodeAsm ⟨.add, [.reg .w32 0, .reg .w32 1, .reg .w32 2, .shift .lsl 32]⟩ 0
      = .error .eRange ∧
    encodeAsm ⟨.madd, [.reg .w64 0, .reg .w64 1, .reg .w64 2, .reg .w64 3, .shift .lsl 1]⟩ 0
      = .error .eSyntax ∧
    encodeAsm ⟨.and, [.reg .w64 0, .reg .w64 1, .imm 1]⟩ 0 = .error .eSyntax ∧
    encodeAsm ⟨.add, [.reg .w64 0, .reg .w64 1, .reg .w32 2]⟩ 0 = .error .eSyntax ∧
    encodeAsm ⟨.and, [.reg .w64 0, .reg .w64 0, .reg .w64 0]⟩ 0 = .ok 0x8A000000#32 ∧
    encodeAsm ⟨.mneg, [.reg .w64 0, .reg .w64 1, .reg .w64 2]⟩ 0 = .ok 0x9B02FC20#32 := by decide

theorem test_assemble_transfer :
    encodeAsm ⟨.ldr, [.reg .w64 0, .offset .w64 1 0]⟩ 0 = .ok 0xF9400020#32 ∧
    encodeAsm ⟨.ldr, [.reg .w32 0, .offset .w64 1 16380]⟩ 0 = .ok 0xB97FFC20#32 ∧
    encodeAsm ⟨.ldr, [.reg .w64 0, .offset .w64 1 4]⟩ 0 = .error .eRange ∧
    encodeAsm ⟨.ldr, [.reg .w64 0, .offset .w64 1 32768]⟩ 0 = .error .eRange ∧
    encodeAsm ⟨.ldr, [.reg .w64 0, .preIndex .w64 1 (-256)]⟩ 0 = .ok 0xF8500C20#32 ∧
    encodeAsm ⟨.ldr, [.reg .w64 0, .preIndex .w64 1 (-257)]⟩ 0 = .error .eRange ∧
    encodeAsm ⟨.str, [.reg .w64 0, .postIndex .w64 1 256]⟩ 0 = .error .eRange ∧
    encodeAsm ⟨.ldr, [.reg .w64 0, .offset .w32 1 0]⟩ 0 = .error .eSyntax := by decide

theorem test_assemble_literal :
    encodeAsm ⟨.ldr, [.reg .w64 0, .imm 2]⟩ 0 = .error .eRange ∧
    encodeAsm ⟨.ldr, [.reg .w64 0, .imm 0x100000]⟩ 0 = .error .eRange ∧
    encodeAsm ⟨.ldr, [.reg .w64 0, .imm 0xFFFFC]⟩ 0 = .ok 0x587FFFE0#32 ∧
    encodeAsm ⟨.ldr, [.reg .w64 0, .imm 0]⟩ 0x100000 = .ok 0x58800000#32 ∧
    encodeAsm ⟨.str, [.reg .w64 0, .label 8]⟩ 0 = .error .eSyntax := by decide

/-- `b.cs` is none of the 37 mnemonics (95_test_vectors.md 2.4). -/
theorem test_assemble_mnemonics :
    mnemonicTable.length = 37 ∧ mnemonicOfText "b.cs" = .unknown "b.cs" ∧
    encodeAsm ⟨mnemonicOfText "b.cs", [.imm 8]⟩ 0 = .error .eSyntax ∧
    encodeAsm ⟨mnemonicOfText "b.ge", [.imm 0x10]⟩ 0 = .ok 0x5400008A#32 := by decide

theorem test_assemble_branch :
    encodeAsm ⟨.bCond .ne, [.imm 0xFFFFC]⟩ 0 = .ok 0x547FFFE1#32 ∧
    encodeAsm ⟨.bCond .ne, [.imm 0x100000]⟩ 0 = .error .eRange ∧
    encodeAsm ⟨.bCond .ne, [.imm 0]⟩ 0x100000 = .ok 0x54800001#32 ∧
    encodeAsm ⟨.b, [.imm 0x7FFFFFC]⟩ 0 = .ok 0x15FFFFFF#32 ∧
    encodeAsm ⟨.b, [.imm 0]⟩ 0x8000000 = .ok 0x16000000#32 ∧
    encodeAsm ⟨.b, [.imm 6]⟩ 0 = .error .eRange ∧
    encodeAsm ⟨.b, [.label 0xFFFFFFFF]⟩ 0 = .error .eUnresolved ∧
    encodeAsm ⟨.br, [.reg .w32 1]⟩ 0 = .error .eSyntax ∧
    encodeAsm ⟨.br, [.reg .w64 30]⟩ 0 = .ok 0xD61F03C0#32 := by decide

/-- Where an unresolved label stands in a shape not taken the kind is the model's choice (log entry
10); in its own place it is `E_UNRESOLVED` (44_branch.md R354). -/
theorem test_assemble_unresolved :
    encodeAsm ⟨.b, [.label 0xFFFFFFFF]⟩ 0 = .error .eUnresolved ∧
    encodeAsm ⟨.ldr, [.reg .w64 0, .label 0xFFFFFFFF]⟩ 0 = .error .eUnresolved ∧
    encodeAsm ⟨.str, [.reg .w64 0, .label 0xFFFFFFFF]⟩ 0 = .error .eSyntax ∧
    encodeAsm ⟨.br, [.label 0xFFFFFFFF]⟩ 0 = .error .eSyntax ∧
    encodeAsm ⟨.add, [.reg .w64 0, .reg .w64 1, .label 0xFFFFFFFF]⟩ 0 = .error .eSyntax := by decide

/-- 70_reset_and_hazards.md R412: the assembler's clean end exits with 0, an encode error does not. -/
theorem test_assembly_status :
    assemblyStatus (assemble [.directive 1]) = 0 ∧
      assemblyStatus (assemble [.instr ⟨.b, [.symbol "a"]⟩]) ≠ 0 :=
  ⟨rfl, Nat.succ_ne_zero _⟩

/-- The symbol table of 95_test_vectors.md 1.3: the second definition of a label wins, a directive
takes its literal modulo 2^32, and an undefined label is an error. -/
theorem test_assemble_source :
    assemble [.labelDef "a", .instr ⟨.movz, [.reg .w64 0, .imm 1]⟩, .labelDef "a",
      .instr ⟨.b, [.symbol "a"]⟩, .skip, .directive (-2)]
      = .ok [0xD2800020#32, 0x14000000#32, 0xFFFFFFFE#32] ∧
    assemble [.instr ⟨.b, [.symbol "a"]⟩] = .error .eUnresolved := by decide

/-! ## Witnesses: the hypotheses of each statement hold together somewhere -/

/-- The outcome is a next state. -/
def isNext (r : Result) : Bool :=
  match r with
  | .next _ => true
  | .fault _ => false
  | .refused _ => false

theorem next_of_isNext {r : Result} (h : isNext r = true) : ∃ t, r = .next t := by
  cases r with
  | next t => exact ⟨t, rfl⟩
  | fault f => cases h
  | refused e => cases h

theorem fault_of_faults {r : Result} {f : Fault} (h : faults r f = true) : r = .fault f := by
  cases r with
  | next t => cases h
  | fault g => exact congrArg _ (eq_of_beq h)
  | refused e => cases h

theorem witness_DecodeOfEncodeIsTheInstruction :
    (Instr.andReg .w64 .lsl 0#5 0#6 0#5 1#5).wf = true ∧
      (Instr.andReg .w64 .lsl 0#5 0#6 0#5 1#5).isCanonical = true := by decide

theorem witness_EncodeOfDecodedWordIsTheWord :
    decode 0x8A000001#32 = .ok (.andReg .w64 .lsl 0#5 0#6 0#5 1#5) := by decide

theorem witness_AliasesDecodeAndRunAsCanonical :
    (Instr.negImm .w64 true 0xFFF#12 30#5).wf = true ∧ (30#5 : RegIdx) ≠ zr := by decide

theorem witness_AcceptedWordsTakeExactlyOneRow :
    decode 0x8A000000#32 = .ok .halt ∧ (∃ r ∈ opcodeMap, r.takes 0x8A000000#32 = true) ∧
      ∃ r, r ∈ opcodeMap :=
  have h : (opcodeMap.any fun r => r.takes 0x8A000000#32) = true := by decide
  have h' := List.any_eq_true.mp h
  ⟨by decide, h', h'.imp fun _ p => p.1⟩

/-- The selector of a word. -/
def selector (v : Word) : Nat := v.toNat / 2 ^ 25 % 16

theorem witness_CategorySelectorDispatches :
    [0x11000000#32, 0x12800000#32].map selector = [8, 9] ∧
    [0x0B000000#32, 0x1B000000#32].map selector = [5, 13] ∧
    [0x08000000#32, 0x0C000000#32, 0x18000000#32, 0x1C000000#32].map selector = [4, 6, 12, 14] ∧
    [0x14000000#32, 0x16000000#32].map selector = [10, 11] ∧
    [0x00000000#32, 0x02000000#32, 0x04000000#32, 0x06000000#32, 0x0E000000#32,
      0x1E000000#32].map selector = [0, 1, 2, 3, 7, 15] ∧
    selector 0x8A000001#32 = 5 ∧ 0x8A000001#32 ≠ terminateWord := by decide

theorem witness_FieldInsertsObeyTheCodecLaws :
    (∃ n lo hi k : Nat, lo ≤ hi ∧ hi < n ∧ (k < lo ∨ hi < k) ∧ hi = 31 ∧ lo = 31) ∧
    (∃ n lo hi k : Nat, lo ≤ hi ∧ hi < n ∧ (k < lo ∨ hi < k) ∧ hi = 31 ∧ lo = 0) :=
  ⟨⟨32, 31, 31, 30, by decide⟩, ⟨32, 0, 31, 32, by decide⟩⟩

theorem witness_SignExtensionLaws :
    (1 ≤ 1 ∧ 1 ≤ 64) ∧ (1 ≤ 64 ∧ 64 ≤ 64) := by decide

theorem witness_ShiftFormulas : 31 < Width.w32.bits ∧ 63 < Width.w64.bits := by decide

theorem witness_MultiplyAccumulateFormulas :
    ∃ t, exec (.madd .w32 1#5 2#5 3#5 4#5) State.reset = .next t :=
  next_of_isNext (by decide)

theorem witness_ConditionsAfterCompare :
    arithShiftAllowed .asr = true ∧ amountFits .w32 31#6 = true ∧ amountFits .w64 63#6 = true := by
  decide

theorem witness_WidthAwareRegisterAccess : (30#5 : RegIdx) ≠ zr ∧ (zr : RegIdx) ≠ 30#5 := by decide

theorem witness_WideMoveResults :
    halfwordFits .w32 1#2 = true ∧ halfwordFits .w64 3#2 = true := by decide

theorem witness_ArithmeticRegisterResults :
    arithShiftAllowed .asr = true ∧ amountFits .w32 31#6 = true ∧ amountFits .w64 63#6 = true ∧
      (∃ a b, a = regNat State.reset .w32 30#5 ∧
        b = shiftNat .w32 .asr 31 (regNat State.reset .w32 zr)) :=
  ⟨by decide, by decide, by decide, _, _, rfl, rfl⟩

theorem witness_LogicalResults :
    amountFits .w32 31#6 = true ∧ amountFits .w64 63#6 = true ∧
      spellsTerminate .w64 .lsl 0#5 0#6 0#5 1#5 = false ∧
      (∃ a b, a = regNat State.reset .w64 0#5 ∧
        b = shiftNat .w64 .lsl 0 (regNat State.reset .w64 0#5)) :=
  ⟨by decide, by decide, by decide, _, _, rfl, rfl⟩

theorem witness_LogicalFlagResults :
    amountFits .w32 31#6 = true ∧ amountFits .w64 63#6 = true ∧
      (∃ a b, a = regNat State.reset .w64 30#5 ∧
        b = shiftNat .w64 .ror 63 (regNat State.reset .w64 30#5)) :=
  ⟨by decide, by decide, _, _, rfl, rfl⟩

theorem witness_CompareAliasResults :
    amountFits .w32 31#6 = true ∧ amountFits .w64 63#6 = true ∧ arithShiftAllowed .lsr = true ∧
      (∃ a b, a = regNat State.reset .w64 30#5 ∧
        b = shiftNat .w64 .lsr 63 (regNat State.reset .w64 30#5)) :=
  ⟨by decide, by decide, by decide, _, _, rfl, rfl⟩

theorem witness_NegateAliasResults :
    amountFits .w32 31#6 = true ∧ amountFits .w64 63#6 = true ∧ arithShiftAllowed .lsl = true ∧
      (∃ b, b = shiftNat .w64 .lsl 63 (regNat State.reset .w64 30#5)) :=
  ⟨by decide, by decide, by decide, _, rfl⟩

theorem witness_MoveAndMultiplyAliasResults :
    amountFits .w32 31#6 = true ∧ amountFits .w64 63#6 = true := by decide

/-! ### Loads, stores and memory: the last address in bounds, and the first one out of bounds -/

/-- Some memory written, `X1` 8 bytes before its end, `X3` one byte later. -/
def atEnd : State :=
  withMem (start [(1#5, 0x1FFFF8#64), (3#5, 0x1FFFF9#64)] 0b0000#4 0x1FFFF4#64) 0x100 V

theorem atEnd_inv : atEnd.Inv := by decide

theorem witness_OffsetLoadResults :
    (effAddr atEnd .w64 (.unsignedOffset 0#12) 1#5).toNat + Width.w64.bytes ≤ memSize ∧
    (effAddr atEnd .w32 (.unsignedOffset 1#12) 1#5).toNat + Width.w32.bytes ≤ memSize ∧
    (effAddr atEnd .w64 (.regOffset zr) 1#5).toNat + Width.w64.bytes ≤ memSize ∧
    (30#5 : RegIdx) ≠ zr ∧ (zr : RegIdx) ≠ 30#5 := by decide

theorem witness_PreIndexLoadResults :
    (effAddr atEnd .w64 (.preIndex 0x1FF#9) 3#5).toNat + Width.w64.bytes ≤ memSize ∧
    (0#5 : RegIdx) ≠ zr ∧ (3#5 : RegIdx) ≠ zr ∧ (3#5 : RegIdx) ≠ 0#5 ∧
    (4#5 : RegIdx) ≠ 0#5 ∧ (4#5 : RegIdx) ≠ 3#5 := by decide

theorem witness_PostIndexLoadResults :
    (effAddr atEnd .w64 (.postIndex 0xFF#9) 1#5).toNat + Width.w64.bytes ≤ memSize ∧
    (0#5 : RegIdx) ≠ zr ∧ (1#5 : RegIdx) ≠ zr ∧ (0#5 : RegIdx) ≠ 1#5 ∧
    (4#5 : RegIdx) ≠ 0#5 ∧ (4#5 : RegIdx) ≠ 1#5 := by decide

theorem witness_LiteralLoadResults :
    (pcRelative atEnd 1#19).toNat + Width.w64.bytes ≤ memSize ∧
    (pcRelative atEnd 2#19).toNat + Width.w32.bytes ≤ memSize ∧
    (30#5 : RegIdx) ≠ zr ∧ (zr : RegIdx) ≠ 30#5 := by decide

theorem witness_OffsetStoreResults :
    atEnd.Inv ∧
    (effAddr atEnd .w64 (.unsignedOffset 0#12) 1#5).toNat + Width.w64.bytes ≤ memSize ∧
    (effAddr atEnd .w64 (.regOffset zr) 1#5).toNat + Width.w64.bytes ≤ memSize :=
  ⟨atEnd_inv, by decide, by decide⟩

theorem witness_PreIndexStoreResults :
    atEnd.Inv ∧
    (effAddr atEnd .w64 (.preIndex 0x1FF#9) 3#5).toNat + Width.w64.bytes ≤ memSize ∧
    (3#5 : RegIdx) ≠ zr ∧ (0#5 : RegIdx) ≠ 3#5 :=
  ⟨atEnd_inv, by decide, by decide, by decide⟩

theorem witness_PostIndexStoreResults :
    atEnd.Inv ∧
    (effAddr atEnd .w64 (.postIndex 0xFF#9) 1#5).toNat + Width.w64.bytes ≤ memSize ∧
    (1#5 : RegIdx) ≠ zr ∧ (0#5 : RegIdx) ≠ 1#5 :=
  ⟨atEnd_inv, by decide, by decide, by decide⟩

theorem witness_TransfersFaultExactlyOutOfBounds :
    memSize < (effAddr atEnd .w64 (.unsignedOffset 0#12) 3#5).toNat + Width.w64.bytes ∧
    memSize < (effAddr atEnd .w64 (.regOffset zr) 3#5).toNat + Width.w64.bytes ∧
    memSize < (effAddr atEnd .w64 (.preIndex 1#9) 1#5).toNat + Width.w64.bytes ∧
    memSize < (effAddr atEnd .w64 (.postIndex 0#9) 3#5).toNat + Width.w64.bytes ∧
    memSize < (pcRelative atEnd 2#19).toNat + Width.w64.bytes ∧
    memSize < (pcRelative atEnd 3#19).toNat + Width.w32.bytes := by decide

theorem witness_MemReadRule :
    (0x1FFFF8#64).toNat + Width.w64.bytes ≤ memSize ∧ memSize < (0x1FFFF9#64).toNat + Width.w64.bytes ∧
    (0x1FFFFC#64).toNat + Width.w32.bytes ≤ memSize ∧ memSize < (0x1FFFFD#64).toNat + Width.w32.bytes := by
  decide

theorem witness_MemWriteRule :
    atEnd.Inv ∧ (0x1FFFF8#64).toNat + Width.w64.bytes ≤ memSize ∧
      memSize < (0x1FFFF9#64).toNat + Width.w64.bytes :=
  ⟨atEnd_inv, by decide, by decide⟩

theorem witness_MixedWidthAccessesSeeBytes :
    atEnd.Inv ∧ ∃ t, atEnd.storeData .w64 0x1FFFF8#64 V = .ok t :=
  ⟨atEnd_inv, _, rfl⟩

theorem witness_NextFetchSeesTheStore :
    atEnd.Inv ∧
    (effAddr atEnd .w64 (.unsignedOffset 0#12) 1#5 = atEnd.pc + 4#64 ∧
      ∃ t, exec (.strUoff .w64 0#12 1#5 0#5) atEnd = .next t) ∧
    (effAddr atEnd .w64 (.regOffset zr) 1#5 = atEnd.pc + 4#64 ∧
      ∃ t, exec (.strReg .w64 zr 1#5 0#5) atEnd = .next t) ∧
    (effAddr atEnd .w64 (.postIndex 1#9) 1#5 = atEnd.pc + 4#64 ∧
      ∃ t, exec (.strPost .w64 1#9 1#5 0#5) atEnd = .next t) ∧
    (effAddr atEnd .w64 (.preIndex 0x1FF#9) 3#5 = atEnd.pc + 4#64 ∧
      ∃ t, exec (.strPre .w64 0x1FF#9 3#5 3#5) atEnd = .next t) :=
  ⟨atEnd_inv, ⟨by decide, next_of_isNext (by decide)⟩, ⟨by decide, next_of_isNext (by decide)⟩,
    ⟨by decide, next_of_isNext (by decide)⟩, ⟨by decide, next_of_isNext (by decide)⟩⟩

/-! ### Branches and steps -/

theorem witness_UnconditionalBranchResults : (30#5 : RegIdx) ≠ zr := by decide

theorem witness_ConditionalBranchResult :
    condHolds .eq State.reset.flags = true ∧ condHolds .ne State.reset.flags = false := by decide

theorem witness_ConditionalBranchSpellings :
    ∃ taken following, taken = State.reset.setPc (branchTarget State.reset 3) ∧
      following = State.reset.setPc (State.reset.pc + 4#64) :=
  ⟨_, _, rfl, rfl⟩

/-- A running state with a word in the last four bytes of memory, and the PC at it. -/
def lastWord (v : Word) : State :=
  { atEnd with pc := 0x1FFFFC#64, mem := atEnd.mem.write 0x1FFFFC .w32 v }

theorem witness_StepRunsTheDecodedInstruction :
    (lastWord 0xD28000A0#32).run = .running ∧
    (lastWord 0xD28000A0#32).pc.toNat + 4 ≤ memSize ∧
    decodeBytes [(lastWord 0xD28000A0#32).mem.readByte 0x1FFFFC,
      (lastWord 0xD28000A0#32).mem.readByte 0x1FFFFD,
      (lastWord 0xD28000A0#32).mem.readByte 0x1FFFFE,
      (lastWord 0xD28000A0#32).mem.readByte 0x1FFFFF] = .ok (.movz .w64 0#2 5#16 0#5) := by decide

theorem witness_FaultOrderOfAStep :
    (lastWord 0#32).run = .running ∧ (lastWord 0#32).pc.toNat + 4 ≤ memSize ∧
    memSize < ((lastWord 0#32).setPc 0x1FFFFD#64).pc.toNat + 4 ∧
    decode (lastWord 0#32).nextWord = .error .category ∧
    decode (lastWord 0x54000002#32).nextWord = .error .condition ∧
    decode (lastWord 0x8BC20020#32).nextWord = .error .illegalShift ∧
    decode (lastWord 0xD503201F#32).nextWord = .error .unallocated ∧
    decode (lastWord 0xF9400060#32).nextWord = .ok (.ldrUoff .w64 0#12 3#5 0#5) ∧
    step (lastWord 0xF9400060#32) = .fault (.dataBounds 0x1FFFF9#64 8 0x1FFFFC#64) :=
  ⟨by decide, by decide, by decide, by decide, by decide, by decide, by decide, by decide,
    fault_of_faults (by decide)⟩

theorem witness_FetchAlignmentRule :
    (lastWord 0#32).pc.toNat + 4 ≤ memSize ∧
    (State.reset.setPc 3#64).run = .running ∧ (State.reset.setPc 3#64).pcAligned = false ∧
    atEnd.pcAligned = true ∧ (∃ t, exec (.b 3#26) atEnd = .next t) ∧
    ∀ rn, Instr.b 3#26 ≠ .br rn :=
  ⟨by decide, by decide, by decide, by decide, ⟨_, rfl⟩, fun _ h => Instr.noConfusion h⟩

theorem witness_EveryStepKeepsTheInvariant :
    (lastWord 0xF8008C20#32).Inv ∧ (lastWord 0xF81F8C20#32).Inv ∧
      ∃ t, step (lastWord 0xF81F8C20#32) = .next t :=
  ⟨by decide, by decide, next_of_isNext (by decide)⟩

theorem witness_OnlyFlagWritersChangeFlags :
    (Instr.addImm .w64 false 1#12 1#5 0#5).writesFlags = false ∧
      ∃ t, exec (.addImm .w64 false 1#12 1#5 0#5) atEnd = .next t :=
  ⟨rfl, next_of_isNext (by decide)⟩

theorem witness_OnlyStoresChangeMemory :
    (Instr.ldrPre .w64 0x1FF#9 3#5 0#5).isStore = false ∧
      ∃ t, exec (.ldrPre .w64 0x1FF#9 3#5 0#5) atEnd = .next t :=
  ⟨rfl, next_of_isNext (by decide)⟩

theorem witness_OnlyTransfersFaultAfterDecode :
    ∃ f, exec (.strUoff .w64 0#12 3#5 0#5) atEnd = .fault f :=
  ⟨_, fault_of_faults (f := .dataBounds 0x1FFFF9#64 8 0x1FFFF4#64) (by decide)⟩

theorem witness_StepHaltsExactlyAtTheTerminateWord :
    ((∃ t, step (lastWord terminateWord) = .next t) ∧
      (lastWord terminateWord).nextWord = terminateWord) ∧
    ((∃ t, step (lastWord 0x8A000001#32) = .next t) ∧
      (lastWord 0x8A000001#32).nextWord ≠ terminateWord) :=
  ⟨⟨next_of_isNext (by decide), by decide⟩, ⟨next_of_isNext (by decide), by decide⟩⟩

/-! ### Runs and the assembler -/

theorem witness_ImageLoadRule :
    (List.replicate memSize 0xFF#8).length ≤ memSize ∧
      memSize < (List.replicate (memSize + 1) 0#8).length := by
  simp only [List.length_replicate]; omega

theorem witness_LoadedImageHoldsItsWords :
    (∃ s, loadImage (imageOf [0xD28000A0#32, terminateWord]) = some s) ∧
      [0xD28000A0#32, terminateWord][1]? = some terminateWord :=
  ⟨⟨_, rfl⟩, rfl⟩

theorem witness_ReportContents : (30#5 : RegIdx) ≠ zr := by decide

theorem witness_BranchToItselfHangs :
    (lastWord 0x14000000#32).run = .running ∧ (lastWord 0x14000000#32).pc.toNat + 4 ≤ memSize ∧
      (lastWord 0x14000000#32).nextWord = 0x14000000#32 := by decide

theorem witness_EndedRunsStayEnded :
    (lastWord terminateWord).run = .running ∧
    (∃ t, runFor 1 (lastWord terminateWord) = .next t ∧ t.run = .halted) ∧
    ∃ f, runFor 1 (lastWord 0#32) = .fault f :=
  ⟨by decide, ⟨_, rfl, rfl⟩,
    _, fault_of_faults (f := .decodeCategory 0#32 0x1FFFFC#64) (by decide)⟩

theorem witness_AssembledWordsDecodeBack :
    encodeAsm ⟨.and, [.reg .w64 0#5, .reg .w64 0#5, .reg .w64 0#5]⟩ 0 = .ok 0x8A000000#32 ∧
    encodeAsm ⟨.ldr, [.reg .w64 0#5, .label 0#32]⟩ 0x100000#32 = .ok 0x58800000#32 := by decide

/-- The boundary offsets of AssembledTargetsAreReached: `2^27 - 4`, `-2^27`, `2^27`, `2^20 - 4`,
`-2^20` and `2^20`, with the PC at the instruction's address. -/
theorem witness_AssembledTargetsAreReached :
    ((0x7FFFFFC#32).toNat : Int) - (0#32).toNat = 2 ^ 27 - 4 ∧
    ((0#32).toNat : Int) - (0x8000000#32).toNat = -2 ^ 27 ∧
    ((0x8000000#32).toNat : Int) - (0#32).toNat = 2 ^ 27 ∧
    ((0xFFFFC#32).toNat : Int) - (0#32).toNat = 2 ^ 20 - 4 ∧
    ((0#32).toNat : Int) - (0x100000#32).toNat = -2 ^ 20 ∧
    ((0x100000#32).toNat : Int) - (0#32).toNat = 2 ^ 20 ∧
    ((2 ^ 27 - 4 : Int) % 4 = 0 ∧ (-2 ^ 27 : Int) % 4 = 0 ∧ (2 ^ 20 - 4 : Int) % 4 = 0 ∧
      (-2 ^ 20 : Int) % 4 = 0) ∧
    (0x8000000#32 ≠ 0xFFFFFFFF#32 ∧ (0#32 : BitVec 32) ≠ 0xFFFFFFFF#32) ∧
    (State.reset.pc = (0#32).setWidth 64 ∧
      (State.reset.setPc 0x8000000#64).pc = (0x8000000#32).setWidth 64 ∧
      condHolds .al State.reset.flags = true) := by decide

theorem witness_AssembledOffsetsAddressTheirBytes :
    ((16380 : Int) % Width.w32.bytes = 0 ∧ (0 : Int) ≤ 16380 ∧
      (16380 : Int) ≤ 4095 * Width.w32.bytes) ∧
    ¬((16384 : Int) ≤ 4095 * Width.w32.bytes) ∧ ¬((4 : Int) % Width.w64.bytes = 0) ∧
    ((-256 : Int) ≤ -256 ∧ (255 : Int) ≤ 255) ∧ ¬((256 : Int) ≤ 255) ∧ ¬((-256 : Int) ≤ -257) ∧
    (30#5 : RegIdx) ≠ zr := by
  decide

/-- The limits of the immediates and amounts, a suffix of each kind, and a width that differs. -/
theorem witness_AssembledLinesAreTheInstructionsTheySpell :
    ((0 : Int) ≤ 0xFFF ∧ (0xFFF : Int) ≤ 0xFFF ∧ ((12 : Int) = 0 ∨ (12 : Int) = 12)) ∧
    ¬((0x1000 : Int) ≤ 0xFFF) ∧ ¬((8 : Int) = 0 ∨ (8 : Int) = 12) ∧ ¬((0 : Int) ≤ -1) ∧
    ((0xFFFF : Int) ≤ 0xFFFF ∧ (48 : Int) % 16 = 0 ∧ (48 : Int) < Width.w64.bits) ∧
    ¬((32 : Int) < Width.w32.bits) ∧ ((31 : Int) < Width.w32.bits ∧ (63 : Int) < Width.w64.bits) ∧
    ([] = ([] : List Operand) ∧ (0 : Int) = 0) ∧
    [Operand.shift .lsl 12] = [.shift .lsl 12] ∧ [Operand.shift .lsr 12] = [.shift .lsr 12] ∧
    ShiftKind.asr ≠ .ror ∧ ShiftKind.ror ≠ .lsl ∧ Width.w32 ≠ .w64 ∧
    ((32760 : Int) % Width.w64.bytes = 0 ∧ (32760 : Int) ≤ 4095 * Width.w64.bytes) ∧
    ¬(Width.w64 = .w64 ∧ Width.w32 = .w64) ∧ "b.cs" ∉ mnemonicTable.map Prod.fst ∧
    Mnemonic.add ∈ [Mnemonic.add, .adds, .sub, .subs] ∧
    Mnemonic.cmp ∈ [Mnemonic.cmp, .cmn, .neg, .negs] := by decide

end Sys2Proof.Tests
end

section
/-! PROOFS of the family 00_scope.md: the two laws of field inserts and the encoder as a chain of such
inserts (R9), and width-aware register access (R13).

The encoder's words are built by disjunctions of placed fields, and the statement builds them by inserts.
Both are met at one point: a word that holds a field is unchanged by inserting it, so a word cut down to
a row's fixed bits grows back, field by field, to the whole word. -/

namespace Sys2Proof.Laws

/-! ## The two laws of R9 -/

/-- Extracting a field just inserted gives its low bits (00_scope.md R9). -/
theorem slice_insertField {hi lo n : Nat} (v value : BitVec n) (h : lo ≤ hi) (hn : hi < n) :
    slice hi lo (insertField hi lo v value) = value.setWidth (hi - lo + 1) := by
  refine BitVec.eq_of_getLsbD_eq fun k hk => ?_
  have inside : lo ≤ lo + k ∧ lo + k ≤ hi := by omega
  rw [getLsbD_slice, getLsbD_insertField v value h _ hn, if_pos inside, Nat.add_sub_cancel_left,
    BitVec.getLsbD_setWidth]

/-- A bit outside the field is left unchanged by an insert (00_scope.md R9). -/
theorem getLsbD_insertField_of_outside {hi lo n k : Nat} (v value : BitVec n) (h : lo ≤ hi)
    (hn : hi < n) (hk : k < lo ∨ hi < k) : (insertField hi lo v value).getLsbD k = v.getLsbD k := by
  rw [getLsbD_insertField v value h k hn, if_neg (by omega)]

/-! ## Words that hold a field -/

/-- The bits of `v` from `f.1` down to `f.2.1` are the low bits of the value `f.2.2`. -/
def HoldsField (v : Word) (f : Nat × Nat × Word) : Prop :=
  f.2.1 ≤ f.1 ∧ f.1 < 32 ∧ slice f.1 f.2.1 v = f.2.2.setWidth (f.1 - f.2.1 + 1)

theorem holdsField_iff {v value : Word} {hi lo : Nat} (hle : lo ≤ hi) (hlt : hi < 32) :
    HoldsField v (hi, lo, value) ↔ slice hi lo v = value.setWidth (hi - lo + 1) := by
  simp only [HoldsField, hle, hlt, true_and]

/-- `v` holds each field of a list. -/
def HoldsFields (v : Word) (fs : List (Nat × Nat × Word)) : Prop :=
  ∀ f ∈ fs, HoldsField v f

theorem holdsFields_nil (v : Word) : HoldsFields v [] := List.forall_mem_nil _

theorem holdsFields_cons {v : Word} {f : Nat × Nat × Word} {fs : List (Nat × Nat × Word)} :
    HoldsFields v (f :: fs) ↔ HoldsField v f ∧ HoldsFields v fs :=
  List.forall_mem_cons

theorem HoldsFields.mono {v : Word} {fs gs : List (Nat × Nat × Word)} (h : HoldsFields v gs)
    (hsub : fs ⊆ gs) : HoldsFields v fs :=
  fun f hf => h f (hsub hf)

/-- A bit mask with the bits of a field added. -/
def coverField (mask : Word) (f : Nat × Nat × Word) : Word :=
  insertField f.1 f.2.1 mask (BitVec.allOnes 32)

/-- What a word holds of a field, inserted into a part of the word, enlarges the part by the field. -/
theorem HoldsField.insertField_and {v : Word} {f : Nat × Nat × Word} (h : HoldsField v f)
    (mask : Word) : insertField f.1 f.2.1 (v &&& mask) f.2.2 = v &&& coverField mask f := by
  obtain ⟨hle, hlt, hslice⟩ := h
  refine BitVec.eq_of_getLsbD_eq fun k hk => ?_
  rw [coverField, BitVec.getLsbD_and, getLsbD_insertField _ _ hle k hlt,
    getLsbD_insertField _ _ hle k hlt]
  split
  next inside =>
    have hbit := congrArg (fun u => u.getLsbD (k - f.2.1)) hslice
    have hfield : k - f.2.1 < f.1 - f.2.1 + 1 := by omega
    have hword : k - f.2.1 < 32 := by omega
    simp only [getLsbD_slice, BitVec.getLsbD_setWidth, hfield, decide_true, Bool.true_and,
      Nat.add_sub_of_le inside.1] at hbit
    rw [hbit, BitVec.getLsbD_allOnes, decide_eq_true hword, Bool.and_true]
  next => exact BitVec.getLsbD_and

/-- Inserting fields a word holds into a part of it gives the part enlarged by those fields. -/
theorem HoldsFields.insertFields_and {v : Word} {fs : List (Nat × Nat × Word)}
    (h : HoldsFields v fs) (mask : Word) :
    insertFields (v &&& mask) fs = v &&& fs.foldl coverField mask := by
  induction fs generalizing mask with
  | nil => rfl
  | cons f fs ih =>
    have ⟨hf, hfs⟩ := holdsFields_cons.1 h
    calc insertFields (v &&& mask) (f :: fs)
        = insertFields (insertField f.1 f.2.1 (v &&& mask) f.2.2) fs := rfl
      _ = insertFields (v &&& coverField mask f) fs := by rw [hf.insertField_and]
      _ = v &&& fs.foldl coverField (coverField mask f) := ih hfs _

/-! ## The fields each layout holds -/

/-- A slice of exactly a placed field is the field's value. -/
theorem slice_place_eq_fieldValue {lo hi n : Nat} (v : BitVec n) (h : hi - lo + 1 = n) (hl : lo ≤ hi)
    (h32 : hi < 32) : slice hi lo (place lo v) = (fieldValue v).setWidth (hi - lo + 1) := by
  subst h
  rw [slice_place_self v rfl hl h32, fieldValue, BitVec.setWidth_setWidth_of_le v (by omega),
    BitVec.setWidth_eq, BitVec.cast_eq]

section

variable {w : Width} {opc hw : BitVec 2} {sh N x L I : Bool} {shift : ShiftKind} {cond : Cond}
  {imm6 : BitVec 6} {simm9 : BitVec 9} {imm12 : BitVec 12} {imm16 : BitVec 16}
  {simm19 : BitVec 19} {simm26 : BitVec 26} {rm ra rn rd rt : RegIdx}

theorem layoutArithImm_holdsFields :
    HoldsFields (layoutArithImm w opc sh imm12 rn rd)
      [(31, 31, fieldValue w.sf), (22, 22, fieldValue (BitVec.ofBool sh)),
       (21, 10, fieldValue imm12), (9, 5, fieldValue rn), (4, 0, fieldValue rd)] := by
  simp (disch := decide) only [holdsFields_cons, holdsFields_nil, holdsField_iff, layoutArithImm,
    slice_or, slice_place_eq_fieldValue, slice_place_of_disjoint, BitVec.or_zero, BitVec.zero_or,
    and_self]

theorem layoutWideMove_holdsFields :
    HoldsFields (layoutWideMove w opc hw imm16 rd)
      [(31, 31, fieldValue w.sf), (22, 21, fieldValue hw), (20, 5, fieldValue imm16),
       (4, 0, fieldValue rd)] := by
  simp (disch := decide) only [holdsFields_cons, holdsFields_nil, holdsField_iff, layoutWideMove,
    slice_or, slice_place_eq_fieldValue, slice_place_of_disjoint, BitVec.or_zero, BitVec.zero_or,
    and_self]

theorem layoutArithReg_holdsFields :
    HoldsFields (layoutArithReg w opc shift rm imm6 rn rd)
      [(31, 31, fieldValue w.sf), (23, 22, fieldValue shift.code), (20, 16, fieldValue rm),
       (15, 10, fieldValue imm6), (9, 5, fieldValue rn), (4, 0, fieldValue rd)] := by
  simp (disch := decide) only [holdsFields_cons, holdsFields_nil, holdsField_iff, layoutArithReg,
    slice_or, slice_place_eq_fieldValue, slice_place_of_disjoint, BitVec.or_zero, BitVec.zero_or,
    and_self]

theorem layoutLogicReg_holdsFields :
    HoldsFields (layoutLogicReg w opc N shift rm imm6 rn rd)
      [(31, 31, fieldValue w.sf), (23, 22, fieldValue shift.code), (20, 16, fieldValue rm),
       (15, 10, fieldValue imm6), (9, 5, fieldValue rn), (4, 0, fieldValue rd)] := by
  simp (disch := decide) only [holdsFields_cons, holdsFields_nil, holdsField_iff, layoutLogicReg,
    slice_or, slice_place_eq_fieldValue, slice_place_of_disjoint, BitVec.or_zero, BitVec.zero_or,
    and_self]

theorem layoutMultiply_holdsFields :
    HoldsFields (layoutMultiply w x rm ra rn rd)
      [(31, 31, fieldValue w.sf), (20, 16, fieldValue rm), (14, 10, fieldValue ra),
       (9, 5, fieldValue rn), (4, 0, fieldValue rd)] := by
  simp (disch := decide) only [holdsFields_cons, holdsFields_nil, holdsField_iff, layoutMultiply,
    slice_or, slice_place_eq_fieldValue, slice_place_of_disjoint, BitVec.or_zero, BitVec.zero_or,
    and_self]

theorem layoutUnsignedOffset_holdsFields :
    HoldsFields (layoutUnsignedOffset w L imm12 rn rt)
      [(30, 30, fieldValue w.sf), (21, 10, fieldValue imm12), (9, 5, fieldValue rn),
       (4, 0, fieldValue rt)] := by
  simp (disch := decide) only [holdsFields_cons, holdsFields_nil, holdsField_iff,
    layoutUnsignedOffset, slice_or, slice_place_eq_fieldValue, slice_place_of_disjoint,
    BitVec.or_zero, BitVec.zero_or, and_self]

theorem layoutIndexed_holdsFields :
    HoldsFields (layoutIndexed w L simm9 I rn rt)
      [(30, 30, fieldValue w.sf), (20, 12, fieldValue simm9), (9, 5, fieldValue rn),
       (4, 0, fieldValue rt)] := by
  simp (disch := decide) only [holdsFields_cons, holdsFields_nil, holdsField_iff, layoutIndexed,
    slice_or, slice_place_eq_fieldValue, slice_place_of_disjoint, BitVec.or_zero, BitVec.zero_or,
    and_self]

theorem layoutRegOffset_holdsFields :
    HoldsFields (layoutRegOffset w L rm rn rt)
      [(30, 30, fieldValue w.sf), (20, 16, fieldValue rm), (9, 5, fieldValue rn),
       (4, 0, fieldValue rt)] := by
  simp (disch := decide) only [holdsFields_cons, holdsFields_nil, holdsField_iff, layoutRegOffset,
    slice_or, slice_place_eq_fieldValue, slice_place_of_disjoint, BitVec.or_zero, BitVec.zero_or,
    and_self]

theorem layoutLiteral_holdsFields :
    HoldsFields (layoutLiteral w simm19 rt)
      [(30, 30, fieldValue w.sf), (23, 5, fieldValue simm19), (4, 0, fieldValue rt)] := by
  simp (disch := decide) only [holdsFields_cons, holdsFields_nil, holdsField_iff, layoutLiteral,
    slice_or, slice_place_eq_fieldValue, slice_place_of_disjoint, BitVec.or_zero, BitVec.zero_or,
    and_self]

theorem layoutBranch_holdsFields :
    HoldsFields (layoutBranch simm26) [(25, 0, fieldValue simm26)] := by
  simp (disch := decide) only [holdsFields_cons, holdsFields_nil, holdsField_iff, layoutBranch,
    slice_or, slice_place_eq_fieldValue, slice_place_of_disjoint, BitVec.zero_or, and_self]

theorem layoutCondBranch_holdsFields :
    HoldsFields (layoutCondBranch simm19 cond)
      [(23, 5, fieldValue simm19), (3, 0, fieldValue cond.code)] := by
  simp (disch := decide) only [holdsFields_cons, holdsFields_nil, holdsField_iff, layoutCondBranch,
    slice_or, slice_place_eq_fieldValue, slice_place_of_disjoint, BitVec.or_zero, BitVec.zero_or,
    and_self]

theorem layoutRegBranch_holdsFields :
    HoldsFields (layoutRegBranch rn) [(9, 5, fieldValue rn)] := by
  simp (disch := decide) only [holdsFields_cons, holdsFields_nil, holdsField_iff, layoutRegBranch,
    slice_or, slice_place_eq_fieldValue, slice_place_of_disjoint, BitVec.or_zero, BitVec.zero_or,
    and_self]

end

/-! ## Every instruction -/

/-- The word of every instruction holds the operand fields of its row. The fields of a
spelling of 30_encoding.md R135 are among those of the layout it fills with index 31, no shift, or a
fixed condition. -/
theorem encode_holdsFields : (i : Instr) → HoldsFields (encode i) i.fields
  | .halt => holdsFields_nil _
  | .addImm _ _ _ _ _ => layoutArithImm_holdsFields
  | .addsImm _ _ _ _ _ => layoutArithImm_holdsFields
  | .subImm _ _ _ _ _ => layoutArithImm_holdsFields
  | .subsImm _ _ _ _ _ => layoutArithImm_holdsFields
  | .movn _ _ _ _ => layoutWideMove_holdsFields
  | .movz _ _ _ _ => layoutWideMove_holdsFields
  | .movk _ _ _ _ => layoutWideMove_holdsFields
  | .addReg _ _ _ _ _ _ => layoutArithReg_holdsFields
  | .addsReg _ _ _ _ _ _ => layoutArithReg_holdsFields
  | .subReg _ _ _ _ _ _ => layoutArithReg_holdsFields
  | .subsReg _ _ _ _ _ _ => layoutArithReg_holdsFields
  | .andReg _ _ _ _ _ _ => layoutLogicReg_holdsFields
  | .bicReg _ _ _ _ _ _ => layoutLogicReg_holdsFields
  | .orrReg _ _ _ _ _ _ => layoutLogicReg_holdsFields
  | .ornReg _ _ _ _ _ _ => layoutLogicReg_holdsFields
  | .eorReg _ _ _ _ _ _ => layoutLogicReg_holdsFields
  | .eonReg _ _ _ _ _ _ => layoutLogicReg_holdsFields
  | .andsReg _ _ _ _ _ _ => layoutLogicReg_holdsFields
  | .bicsReg _ _ _ _ _ _ => layoutLogicReg_holdsFields
  | .madd _ _ _ _ _ => layoutMultiply_holdsFields
  | .msub _ _ _ _ _ => layoutMultiply_holdsFields
  | .ldrUoff _ _ _ _ => layoutUnsignedOffset_holdsFields
  | .strUoff _ _ _ _ => layoutUnsignedOffset_holdsFields
  | .ldrPre _ _ _ _ => layoutIndexed_holdsFields
  | .strPre _ _ _ _ => layoutIndexed_holdsFields
  | .ldrPost _ _ _ _ => layoutIndexed_holdsFields
  | .strPost _ _ _ _ => layoutIndexed_holdsFields
  | .ldrReg _ _ _ _ => layoutRegOffset_holdsFields
  | .strReg _ _ _ _ => layoutRegOffset_holdsFields
  | .ldrLit _ _ _ => layoutLiteral_holdsFields
  | .b _ => layoutBranch_holdsFields
  | .bCond _ _ => layoutCondBranch_holdsFields
  | .br _ => layoutRegBranch_holdsFields
  | .cmpImm _ _ _ _ => layoutArithImm_holdsFields.mono (by simp [Instr.fields])
  | .cmnImm _ _ _ _ => layoutArithImm_holdsFields.mono (by simp [Instr.fields])
  | .negImm _ _ _ _ => layoutArithImm_holdsFields.mono (by simp [Instr.fields])
  | .negsImm _ _ _ _ => layoutArithImm_holdsFields.mono (by simp [Instr.fields])
  | .cmpReg _ _ _ _ _ => layoutArithReg_holdsFields.mono (by simp [Instr.fields])
  | .cmnReg _ _ _ _ _ => layoutArithReg_holdsFields.mono (by simp [Instr.fields])
  | .negReg _ _ _ _ _ => layoutArithReg_holdsFields.mono (by simp [Instr.fields])
  | .negsReg _ _ _ _ _ => layoutArithReg_holdsFields.mono (by simp [Instr.fields])
  | .tst _ _ _ _ _ => layoutLogicReg_holdsFields.mono (by simp [Instr.fields])
  | .mvn _ _ _ _ _ => layoutLogicReg_holdsFields.mono (by simp [Instr.fields])
  | .mov _ _ _ => layoutLogicReg_holdsFields.mono (by simp [Instr.fields])
  | .mul _ _ _ _ => layoutMultiply_holdsFields.mono (by simp [Instr.fields])
  | .mneg _ _ _ _ => layoutMultiply_holdsFields.mono (by simp [Instr.fields])
  | .bEq _ => layoutCondBranch_holdsFields.mono (by simp [Instr.fields])
  | .bNe _ => layoutCondBranch_holdsFields.mono (by simp [Instr.fields])
  | .bGe _ => layoutCondBranch_holdsFields.mono (by simp [Instr.fields])
  | .bLt _ => layoutCondBranch_holdsFields.mono (by simp [Instr.fields])
  | .bGt _ => layoutCondBranch_holdsFields.mono (by simp [Instr.fields])
  | .bLe _ => layoutCondBranch_holdsFields.mono (by simp [Instr.fields])
  | .bAl _ => layoutCondBranch_holdsFields.mono (by simp [Instr.fields])

/-- Under its row's mask the word of every instruction is the row's fixed bits (30_encoding.md R146). -/
theorem encode_and_mask : (i : Instr) → encode i &&& i.row.mask = i.row.pattern
  | .halt => EncodeMatchesRow.halt
  | .addImm _ _ _ _ _ => EncodeMatchesRow.addImm _ _ _ _ _
  | .addsImm _ _ _ _ _ => EncodeMatchesRow.addsImm _ _ _ _ _
  | .subImm _ _ _ _ _ => EncodeMatchesRow.subImm _ _ _ _ _
  | .subsImm _ _ _ _ _ => EncodeMatchesRow.subsImm _ _ _ _ _
  | .movn _ _ _ _ => EncodeMatchesRow.movn _ _ _ _
  | .movz _ _ _ _ => EncodeMatchesRow.movz _ _ _ _
  | .movk _ _ _ _ => EncodeMatchesRow.movk _ _ _ _
  | .addReg _ _ _ _ _ _ => EncodeMatchesRow.addReg _ _ _ _ _ _
  | .addsReg _ _ _ _ _ _ => EncodeMatchesRow.addsReg _ _ _ _ _ _
  | .subReg _ _ _ _ _ _ => EncodeMatchesRow.subReg _ _ _ _ _ _
  | .subsReg _ _ _ _ _ _ => EncodeMatchesRow.subsReg _ _ _ _ _ _
  | .andReg _ _ _ _ _ _ => EncodeMatchesRow.andReg _ _ _ _ _ _
  | .bicReg _ _ _ _ _ _ => EncodeMatchesRow.bicReg _ _ _ _ _ _
  | .orrReg _ _ _ _ _ _ => EncodeMatchesRow.orrReg _ _ _ _ _ _
  | .ornReg _ _ _ _ _ _ => EncodeMatchesRow.ornReg _ _ _ _ _ _
  | .eorReg _ _ _ _ _ _ => EncodeMatchesRow.eorReg _ _ _ _ _ _
  | .eonReg _ _ _ _ _ _ => EncodeMatchesRow.eonReg _ _ _ _ _ _
  | .andsReg _ _ _ _ _ _ => EncodeMatchesRow.andsReg _ _ _ _ _ _
  | .bicsReg _ _ _ _ _ _ => EncodeMatchesRow.bicsReg _ _ _ _ _ _
  | .madd _ _ _ _ _ => EncodeMatchesRow.madd _ _ _ _ _
  | .msub _ _ _ _ _ => EncodeMatchesRow.msub _ _ _ _ _
  | .ldrUoff _ _ _ _ => EncodeMatchesRow.ldrUoff _ _ _ _
  | .strUoff _ _ _ _ => EncodeMatchesRow.strUoff _ _ _ _
  | .ldrPre _ _ _ _ => EncodeMatchesRow.ldrPre _ _ _ _
  | .strPre _ _ _ _ => EncodeMatchesRow.strPre _ _ _ _
  | .ldrPost _ _ _ _ => EncodeMatchesRow.ldrPost _ _ _ _
  | .strPost _ _ _ _ => EncodeMatchesRow.strPost _ _ _ _
  | .ldrReg _ _ _ _ => EncodeMatchesRow.ldrReg _ _ _ _
  | .strReg _ _ _ _ => EncodeMatchesRow.strReg _ _ _ _
  | .ldrLit _ _ _ => EncodeMatchesRow.ldrLit _ _ _
  | .b _ => EncodeMatchesRow.b _
  | .bCond _ _ => EncodeMatchesRow.bCond _ _
  | .br _ => EncodeMatchesRow.br _
  | .cmpImm _ _ _ _ => EncodeMatchesRow.cmpImm _ _ _ _
  | .cmnImm _ _ _ _ => EncodeMatchesRow.cmnImm _ _ _ _
  | .negImm _ _ _ _ => EncodeMatchesRow.negImm _ _ _ _
  | .negsImm _ _ _ _ => EncodeMatchesRow.negsImm _ _ _ _
  | .cmpReg _ _ _ _ _ => EncodeMatchesRow.cmpReg _ _ _ _ _
  | .cmnReg _ _ _ _ _ => EncodeMatchesRow.cmnReg _ _ _ _ _
  | .negReg _ _ _ _ _ => EncodeMatchesRow.negReg _ _ _ _ _
  | .negsReg _ _ _ _ _ => EncodeMatchesRow.negsReg _ _ _ _ _
  | .tst _ _ _ _ _ => EncodeMatchesRow.tst _ _ _ _ _
  | .mvn _ _ _ _ _ => EncodeMatchesRow.mvn _ _ _ _ _
  | .mov _ _ _ => EncodeMatchesRow.mov _ _ _
  | .mul _ _ _ _ => EncodeMatchesRow.mul _ _ _ _
  | .mneg _ _ _ _ => EncodeMatchesRow.mneg _ _ _ _
  | .bEq _ => EncodeMatchesRow.bEq _
  | .bNe _ => EncodeMatchesRow.bNe _
  | .bGe _ => EncodeMatchesRow.bGe _
  | .bLt _ => EncodeMatchesRow.bLt _
  | .bGt _ => EncodeMatchesRow.bGt _
  | .bLe _ => EncodeMatchesRow.bLe _
  | .bAl _ => EncodeMatchesRow.bAl _

/-- The fixed bits of a row and its operand fields make up the whole word (30_encoding.md R146). -/
theorem foldl_coverField_fields (i : Instr) :
    i.fields.foldl coverField i.row.mask = BitVec.allOnes 32 := by
  cases i <;> simp only [Instr.fields, Instr.row, coverField, List.foldl_cons, List.foldl_nil] <;> rfl

/-- The word of an instruction is its row's fixed bits with each field inserted in turn
(00_scope.md R9, 30_encoding.md R140). -/
theorem encode_eq_insertFields (i : Instr) : encode i = insertFields i.row.pattern i.fields :=
  calc encode i
      = encode i &&& i.fields.foldl coverField i.row.mask := by
        rw [foldl_coverField_fields, BitVec.and_allOnes]
    _ = insertFields (encode i &&& i.row.mask) i.fields :=
        ((encode_holdsFields i).insertFields_and _).symm
    _ = insertFields i.row.pattern i.fields := by rw [encode_and_mask]

/-- Settles O8, from the bits of an insert and the encoder's fields. -/
theorem fieldInsertsObeyTheCodecLaws : Obligations.FieldInsertsObeyTheCodecLaws := by
  refine ⟨fun n v value lo hi hle hlt => ⟨?_, fun k hk => ?_⟩, encode_eq_insertFields⟩
  · rw [slice_insertField v value hle hlt, BitVec.toNat_setWidth]
  · exact getLsbD_insertField_of_outside v value hle hlt hk

end Sys2Proof.Laws

namespace Sys2Proof

/-- Every width fits a register (00_scope.md R6). -/
theorem Width.bits_le_64 (w : Width) : w.bits ≤ 64 := by
  cases w <;> decide

end Sys2Proof

namespace Sys2Proof.Machine

/-! ## Width-aware register access -/

/-- A width-aware read is the register modulo `2 ^ w` (00_scope.md R13). -/
theorem State.xw_toNat (s : State) (w : Width) (i : RegIdx) :
    (s.xw w i).toNat = (s.x i).toNat % 2 ^ w.bits :=
  BitVec.toNat_setWidth ..

/-- A register just written at a width holds the value zero-extended (00_scope.md R13). -/
theorem State.x_setXw_self_toNat {i : RegIdx} (s : State) (w : Width) (v : BitVec w.bits)
    (h : i ≠ zr) : ((s.setXw w i v).x i).toNat = v.toNat := by
  rw [State.x_setXw, if_pos ⟨rfl, h⟩, BitVec.toNat_setWidth_of_le w.bits_le_64]

/-- A width-aware write keeps every other register. -/
theorem State.x_setXw_of_ne {i j : RegIdx} (s : State) (w : Width) (v : BitVec w.bits) (h : j ≠ i) :
    (s.setXw w i v).x j = s.x j := by
  rw [State.x_setXw, if_neg fun hji => h hji.1]

/-- Settles O14, from the rules of a width-aware read and write and those of index 31. -/
theorem widthAwareRegisterAccess : Obligations.WidthAwareRegisterAccess :=
  fun s w i v => ⟨s.xw_toNat w i, s.x_setXw_self_toNat w v, fun _ => s.x_setXw_of_ne w v,
    s.x_zr, s.setXw_zr w v⟩

end Sys2Proof.Machine

end

section
/-! PROOFS of the family 20_memory.md: the two outcomes of a data read. -/

namespace Sys2Proof.Machine

/-- A load that fits the array answers a value made of the bytes at its address
(20_memory.md R60, R66). -/
theorem State.exists_loadData_eq_ok {s : State} {w : Width} {ea : DWord}
    (h : ea.toNat + w.bytes ≤ memSize) :
    ∃ v, s.loadData w ea = .ok v ∧ ∀ k, k < w.bytes → byteAt v k = s.mem.readByte (ea.toNat + k) :=
  ⟨s.mem.read ea.toNat w, State.loadData_of_inBounds ((inBounds_iff ea w.bytes).2 h),
    fun _ hk => s.mem.byteAt_read ea.toNat w hk⟩

/-- A load that reaches past the array faults (20_memory.md R60, R66). -/
theorem State.loadData_of_memSize_lt {s : State} {w : Width} {ea : DWord}
    (h : memSize < ea.toNat + w.bytes) :
    s.loadData w ea = .error (.dataBounds ea w.bytes s.pc) :=
  State.loadData_of_not_inBounds ((not_inBounds_iff ea w.bytes).2 h)

/-- Settles O33, from the bounds test and the bytes of a memory read. -/
theorem memReadRule : Obligations.MemReadRule :=
  fun _ _ _ => ⟨State.exists_loadData_eq_ok, State.loadData_of_memSize_lt⟩

end Sys2Proof.Machine

end

section
/-! PROOFS of the family 40_execution_cycle.md: the shifter's formulas (R171) and multiply-accumulate
(R175).

A multiply-accumulate is one fact about the ring of w-bit words: the word of an integer respects sum,
difference and product, so any integers that stand for the operands give the word of the result. The
unsigned and the signed clauses are this fact at the unsigned and at the signed values. -/

namespace Sys2Proof.Machine

/-! ## Shifter -/

/-- The signed value of a word's number is the word's own signed value (00_scope.md R11). -/
theorem signedAt_toNat {w : Width} (v : BitVec w.bits) : signedAt w v.toNat = v.toInt := by
  have hpow : 2 ^ w.bits = 2 * 2 ^ (w.bits - 1) := by cases w <;> rfl
  have half : v.toNat < 2 ^ (w.bits - 1) ↔ 2 * v.toNat < 2 ^ w.bits := by
    rw [hpow, Nat.mul_lt_mul_left Nat.two_pos]
  simp only [signedAt, BitVec.toInt_eq_toNat_cond, half, Nat.cast_pow, Nat.cast_ofNat]

theorem toNat_shiftBy_lsl {w : Width} (v : BitVec w.bits) (n : Nat) :
    (shiftBy .lsl v n).toNat = shiftNat w .lsl n v.toNat := by
  simp only [shiftBy, shiftNat, BitVec.toNat_shiftLeft, Nat.shiftLeft_eq]

theorem toNat_shiftBy_lsr {w : Width} (v : BitVec w.bits) (n : Nat) :
    (shiftBy .lsr v n).toNat = shiftNat w .lsr n v.toNat := by
  simp only [shiftBy, shiftNat, BitVec.toNat_ushiftRight, Nat.shiftRight_eq_div_pow]

theorem toNat_shiftBy_asr {w : Width} (v : BitVec w.bits) (n : Nat) :
    (shiftBy .asr v n).toNat = shiftNat w .asr n v.toNat := by
  simp only [shiftBy, shiftNat, BitVec.sshiftRight_eq, BitVec.toNat_ofInt, Int.shiftRight_eq_div_pow,
    signedAt_toNat, Nat.cast_pow, Nat.cast_ofNat]

/-- A rotate is the disjunction of a right shift and the left shift that brings the lost bits back. -/
theorem toNat_shiftBy_ror {w : Width} (v : BitVec w.bits) (n : Nat) :
    (shiftBy .ror v n).toNat = shiftNat w .ror n v.toNat := by
  by_cases hn : n = 0
  · simp only [shiftBy, shiftNat, hn, if_true]
  · simp only [shiftBy, shiftNat, hn, if_false, BitVec.toNat_or, BitVec.toNat_ushiftRight,
      BitVec.toNat_shiftLeft, Nat.shiftRight_eq_div_pow, Nat.shiftLeft_eq]

/-- The shifter computes its formula on numbers (40_execution_cycle.md R171). -/
theorem toNat_shiftBy {w : Width} (kind : ShiftKind) (v : BitVec w.bits) (n : Nat) :
    (shiftBy kind v n).toNat = shiftNat w kind n v.toNat :=
  match kind with
  | .lsl => toNat_shiftBy_lsl v n
  | .lsr => toNat_shiftBy_lsr v n
  | .asr => toNat_shiftBy_asr v n
  | .ror => toNat_shiftBy_ror v n

/-- A shift by 0 gives the word, for every kind (40_execution_cycle.md R171). -/
@[simp] theorem shiftBy_zero {n : Nat} (kind : ShiftKind) (v : BitVec n) : shiftBy kind v 0 = v :=
  match kind with
  | .lsl => BitVec.shiftLeft_zero v
  | .lsr => BitVec.ushiftRight_zero v
  | .asr => BitVec.sshiftRight_zero
  | .ror => by simp only [shiftBy, if_true]

/-- Settles O10, from the formula of each kind and the shift by 0. -/
theorem shiftFormulas : Obligations.ShiftFormulas :=
  ⟨fun _ kind v n _ => toNat_shiftBy kind v n, fun _ => shiftBy_zero⟩

/-! ## Multiply-accumulate -/

/-- Integers that stand for the operands give the word of the result (40_execution_cycle.md R175). -/
theorem mulAcc_ofInt {n : Nat} (x y z : Int) (sub : Bool) :
    mulAcc (BitVec.ofInt n x) (BitVec.ofInt n y) (BitVec.ofInt n z) sub =
      BitVec.ofInt n (if sub then z - x * y else z + x * y) := by
  cases sub
  · simp [mulAcc, BitVec.ofInt_add, BitVec.ofInt_mul]
  · simp [mulAcc, Int.sub_eq_add_neg, BitVec.sub_eq_add_neg, BitVec.ofInt_add, BitVec.ofInt_neg,
      BitVec.ofInt_mul]

/-- `MulAcc` over the signed values of its operands. -/
theorem mulAcc_eq_ofInt_toInt {n : Nat} (a b acc : BitVec n) (sub : Bool) :
    mulAcc a b acc sub =
      BitVec.ofInt n (if sub then acc.toInt - a.toInt * b.toInt else acc.toInt + a.toInt * b.toInt) := by
  simpa only [BitVec.ofInt_toInt] using mulAcc_ofInt (n := n) a.toInt b.toInt acc.toInt sub

/-- `MulAcc` over the unsigned values of its operands. -/
theorem mulAcc_eq_ofInt_toNat {n : Nat} (a b acc : BitVec n) (sub : Bool) :
    mulAcc a b acc sub =
      BitVec.ofInt n (if sub then acc.toNat - a.toNat * b.toNat else acc.toNat + a.toNat * b.toNat) := by
  simpa only [BitVec.ofInt_natCast, BitVec.ofNat_toNat, BitVec.setWidth_eq] using
    mulAcc_ofInt (n := n) a.toNat b.toNat acc.toNat sub

/-- `MulAcc` is the exact sum or difference modulo `2 ^ n` (40_execution_cycle.md R175). -/
theorem natCast_toNat_mulAcc {n : Nat} (a b acc : BitVec n) (sub : Bool) :
    ((mulAcc a b acc sub).toNat : Int) =
      (if sub then acc.toNat - a.toNat * b.toNat else acc.toNat + a.toNat * b.toNat : Int) % 2 ^ n := by
  rw [mulAcc_eq_ofInt_toNat, BitVec.toNat_ofInt, Nat.cast_pow, Nat.cast_ofNat,
    Int.toNat_of_nonneg (Int.emod_nonneg _ (by positivity))]

/-- A multiply that completes leaves the flags (40_execution_cycle.md R175). -/
theorem multiply_keeps_flags {sub : Bool} {w : Width} {rm ra rn rd : RegIdx} {s t : State}
    (h : multiply sub w rm ra rn rd s = .next t) : t.flags = s.flags := by
  rw [multiply_eq] at h
  cases h
  simp

/-- Settles O12, from `MulAcc` over the unsigned and over the signed values and the flags a multiply
keeps. -/
theorem multiplyAccumulateFormulas : Obligations.MultiplyAccumulateFormulas := by
  refine ⟨fun w a b acc => ⟨?_, natCast_toNat_mulAcc a b acc true, mulAcc_eq_ofInt_toInt a b acc false,
    mulAcc_eq_ofInt_toInt a b acc true⟩, fun w rm ra rn rd s t h => ?_⟩
  · have sum : ((mulAcc a b acc false).toNat : Int) =
        (acc.toNat + a.toNat * b.toNat) % 2 ^ w.bits := natCast_toNat_mulAcc a b acc false
    exact_mod_cast sum
  · rw [exec_madd, exec_msub] at h
    exact h.elim multiply_keeps_flags multiply_keeps_flags

end Sys2Proof.Machine

end

section
/-! PROOFS of the family 43_load_store.md: the bounds fault of every transfer (R292).

Every transfer ends on the same test of its address, so the equivalence is proved once of that test
and each form is read through the law that says all its shared meaning can do. -/

namespace Sys2Proof.Machine

/-- A result guarded by the bounds test is the fault exactly past the end of memory
(43_load_store.md R292). -/
theorem memSize_lt_iff_guard_eq_fault (ea : DWord) (n : Nat) (t : State) (f : Fault) :
    memSize < ea.toNat + n ↔
      (if inBounds ea n then .next t else .fault f : Result) = .fault f := by
  rw [← not_inBounds_iff]
  cases inBounds ea n <;> simp

/-- A load faults exactly when its access is out of bounds (43_load_store.md R292). -/
theorem memSize_lt_iff_load_eq_fault (w : Width) (mode : AddrMode) (rn rt : RegIdx) (s : State) :
    memSize < (effAddr s w mode rn).toNat + w.bytes ↔
      load w mode rn rt s = .fault (.dataBounds (effAddr s w mode rn) w.bytes s.pc) := by
  rw [load_eq]
  exact memSize_lt_iff_guard_eq_fault ..

/-- A store faults exactly when its access is out of bounds (43_load_store.md R292). -/
theorem memSize_lt_iff_store_eq_fault (w : Width) (mode : AddrMode) (rn rt : RegIdx) (s : State) :
    memSize < (effAddr s w mode rn).toNat + w.bytes ↔
      store w mode rn rt s = .fault (.dataBounds (effAddr s w mode rn) w.bytes s.pc) := by
  rw [store_eq]
  exact memSize_lt_iff_guard_eq_fault ..

/-- A literal load faults exactly when its access is out of bounds (43_load_store.md R292). -/
theorem memSize_lt_iff_execLdrLit_eq_fault (w : Width) (simm19 : BitVec 19) (rt : RegIdx)
    (s : State) :
    memSize < (pcRelative s simm19).toNat + w.bytes ↔
      execLdrLit w simm19 rt s = .fault (.dataBounds (pcRelative s simm19) w.bytes s.pc) := by
  rw [execLdrLit_eq]
  exact memSize_lt_iff_guard_eq_fault ..

/-- Settles O32, from the fault condition of a load and of a store in any addressing mode and that of
the literal load. -/
theorem transfersFaultExactlyOutOfBounds : Obligations.TransfersFaultExactlyOutOfBounds := by
  intro w rn rt s
  refine ⟨?unsignedOffset, ?regOffset, ?preIndex, ?postIndex, ?literal⟩
  case unsignedOffset =>
    rintro imm12 _ rfl
    rw [exec_ldrUoff, exec_strUoff]
    exact ⟨memSize_lt_iff_load_eq_fault .., memSize_lt_iff_store_eq_fault ..⟩
  case regOffset =>
    rintro rm _ rfl
    rw [exec_ldrReg, exec_strReg]
    exact ⟨memSize_lt_iff_load_eq_fault .., memSize_lt_iff_store_eq_fault ..⟩
  case preIndex =>
    rintro simm9 _ rfl
    rw [exec_ldrPre, exec_strPre]
    exact ⟨memSize_lt_iff_load_eq_fault .., memSize_lt_iff_store_eq_fault ..⟩
  case postIndex =>
    rintro simm9 _ rfl
    rw [exec_ldrPost, exec_strPost]
    exact ⟨memSize_lt_iff_load_eq_fault .., memSize_lt_iff_store_eq_fault ..⟩
  case literal =>
    rintro simm19 _ rfl
    rw [exec_ldrLit]
    exact memSize_lt_iff_execLdrLit_eq_fault ..

end Sys2Proof.Machine

end

section
/-! PROOFS of the family 70_reset_and_hazards.md: the value of every piece of state after reset
(R400). -/

namespace Sys2Proof.Machine

/-- The flags after reset are `-Z--` as the four bits `N:Z:C:V` (70_reset_and_hazards.md R400). -/
theorem State.reset_nzcv : State.reset.flags.nzcv = 0b0100#4 := by
  rw [State.reset_flags]
  decide

/-- The memory lists no address after reset, so every byte reads as an unlisted one: zero
(70_reset_and_hazards.md R400). -/
theorem State.reset_readByte (a : Nat) : State.reset.mem.readByte a = 0#8 := by
  rw [State.reset_mem, Memory.readByte_nil, unlistedByte]

/-- Settles O47, field by field from the reset values of the registers, flags, PC, memory and run
state. -/
theorem resetValues : Obligations.ResetValues :=
  ⟨State.reset_x, State.reset_nzcv, State.reset_pc, State.reset_readByte, State.reset_run⟩

end Sys2Proof.Machine

end

section
/-! PROOFS of 30_encoding.md: the decoder and the encoder (R102, R119, R125 to R127, R136, R145,
R146).

Decoder and encoder meet in the opcode map. A word that has a row's fixed bits and meets the row's
constraint is decoded to that row's instruction with every operand read from the word
(`decode_of_takes`), and whatever the decoder answers is such a reading (`decode_decoding`).
Inserting what was read into the fixed bits gives the word back (`encode_readFrom`), which closes
the round trip in both directions. -/

namespace Sys2Proof.Laws

/-! ## Words with some bits fixed -/

/-- A slice of a masked word (00_scope.md R8). -/
theorem slice_and (hi lo : Nat) {n : Nat} (u v : BitVec n) :
    slice hi lo (u &&& v) = slice hi lo u &&& slice hi lo v := by
  simp only [slice, BitVec.extractLsb'_and]

section

variable {v m p : Word}

theorem getLsbD_of_fixed_true (h : v &&& m = p) {k : Nat} (hp : p.getLsbD k = true) :
    v.getLsbD k = true := by
  rw [← h, BitVec.getLsbD_and, Bool.and_eq_true] at hp
  exact hp.1

theorem getLsbD_of_fixed_false (h : v &&& m = p) {k : Nat}
    (hk : m.getLsbD k = true ∧ p.getLsbD k = false) : v.getLsbD k = false := by
  rw [← h, BitVec.getLsbD_and] at hk
  simpa [hk.1] using hk.2

/-- Fixed bits that make up a whole slice decide a test of it. -/
theorem slice_eq_of_fixed (h : v &&& m = p) {hi lo : Nat} {c : BitVec (hi - lo + 1)}
    (hc : slice hi lo m = BitVec.allOnes (hi - lo + 1) ∧ slice hi lo p = c) :
    (slice hi lo v = c) = True := by
  obtain ⟨hm, rfl⟩ := hc
  rw [← h, slice_and, hm, BitVec.and_allOnes, eq_self]

/-- One fixed bit that differs refutes a test of a slice. -/
theorem slice_ne_of_fixed (h : v &&& m = p) {hi lo : Nat} {c : BitVec (hi - lo + 1)}
    (hc : slice hi lo p ≠ c &&& slice hi lo m) : (slice hi lo v = c) = False :=
  eq_false fun hv => hc (by rw [← h, slice_and, hv])

theorem ne_terminateWord_of_fixed (h : v &&& m = p) (hp : terminateWord &&& m ≠ p) :
    (v = terminateWord) = False :=
  eq_false fun hv => hp (hv ▸ h)

/-- All the tests of a word that fixed bits decide, in one list for `simp`. -/
theorem fixed_tests (h : v &&& m = p) :
    (∀ k, p.getLsbD k = true → v.getLsbD k = true) ∧
    (∀ k, m.getLsbD k = true ∧ p.getLsbD k = false → v.getLsbD k = false) ∧
    (∀ hi lo (c : BitVec (hi - lo + 1)),
      slice hi lo m = BitVec.allOnes (hi - lo + 1) ∧ slice hi lo p = c →
        (slice hi lo v = c) = True) ∧
    (∀ hi lo (c : BitVec (hi - lo + 1)),
      slice hi lo p ≠ c &&& slice hi lo m → (slice hi lo v = c) = False) ∧
    (terminateWord &&& m ≠ p → (v = terminateWord) = False) :=
  ⟨fun _ => getLsbD_of_fixed_true h, fun _ => getLsbD_of_fixed_false h,
    fun _ _ _ => slice_eq_of_fixed h, fun _ _ _ => slice_ne_of_fixed h, ne_terminateWord_of_fixed h⟩

/-- Fixed bits add up. -/
theorem fixed_or {m' p' : Word} (h : v &&& m = p) (h' : v &&& m' = p') :
    v &&& (m ||| m') = p ||| p' := by
  rw [BitVec.and_or_distrib_left, h, h']

/-- A known slice is fixed bits. -/
theorem fixed_of_slice {hi lo : Nat} {c : BitVec (hi - lo + 1)} (h : slice hi lo v = c) :
    v &&& place lo (BitVec.allOnes (hi - lo + 1)) = place lo c := by
  subst h
  refine BitVec.eq_of_getLsbD_eq fun k hk => ?_
  simp only [BitVec.getLsbD_and, getLsbD_place, getLsbD_slice, BitVec.getLsbD_allOnes, hk]
  by_cases hle : lo ≤ k
  · simp [hle, Nat.add_sub_of_le hle, Bool.and_comm]
  · simp [hle]

/-- A known bit is a fixed bit. -/
theorem fixed_of_getLsbD {k : Nat} {b : Bool} (h : v.getLsbD k = b) :
    v &&& place k 1#1 = place k (BitVec.ofBool b) := by
  subst h
  refine BitVec.eq_of_getLsbD_eq fun j hj => ?_
  simp only [BitVec.getLsbD_and, getLsbD_place, hj, decide_true, Bool.true_and]
  rcases Nat.lt_trichotomy j k with hlt | rfl | hgt
  · simp [Nat.not_le.2 hlt]
  · simp
  · simp [Nat.sub_ne_zero_of_lt hgt]

end

/-! ## Slices and bits as numbers -/

/-- A slice as a number (00_scope.md R8). -/
theorem toNat_slice (hi lo : Nat) {n : Nat} (v : BitVec n) :
    (slice hi lo v).toNat = v.toNat / 2 ^ lo % 2 ^ (hi - lo + 1) := by
  rw [slice, BitVec.extractLsb'_toNat, Nat.shiftRight_eq_div_pow]

theorem slice_eq_iff {hi lo n : Nat} {v : BitVec n} {c : BitVec (hi - lo + 1)} :
    slice hi lo v = c ↔ v.toNat / 2 ^ lo % 2 ^ (hi - lo + 1) = c.toNat := by
  rw [← BitVec.toNat_inj, toNat_slice]

theorem getLsbD_eq_true_iff {n k : Nat} {v : BitVec n} :
    v.getLsbD k = true ↔ v.toNat / 2 ^ k % 2 = 1 := by
  rw [← BitVec.testBit_toNat, Nat.testBit_eq_decide_div_mod_eq, decide_eq_true_eq]

theorem getLsbD_eq_false_iff {n k : Nat} {v : BitVec n} :
    v.getLsbD k = false ↔ v.toNat / 2 ^ k % 2 = 0 := by
  rw [← Bool.not_eq_true, getLsbD_eq_true_iff]
  omega

/-! ## Names and checks on the bits of a word -/

/-- The `sf` bit of the width a bit selects is that bit (00_scope.md R16). -/
theorem getLsbD_sf_widthOfBit (b : Bool) : (widthOfBit b).sf.getLsbD 0 = b := by cases b <;> rfl

/-- The code of the shift kind two bits name (30_encoding.md R120). -/
theorem code_shiftKindOfBits (v : Word) :
    (shiftKindOfBits (v.getLsbD 23) (v.getLsbD 22)).code = slice 23 22 v := by
  refine ((slice_eq_iff (hi := 23) (lo := 22)).2 ?_).symm
  cases h1 : v.getLsbD 23 <;> cases h0 : v.getLsbD 22 <;>
    simp only [getLsbD_eq_true_iff, getLsbD_eq_false_iff] at h1 h0 <;>
    simp only [shiftKindOfBits, ShiftKind.code, BitVec.toNat_ofNat] <;> omega

section

variable (v : Word)

/-- The amount check (30_encoding.md R127). -/
theorem amountFits_of_bits :
    amountFits (widthOfBit (v.getLsbD 31)) (slice 15 10 v) = (v.getLsbD 31 || !v.getLsbD 15) := by
  have amount : (slice 15 10 v).toNat < 32 ↔ v.getLsbD 15 = false := by
    rw [toNat_slice, getLsbD_eq_false_iff]; omega
  cases v.getLsbD 31 <;> simp [amountFits, widthOfBit, amount]

/-- The halfword check (30_encoding.md R127). -/
theorem halfwordFits_of_bits :
    halfwordFits (widthOfBit (v.getLsbD 31)) (slice 22 21 v) = (v.getLsbD 31 || !v.getLsbD 22) := by
  have position : (slice 22 21 v).toNat < 2 ↔ v.getLsbD 22 = false := by
    rw [toNat_slice, getLsbD_eq_false_iff]; omega
  cases v.getLsbD 31 <;> simp [halfwordFits, widthOfBit, position]

/-- The shift check (30_encoding.md R127). -/
theorem arithShiftAllowed_of_bits :
    arithShiftAllowed (shiftKindOfBits (v.getLsbD 23) (v.getLsbD 22)) =
      (slice 23 22 v != 0b11#2) := by
  rw [← code_shiftKindOfBits]
  cases shiftKindOfBits (v.getLsbD 23) (v.getLsbD 22) <;> rfl

end

/-! ## Reading an instruction's operands from a word -/

/-- The instruction of a canonical row with every operand read from a word. -/
def readFrom (v : Word) : Instr → Instr
  | .addImm .. => .addImm (widthOfBit (v.getLsbD 31)) (v.getLsbD 22) (slice 21 10 v) (slice 9 5 v)
      (slice 4 0 v)
  | .addsImm .. => .addsImm (widthOfBit (v.getLsbD 31)) (v.getLsbD 22) (slice 21 10 v) (slice 9 5 v)
      (slice 4 0 v)
  | .subImm .. => .subImm (widthOfBit (v.getLsbD 31)) (v.getLsbD 22) (slice 21 10 v) (slice 9 5 v)
      (slice 4 0 v)
  | .subsImm .. => .subsImm (widthOfBit (v.getLsbD 31)) (v.getLsbD 22) (slice 21 10 v) (slice 9 5 v)
      (slice 4 0 v)
  | .movn .. => .movn (widthOfBit (v.getLsbD 31)) (slice 22 21 v) (slice 20 5 v) (slice 4 0 v)
  | .movz .. => .movz (widthOfBit (v.getLsbD 31)) (slice 22 21 v) (slice 20 5 v) (slice 4 0 v)
  | .movk .. => .movk (widthOfBit (v.getLsbD 31)) (slice 22 21 v) (slice 20 5 v) (slice 4 0 v)
  | .addReg .. => .addReg (widthOfBit (v.getLsbD 31))
      (shiftKindOfBits (v.getLsbD 23) (v.getLsbD 22)) (slice 20 16 v) (slice 15 10 v) (slice 9 5 v)
      (slice 4 0 v)
  | .addsReg .. => .addsReg (widthOfBit (v.getLsbD 31))
      (shiftKindOfBits (v.getLsbD 23) (v.getLsbD 22)) (slice 20 16 v) (slice 15 10 v) (slice 9 5 v)
      (slice 4 0 v)
  | .subReg .. => .subReg (widthOfBit (v.getLsbD 31))
      (shiftKindOfBits (v.getLsbD 23) (v.getLsbD 22)) (slice 20 16 v) (slice 15 10 v) (slice 9 5 v)
      (slice 4 0 v)
  | .subsReg .. => .subsReg (widthOfBit (v.getLsbD 31))
      (shiftKindOfBits (v.getLsbD 23) (v.getLsbD 22)) (slice 20 16 v) (slice 15 10 v) (slice 9 5 v)
      (slice 4 0 v)
  | .andReg .. => .andReg (widthOfBit (v.getLsbD 31))
      (shiftKindOfBits (v.getLsbD 23) (v.getLsbD 22)) (slice 20 16 v) (slice 15 10 v) (slice 9 5 v)
      (slice 4 0 v)
  | .bicReg .. => .bicReg (widthOfBit (v.getLsbD 31))
      (shiftKindOfBits (v.getLsbD 23) (v.getLsbD 22)) (slice 20 16 v) (slice 15 10 v) (slice 9 5 v)
      (slice 4 0 v)
  | .orrReg .. => .orrReg (widthOfBit (v.getLsbD 31))
      (shiftKindOfBits (v.getLsbD 23) (v.getLsbD 22)) (slice 20 16 v) (slice 15 10 v) (slice 9 5 v)
      (slice 4 0 v)
  | .ornReg .. => .ornReg (widthOfBit (v.getLsbD 31))
      (shiftKindOfBits (v.getLsbD 23) (v.getLsbD 22)) (slice 20 16 v) (slice 15 10 v) (slice 9 5 v)
      (slice 4 0 v)
  | .eorReg .. => .eorReg (widthOfBit (v.getLsbD 31))
      (shiftKindOfBits (v.getLsbD 23) (v.getLsbD 22)) (slice 20 16 v) (slice 15 10 v) (slice 9 5 v)
      (slice 4 0 v)
  | .eonReg .. => .eonReg (widthOfBit (v.getLsbD 31))
      (shiftKindOfBits (v.getLsbD 23) (v.getLsbD 22)) (slice 20 16 v) (slice 15 10 v) (slice 9 5 v)
      (slice 4 0 v)
  | .andsReg .. => .andsReg (widthOfBit (v.getLsbD 31))
      (shiftKindOfBits (v.getLsbD 23) (v.getLsbD 22)) (slice 20 16 v) (slice 15 10 v) (slice 9 5 v)
      (slice 4 0 v)
  | .bicsReg .. => .bicsReg (widthOfBit (v.getLsbD 31))
      (shiftKindOfBits (v.getLsbD 23) (v.getLsbD 22)) (slice 20 16 v) (slice 15 10 v) (slice 9 5 v)
      (slice 4 0 v)
  | .madd .. => .madd (widthOfBit (v.getLsbD 31)) (slice 20 16 v) (slice 14 10 v) (slice 9 5 v)
      (slice 4 0 v)
  | .msub .. => .msub (widthOfBit (v.getLsbD 31)) (slice 20 16 v) (slice 14 10 v) (slice 9 5 v)
      (slice 4 0 v)
  | .ldrUoff .. => .ldrUoff (widthOfBit (v.getLsbD 30)) (slice 21 10 v) (slice 9 5 v) (slice 4 0 v)
  | .strUoff .. => .strUoff (widthOfBit (v.getLsbD 30)) (slice 21 10 v) (slice 9 5 v) (slice 4 0 v)
  | .ldrPre .. => .ldrPre (widthOfBit (v.getLsbD 30)) (slice 20 12 v) (slice 9 5 v) (slice 4 0 v)
  | .strPre .. => .strPre (widthOfBit (v.getLsbD 30)) (slice 20 12 v) (slice 9 5 v) (slice 4 0 v)
  | .ldrPost .. => .ldrPost (widthOfBit (v.getLsbD 30)) (slice 20 12 v) (slice 9 5 v) (slice 4 0 v)
  | .strPost .. => .strPost (widthOfBit (v.getLsbD 30)) (slice 20 12 v) (slice 9 5 v) (slice 4 0 v)
  | .ldrReg .. => .ldrReg (widthOfBit (v.getLsbD 30)) (slice 20 16 v) (slice 9 5 v) (slice 4 0 v)
  | .strReg .. => .strReg (widthOfBit (v.getLsbD 30)) (slice 20 16 v) (slice 9 5 v) (slice 4 0 v)
  | .ldrLit .. => .ldrLit (widthOfBit (v.getLsbD 30)) (slice 23 5 v) (slice 4 0 v)
  | .b _ => .b (slice 25 0 v)
  | .bCond _ cond => .bCond (slice 23 5 v) ((condOfCode (slice 3 0 v)).getD cond)
  | .br _ => .br (slice 9 5 v)
  | i => i

/-- A word matches a row on its fixed bits and its constraint (30_encoding.md R146). -/
theorem takes_iff (r : OpcodeRow) (v : Word) :
    r.takes v = true ↔ v &&& r.mask = r.pattern ∧ r.also.holds v = true := by
  rw [OpcodeRow.takes, Bool.and_eq_true, beq_iff_eq]

theorem readFrom_row (v : Word) (i : Instr) : (readFrom v i).row = i.row := by
  cases i <;> rfl

/-- A field read from a word is held by it. -/
theorem holdsField_slice {v : Word} {hi lo : Nat} (h : lo ≤ hi ∧ hi < 32) :
    HoldsField v (hi, lo, fieldValue (slice hi lo v)) := by
  refine (holdsField_iff h.1 h.2).2 ?_
  rw [fieldValue, BitVec.setWidth_setWidth_of_le _ (by omega), BitVec.setWidth_eq]

theorem holdsField_sf {v : Word} {k : Nat} (h : k < 32) :
    HoldsField v (k, k, fieldValue (widthOfBit (v.getLsbD k)).sf) := by
  refine (holdsField_iff (Nat.le_refl k) h).2 (BitVec.eq_of_getLsbD_eq fun j hj => ?_)
  obtain rfl : j = 0 := by omega
  simp only [getLsbD_slice, fieldValue, BitVec.getLsbD_setWidth, getLsbD_sf_widthOfBit, hj,
    decide_true, Bool.true_and, Nat.add_zero, Nat.zero_lt_succ]

theorem holdsField_code {v : Word} :
    HoldsField v (23, 22, fieldValue (shiftKindOfBits (v.getLsbD 23) (v.getLsbD 22)).code) := by
  rw [code_shiftKindOfBits]
  exact holdsField_slice (by decide)

theorem holdsField_ofBool {v : Word} {k : Nat} (h : k < 32) :
    HoldsField v (k, k, fieldValue (BitVec.ofBool (v.getLsbD k))) := by
  refine (holdsField_iff (Nat.le_refl k) h).2 (BitVec.eq_of_getLsbD_eq fun j hj => ?_)
  obtain rfl : j = 0 := by omega
  simp [-BitVec.getLsbD_eq_getElem, getLsbD_slice, fieldValue]

/-- Where a row has a condition field, the word names a condition there (30_encoding.md R119). -/
def NamesCondition (v : Word) (i : Instr) : Prop :=
  i.row.also = .knownCondition → (condOfCode (slice 3 0 v)).isSome = true

theorem namesCondition_of_holds {v : Word} {i : Instr} (h : i.row.also.holds v = true) :
    NamesCondition v i := by
  intro e
  rwa [e] at h

/-- What a row's instruction reads from a word is what the word holds. -/
theorem holdsFields_readFrom {v : Word} {i : Instr} (hi : i.isCanonical = true)
    (hc : NamesCondition v i) : HoldsFields v (readFrom v i).fields := by
  cases i with
  | halt => exact holdsFields_nil v
  | addImm | addsImm | subImm | subsImm =>
    simp (disch := decide) only [readFrom, Instr.fields, holdsFields_cons, holdsFields_nil,
      holdsField_slice, holdsField_sf, holdsField_ofBool, and_self]
  | movn | movz | movk | madd | msub | ldrUoff | strUoff | ldrPre | strPre | ldrPost | strPost
  | ldrReg | strReg | ldrLit | b | br =>
    simp (disch := decide) only [readFrom, Instr.fields, holdsFields_cons, holdsFields_nil,
      holdsField_slice, holdsField_sf, and_self]
  | addReg | addsReg | subReg | subsReg | andReg | bicReg | orrReg | ornReg | eorReg | eonReg
  | andsReg | bicsReg =>
    simp (disch := decide) only [readFrom, Instr.fields, holdsFields_cons, holdsFields_nil,
      holdsField_slice, holdsField_sf, holdsField_code, and_self]
  | bCond simm19 cond =>
    obtain ⟨c, known⟩ := Option.isSome_iff_exists.1 (hc rfl)
    simp (disch := decide) only [readFrom, Instr.fields, known, Option.getD_some,
      code_of_condOfCode known, holdsFields_cons, holdsFields_nil, holdsField_slice, and_self]
  | _ => simp [Instr.isCanonical, Instr.canonical] at hi

/-- A word with a row's fixed bits is the word of the instruction read from it: fixed bits and
fields are all there is (30_encoding.md R146). -/
theorem encode_readFrom {v : Word} {i : Instr} (hi : i.isCanonical = true)
    (hm : v &&& i.row.mask = i.row.pattern) (hc : NamesCondition v i) :
    encode (readFrom v i) = v :=
  calc encode (readFrom v i)
      = insertFields i.row.pattern (readFrom v i).fields := by
        rw [encode_eq_insertFields, readFrom_row]
    _ = v &&& (readFrom v i).fields.foldl coverField (readFrom v i).row.mask := by
        rw [← hm, (holdsFields_readFrom hi hc).insertFields_and, readFrom_row]
    _ = v := by rw [foldl_coverField_fields, BitVec.and_allOnes]

/-- The and of `x0`, `x0`, `x0` is spelled by the terminate word alone (30_encoding.md R103). -/
theorem encode_andReg_of_spellsTerminate {w : Width} {shift : ShiftKind} {rm rn rd : RegIdx}
    {imm6 : BitVec 6} (h : spellsTerminate w shift rm imm6 rn rd = true) :
    encode (.andReg w shift rm imm6 rn rd) = terminateWord := by
  simp only [spellsTerminate, Bool.and_eq_true, beq_iff_eq] at h
  obtain ⟨⟨⟨⟨⟨rfl, rfl⟩, rfl⟩, rfl⟩, rfl⟩, rfl⟩ := h
  rfl

/-- A word meets its row's constraint exactly when the instruction read from it is well-formed
(30_encoding.md R127, R146). -/
theorem also_holds_eq_wf {v : Word} {i : Instr} (hi : i.isCanonical = true)
    (hm : v &&& i.row.mask = i.row.pattern) (hc : NamesCondition v i) :
    i.row.also.holds v = (readFrom v i).wf := by
  cases i with
  | movn | movz | movk => exact (halfwordFits_of_bits v).symm
  | addReg | addsReg | subReg | subsReg =>
    simp only [readFrom, Instr.wf, Instr.row, RowConstraint.holds, arithShiftAllowed_of_bits,
      amountFits_of_bits]
  | bicReg | orrReg | ornReg | eorReg | eonReg | andsReg | bicsReg =>
    exact (amountFits_of_bits v).symm
  | andReg w shift rm imm6 rn rd =>
    have spelled : (v != terminateWord) = !spellsTerminate (widthOfBit (v.getLsbD 31))
        (shiftKindOfBits (v.getLsbD 23) (v.getLsbD 22)) (slice 20 16 v) (slice 15 10 v)
        (slice 9 5 v) (slice 4 0 v) := by
      rw [bne, Bool.not_inj_iff, Bool.eq_iff_iff, beq_iff_eq]
      refine ⟨fun h => by subst h; rfl, fun h => ?_⟩
      rw [← encode_andReg_of_spellsTerminate h]
      exact (encode_readFrom hi hm hc).symm
    simp only [readFrom, Instr.wf, Instr.row, RowConstraint.holds, amountFits_of_bits, spelled]
  | bCond simm19 cond => exact hc rfl
  | halt | addImm | addsImm | subImm | subsImm | madd | msub | ldrUoff | strUoff | ldrPre | strPre
  | ldrPost | strPost | ldrReg | strReg | ldrLit | b | br => rfl
  | _ => simp [Instr.isCanonical, Instr.canonical] at hi

/-- A word a row takes decodes to the row's instruction, read from the word (30_encoding.md
R126). -/
theorem decode_of_takes {v : Word} {i : Instr} (hi : i.isCanonical = true)
    (ht : i.row.takes v = true) : decode v = .ok (readFrom v i) := by
  obtain ⟨hm, hc⟩ := (takes_iff i.row v).1 ht
  have wf : (readFrom v i).wf = true :=
    (also_holds_eq_wf hi hm (namesCondition_of_holds hc)).symm.trans hc
  cases i with
  | halt =>
    obtain rfl : v = terminateWord := (BitVec.and_allOnes (x := v)).symm.trans hm
    rfl
  | addImm | addsImm | subImm | subsImm | movn | movz | movk =>
    simp only [Instr.row] at hm
    simp only [readFrom, Instr.wf] at wf
    simp (disch := decide) only [readFrom, decode, decodeDPImm, wf, fixed_tests hm,
      if_true, if_false]
  | addReg | addsReg | subReg | subsReg =>
    simp only [Instr.row] at hm
    simp only [readFrom, Instr.wf, Bool.and_eq_true] at wf
    simp (disch := decide) only [readFrom, decode, decodeDPReg, wf, fixed_tests hm,
      if_true, if_false]
  | bicReg | orrReg | ornReg | eorReg | eonReg | andsReg | bicsReg | madd | msub =>
    simp only [Instr.row] at hm
    simp only [readFrom, Instr.wf] at wf
    simp (disch := decide) only [readFrom, decode, decodeDPReg, wf, fixed_tests hm,
      if_true, if_false, and_self]
  | andReg =>
    have hne : v ≠ terminateWord := by
      simp only [Instr.row, RowConstraint.holds, Bool.and_eq_true, bne_iff_ne] at hc
      exact hc.2
    simp only [Instr.row] at hm
    simp only [readFrom, Instr.wf, Bool.and_eq_true] at wf
    simp (disch := decide) only [readFrom, decode, decodeDPReg, wf, hne, fixed_tests hm, if_true,
      if_false]
  | ldrUoff | strUoff | ldrPre | strPre | ldrPost | strPost | ldrReg | strReg | ldrLit =>
    simp only [Instr.row] at hm
    simp (disch := decide) only [readFrom, decode, decodeLdSt, fixed_tests hm, Bool.false_eq_true,
      if_true, if_false, and_self, false_and]
  | b | br =>
    simp only [Instr.row] at hm
    simp (disch := decide) only [readFrom, decode, decodeBranch, fixed_tests hm, Bool.false_eq_true,
      if_true, if_false, and_self, false_and]
  | bCond simm19 cond =>
    obtain ⟨c, known⟩ := Option.isSome_iff_exists.1 (namesCondition_of_holds hc rfl)
    simp only [Instr.row] at hm
    simp (disch := decide) only [readFrom, decode, decodeBranch, known, Option.getD_some,
      fixed_tests hm, Bool.false_eq_true, if_true, if_false, and_self, false_and]
  | _ => simp [Instr.isCanonical, Instr.canonical] at hi

/-! ## All the decoder can answer -/

/-- The answers of `decode v`: an instruction of a row that takes `v`, read from `v`, or a fault
with what raises it (30_encoding.md R125). -/
inductive Decoding (v : Word) : Except DecodeError Instr → Prop where
  | ok (i : Instr) (canonical : i.isCanonical = true) (fixed : v &&& i.row.mask = i.row.pattern)
      (also : i.row.also.holds v = true) (reads : readFrom v i = i) : Decoding v (.ok i)
  | unallocated : Decoding v (.error .unallocated)
  | illegalShift (layout : slice 28 24 v = 0b01011#5) (rotate : slice 23 22 v = 0b11#2)
      (bit21 : v.getLsbD 21 = false) : Decoding v (.error .illegalShift)
  | condition (layout : slice 31 24 v = 0b01010100#8) (bit4 : v.getLsbD 4 = false)
      (unknown : condOfCode (slice 3 0 v) = none) : Decoding v (.error .condition)
  | category (selector : v.toNat / 2 ^ 25 % 16 ∈ [0, 1, 2, 3, 7, 15]) :
      Decoding v (.error .category)

section

variable {v : Word}

theorem decodeDPImm_decoding (category : slice 28 26 v = 0b100#3) : Decoding v (decodeDPImm v) := by
  unfold decodeDPImm
  simp only
  split
  next format =>
    have hm := fixed_or (fixed_of_slice category) (fixed_of_slice format)
    split
    all_goals
      next h30 h29 =>
      exact .ok _ (beq_self_eq_true _)
        (fixed_or hm (fixed_or (fixed_of_getLsbD h30) (fixed_of_getLsbD h29))) rfl rfl
  split
  next format =>
    have hm := fixed_or (fixed_of_slice category) (fixed_of_slice format)
    split
    next => exact .unallocated
    all_goals
      next h30 h29 =>
      split
      next fits =>
        exact .ok _ (beq_self_eq_true _)
          (fixed_or hm (fixed_or (fixed_of_getLsbD h30) (fixed_of_getLsbD h29)))
          ((halfwordFits_of_bits v).symm.trans fits) rfl
      next => exact .unallocated
  next => exact .unallocated

theorem decodeDPReg_decoding (ht : v ≠ terminateWord) (category : slice 27 25 v = 0b101#3) :
    Decoding v (decodeDPReg v) := by
  unfold decodeDPReg
  simp only
  split
  next h28 h24 h21 =>
    have hm := fixed_or (fixed_of_slice category) (fixed_or (fixed_of_getLsbD h28)
      (fixed_or (fixed_of_getLsbD h24) (fixed_of_getLsbD h21)))
    split
    next allowed =>
      split
      next fits =>
        have also : RowConstraint.arithAmount.holds v = true := by
          rw [RowConstraint.holds, ← arithShiftAllowed_of_bits, ← amountFits_of_bits, allowed, fits]
          rfl
        split
        all_goals
          next h30 h29 =>
          exact .ok _ (beq_self_eq_true _)
            (fixed_or hm (fixed_or (fixed_of_getLsbD h30) (fixed_of_getLsbD h29))) also rfl
      next => exact .unallocated
    next rotates =>
      have layout : slice 28 24 v = 0b01011#5 := by
        rw [slice_eq_iff] at category ⊢
        rw [getLsbD_eq_false_iff] at h28
        rw [getLsbD_eq_true_iff] at h24
        simp only [BitVec.toNat_ofNat] at category ⊢
        omega
      have rotate : slice 23 22 v = 0b11#2 := by
        rw [arithShiftAllowed_of_bits, bne_iff_ne, not_not] at rotates
        exact rotates
      exact .illegalShift layout rotate h21
  next => exact .unallocated
  next h28 h24 =>
    have hm := fixed_or (fixed_of_slice category) (fixed_or (fixed_of_getLsbD h28)
      (fixed_of_getLsbD h24))
    split
    next fits =>
      have also := (amountFits_of_bits v).symm.trans fits
      split
      next h30 h29 h21 =>
        exact .ok _ (beq_self_eq_true _)
          (fixed_or hm (fixed_or (fixed_of_getLsbD h30)
            (fixed_or (fixed_of_getLsbD h29) (fixed_of_getLsbD h21))))
          (by rw [Instr.row, RowConstraint.holds, also, Bool.true_and, bne_iff_ne]; exact ht) rfl
      all_goals
        next h30 h29 h21 =>
        exact .ok _ (beq_self_eq_true _)
          (fixed_or hm (fixed_or (fixed_of_getLsbD h30)
            (fixed_or (fixed_of_getLsbD h29) (fixed_of_getLsbD h21)))) also rfl
    next => exact .unallocated
  next h28 =>
    split
    next format =>
      have hm := fixed_or (fixed_or (fixed_of_slice category) (fixed_of_getLsbD h28))
        (fixed_of_slice format.1)
      split
      all_goals
        next h15 =>
        exact .ok _ (beq_self_eq_true _)
          (fixed_or hm (fixed_or (fixed_of_slice format.2) (fixed_of_getLsbD h15))) rfl rfl
    next => exact .unallocated

theorem decodeLdSt_decoding : Decoding v (decodeLdSt v) := by
  unfold decodeLdSt
  simp only
  split
  next format =>
    obtain ⟨h31, hfmt, h23⟩ := format
    have hm := fixed_or (fixed_of_getLsbD h31)
      (fixed_or (fixed_of_slice hfmt) (fixed_of_getLsbD h23))
    split
    next h24 =>
      have hm := fixed_or hm (fixed_of_getLsbD h24)
      split
      all_goals
        next h22 =>
        exact .ok _ (beq_self_eq_true _) (fixed_or hm (fixed_of_getLsbD h22)) rfl rfl
    next h24 =>
      have hm := fixed_or hm (fixed_of_getLsbD (Bool.eq_false_of_not_eq_true h24))
      split
      next format =>
        have hm := fixed_or hm (fixed_or (fixed_of_getLsbD format.1) (fixed_of_slice format.2))
        split
        all_goals
          next h22 =>
          exact .ok _ (beq_self_eq_true _) (fixed_or hm (fixed_of_getLsbD h22)) rfl rfl
      split
      next format =>
        have hm := fixed_or hm (fixed_or (fixed_of_getLsbD format.1) (fixed_of_getLsbD format.2))
        split
        all_goals
          next h22 h11 =>
          exact .ok _ (beq_self_eq_true _)
            (fixed_or hm (fixed_or (fixed_of_getLsbD h22) (fixed_of_getLsbD h11))) rfl rfl
      next => exact .unallocated
  split
  next format =>
    exact .ok _ (beq_self_eq_true _)
      (fixed_or (fixed_of_getLsbD format.1) (fixed_of_slice format.2)) rfl rfl
  next => exact .unallocated

theorem decodeBranch_decoding : Decoding v (decodeBranch v) := by
  unfold decodeBranch
  split
  next format => exact .ok _ (beq_self_eq_true _) (fixed_of_slice format) rfl rfl
  split
  next format =>
    split
    next cond known =>
      exact .ok _ (beq_self_eq_true _)
        (fixed_or (fixed_of_slice format.1) (fixed_of_getLsbD format.2))
        (Option.isSome_of_eq_some known) (by rw [readFrom, known, Option.getD_some])
    next unknown => exact .condition format.1 format.2 unknown
  split
  next format =>
    exact .ok _ (beq_self_eq_true _) (fixed_or (fixed_of_slice format.1) (fixed_of_slice format.2))
      rfl rfl
  next => exact .unallocated

/-! The tests of `decode` on the selector `w[28:25]` (30_encoding.md R102). -/

theorem dpImm_iff : slice 28 26 v = 0b100#3 ↔ v.toNat / 2 ^ 25 % 16 ∈ [8, 9] := by
  rw [slice_eq_iff]
  simp only [BitVec.toNat_ofNat, List.mem_cons, List.not_mem_nil, or_false]
  omega

theorem dpReg_iff : slice 27 25 v = 0b101#3 ↔ v.toNat / 2 ^ 25 % 16 ∈ [5, 13] := by
  rw [slice_eq_iff]
  simp only [BitVec.toNat_ofNat, List.mem_cons, List.not_mem_nil, or_false]
  omega

theorem ldSt_iff : v.getLsbD 27 = true ∧ v.getLsbD 25 = false ↔
    v.toNat / 2 ^ 25 % 16 ∈ [4, 6, 12, 14] := by
  rw [getLsbD_eq_true_iff, getLsbD_eq_false_iff]
  simp only [List.mem_cons, List.not_mem_nil, or_false]
  omega

theorem branch_iff : slice 28 26 v = 0b101#3 ↔ v.toNat / 2 ^ 25 % 16 ∈ [10, 11] := by
  rw [slice_eq_iff]
  simp only [BitVec.toNat_ofNat, List.mem_cons, List.not_mem_nil, or_false]
  omega

/-- All that decoding a word can do. -/
theorem decode_decoding (v : Word) : Decoding v (decode v) := by
  unfold decode
  split
  next h => subst h; exact .ok .halt rfl rfl rfl rfl
  next ht =>
  split
  next category => exact decodeDPImm_decoding category
  split
  next category => exact decodeDPReg_decoding ht category
  split
  next category => exact decodeLdSt_decoding
  split
  next => exact decodeBranch_decoding
  next h1 h2 h3 h4 =>
    rw [dpImm_iff] at h1
    rw [dpReg_iff] at h2
    rw [ldSt_iff] at h3
    rw [branch_iff] at h4
    refine .category ?_
    simp only [List.mem_cons, List.not_mem_nil, or_false] at h1 h2 h3 h4 ⊢
    omega

/-- `decode` as one choice by the selector (30_encoding.md R102). -/
theorem decode_of_ne_terminateWord (ht : v ≠ terminateWord) :
    decode v =
      if v.toNat / 2 ^ 25 % 16 ∈ [8, 9] then decodeDPImm v
      else if v.toNat / 2 ^ 25 % 16 ∈ [5, 13] then decodeDPReg v
      else if v.toNat / 2 ^ 25 % 16 ∈ [4, 6, 12, 14] then decodeLdSt v
      else if v.toNat / 2 ^ 25 % 16 ∈ [10, 11] then decodeBranch v
      else .error .category := by
  simp only [decode, if_neg ht, dpImm_iff, dpReg_iff, ldSt_iff, branch_iff]

end

/-! ## The round trip (30_encoding.md R145) -/

theorem decode_eq_ok {v : Word} {i : Instr} (h : decode v = .ok i) :
    i.isCanonical = true ∧ i.row.takes v = true ∧ readFrom v i = i := by
  have d := decode_decoding v
  rw [h] at d
  cases d with
  | ok _ canonical fixed also reads => exact ⟨canonical, (takes_iff _ v).2 ⟨fixed, also⟩, reads⟩

/-- Settles O2, from what the decoder reads and the word such a reading makes up. -/
theorem encodeOfDecodedWordIsTheWord : Obligations.EncodeOfDecodedWordIsTheWord := by
  intro v i h
  obtain ⟨canonical, takes, reads⟩ := decode_eq_ok h
  obtain ⟨fixed, also⟩ := (takes_iff _ v).1 takes
  have named := namesCondition_of_holds also
  have wf := (also_holds_eq_wf canonical fixed named).symm.trans also
  have word := encode_readFrom canonical fixed named
  rw [reads] at wf word
  exact ⟨wf, canonical, word⟩

/-! ## Reading back what a word holds -/
section

variable {v : Word}

theorem slice_of_holdsField {hi lo n : Nat} {x : BitVec n} (hn : hi - lo + 1 = n ∧ n ≤ 32)
    (h : HoldsField v (hi, lo, fieldValue x)) : slice hi lo v = x.cast hn.1.symm := by
  obtain ⟨rfl, hle⟩ := hn
  rw [h.2.2, fieldValue, BitVec.setWidth_setWidth_of_le x hle, BitVec.setWidth_eq, BitVec.cast_eq]

theorem getLsbD_of_holdsField {k : Nat} {x : BitVec 1} (h : HoldsField v (k, k, fieldValue x)) :
    v.getLsbD k = x.getLsbD 0 := by
  have bit := congrArg (fun u => u.getLsbD 0) (slice_of_holdsField (by omega) h)
  simpa only [getLsbD_slice, BitVec.getLsbD_cast, Nat.sub_self, Nat.zero_add, Nat.add_zero,
    Nat.lt_one_iff, decide_true, Bool.true_and] using bit

theorem widthOfBit_of_holdsField {k : Nat} {w : Width} (h : HoldsField v (k, k, fieldValue w.sf)) :
    widthOfBit (v.getLsbD k) = w := by
  rw [getLsbD_of_holdsField h, widthOfBit_sf]

theorem ofBool_of_holdsField {k : Nat} {b : Bool}
    (h : HoldsField v (k, k, fieldValue (BitVec.ofBool b))) : v.getLsbD k = b :=
  (getLsbD_of_holdsField h).trans (by cases b <;> rfl)

theorem shiftKindOfBits_of_holdsField {shift : ShiftKind}
    (h : HoldsField v (23, 22, fieldValue shift.code)) :
    shiftKindOfBits (v.getLsbD 23) (v.getLsbD 22) = shift := by
  have code : slice 23 22 v = shift.code := slice_of_holdsField (by decide) h
  rw [← shiftKindOfBits_code shift, ← code, getLsbD_slice, getLsbD_slice]
  rfl

/-- Reading an instruction's fields from a word that holds them gives the instruction. -/
theorem readFrom_of_holdsFields {i : Instr} (hi : i.isCanonical = true)
    (h : HoldsFields v i.fields) : readFrom v i = i := by
  cases i with
  | halt => rfl
  | addImm | addsImm | subImm | subsImm =>
    simp only [Instr.fields, holdsFields_cons] at h
    obtain ⟨hsf, hsh, himm, hrn, hrd, -⟩ := h
    simp (disch := decide) only [readFrom, widthOfBit_of_holdsField hsf, ofBool_of_holdsField hsh,
      slice_of_holdsField _ himm, slice_of_holdsField _ hrn, slice_of_holdsField _ hrd,
      BitVec.cast_eq]
  | movn | movz | movk =>
    simp only [Instr.fields, holdsFields_cons] at h
    obtain ⟨hsf, hhw, himm, hrd, -⟩ := h
    simp (disch := decide) only [readFrom, widthOfBit_of_holdsField hsf, slice_of_holdsField _ hhw,
      slice_of_holdsField _ himm, slice_of_holdsField _ hrd, BitVec.cast_eq]
  | addReg | addsReg | subReg | subsReg | andReg | bicReg | orrReg | ornReg | eorReg | eonReg
  | andsReg | bicsReg =>
    simp only [Instr.fields, holdsFields_cons] at h
    obtain ⟨hsf, hshift, hrm, himm, hrn, hrd, -⟩ := h
    simp (disch := decide) only [readFrom, widthOfBit_of_holdsField hsf,
      shiftKindOfBits_of_holdsField hshift, slice_of_holdsField _ hrm, slice_of_holdsField _ himm,
      slice_of_holdsField _ hrn, slice_of_holdsField _ hrd, BitVec.cast_eq]
  | madd | msub =>
    simp only [Instr.fields, holdsFields_cons] at h
    obtain ⟨hsf, hrm, hra, hrn, hrd, -⟩ := h
    simp (disch := decide) only [readFrom, widthOfBit_of_holdsField hsf, slice_of_holdsField _ hrm,
      slice_of_holdsField _ hra, slice_of_holdsField _ hrn, slice_of_holdsField _ hrd,
      BitVec.cast_eq]
  | ldrUoff | strUoff | ldrPre | strPre | ldrPost | strPost =>
    simp only [Instr.fields, holdsFields_cons] at h
    obtain ⟨hsf, himm, hrn, hrt, -⟩ := h
    simp (disch := decide) only [readFrom, widthOfBit_of_holdsField hsf, slice_of_holdsField _ himm,
      slice_of_holdsField _ hrn, slice_of_holdsField _ hrt, BitVec.cast_eq]
  | ldrReg | strReg =>
    simp only [Instr.fields, holdsFields_cons] at h
    obtain ⟨hsf, hrm, hrn, hrt, -⟩ := h
    simp (disch := decide) only [readFrom, widthOfBit_of_holdsField hsf, slice_of_holdsField _ hrm,
      slice_of_holdsField _ hrn, slice_of_holdsField _ hrt, BitVec.cast_eq]
  | ldrLit =>
    simp only [Instr.fields, holdsFields_cons] at h
    obtain ⟨hsf, himm, hrt, -⟩ := h
    simp (disch := decide) only [readFrom, widthOfBit_of_holdsField hsf, slice_of_holdsField _ himm,
      slice_of_holdsField _ hrt, BitVec.cast_eq]
  | b =>
    simp only [Instr.fields, holdsFields_cons] at h
    obtain ⟨himm, -⟩ := h
    simp (disch := decide) only [readFrom, slice_of_holdsField _ himm, BitVec.cast_eq]
  | br =>
    simp only [Instr.fields, holdsFields_cons] at h
    obtain ⟨hrn, -⟩ := h
    simp (disch := decide) only [readFrom, slice_of_holdsField _ hrn, BitVec.cast_eq]
  | bCond =>
    simp only [Instr.fields, holdsFields_cons] at h
    obtain ⟨himm, hcond, -⟩ := h
    simp (disch := decide) only [readFrom, slice_of_holdsField _ himm, slice_of_holdsField _ hcond,
      condOfCode_code, Option.getD_some, BitVec.cast_eq]
  | _ => simp [Instr.isCanonical, Instr.canonical] at hi

end

/-- The word of a well-formed canonical instruction is taken by its row (30_encoding.md R146). -/
theorem takes_encode {i : Instr} (hi : i.isCanonical = true) (hwf : i.wf = true) :
    i.row.takes (encode i) = true := by
  have named : NamesCondition (encode i) i := by
    intro e
    cases i with
    | bCond simm19 cond =>
      have code : slice 3 0 (layoutCondBranch simm19 cond) = cond.code :=
        slice_of_holdsField (by decide) (layoutCondBranch_holdsFields _ (.tail _ (.head _)))
      rw [encode, code, condOfCode_code]
      rfl
    | _ => simp [Instr.row] at e
  refine (takes_iff _ _).2 ⟨encode_and_mask i, ?_⟩
  rw [also_holds_eq_wf hi (encode_and_mask i) named,
    readFrom_of_holdsFields hi (encode_holdsFields i), hwf]

/-- Settles O1, from the row that takes the word and the fields the word holds. -/
theorem decodeOfEncodeIsTheInstruction : Obligations.DecodeOfEncodeIsTheInstruction := by
  intro i hwf hi
  rw [decode_of_takes hi (takes_encode hi hwf), readFrom_of_holdsFields hi (encode_holdsFields i)]


/-! ## Aliases (30_encoding.md R135, R136) -/

theorem encode_canonical (i : Instr) : encode i.canonical = encode i := by
  cases i <;> rfl

theorem canonical_isCanonical (i : Instr) : i.canonical.isCanonical = true := by
  cases i <;> exact beq_self_eq_true _

/-- None of the aliases fills an operand with what its canonical instruction cannot hold. -/
theorem canonical_wf (i : Instr) : i.canonical.wf = i.wf := by
  cases i with
  | mov w => cases w <;> rfl
  | _ => rfl

theorem exec_canonical (i : Instr) (s : Machine.State) :
    Machine.exec i.canonical s = Machine.exec i s := by
  cases i <;> rfl

/-- The words of aliases decode as their canonical instruction (30_encoding.md R136). -/
theorem decode_encode {i : Instr} (hwf : i.wf = true) : decode (encode i) = .ok i.canonical := by
  rw [← encode_canonical]
  exact decodeOfEncodeIsTheInstruction _ ((canonical_wf i).trans hwf) (canonical_isCanonical i)

/-! ## The opcode map (30_encoding.md R126, R146) -/

theorem canonicalSamples_spec : ∀ i ∈ canonicalSamples, i.isCanonical = true ∧ i.wf = true := by
  decide

/-- The row of every canonical instruction is in the opcode map, at its place of 30_encoding.md
R146. -/
theorem row_mem_opcodeMap {i : Instr} (hi : i.isCanonical = true) : i.row ∈ opcodeMap := by
  cases i with
  | halt => exact List.mem_of_getElem? (i := 0) rfl
  | addImm => exact List.mem_of_getElem? (i := 1) rfl
  | addsImm => exact List.mem_of_getElem? (i := 2) rfl
  | subImm => exact List.mem_of_getElem? (i := 3) rfl
  | subsImm => exact List.mem_of_getElem? (i := 4) rfl
  | movn => exact List.mem_of_getElem? (i := 5) rfl
  | movz => exact List.mem_of_getElem? (i := 6) rfl
  | movk => exact List.mem_of_getElem? (i := 7) rfl
  | addReg => exact List.mem_of_getElem? (i := 8) rfl
  | addsReg => exact List.mem_of_getElem? (i := 9) rfl
  | subReg => exact List.mem_of_getElem? (i := 10) rfl
  | subsReg => exact List.mem_of_getElem? (i := 11) rfl
  | andReg => exact List.mem_of_getElem? (i := 12) rfl
  | bicReg => exact List.mem_of_getElem? (i := 13) rfl
  | orrReg => exact List.mem_of_getElem? (i := 14) rfl
  | ornReg => exact List.mem_of_getElem? (i := 15) rfl
  | eorReg => exact List.mem_of_getElem? (i := 16) rfl
  | eonReg => exact List.mem_of_getElem? (i := 17) rfl
  | andsReg => exact List.mem_of_getElem? (i := 18) rfl
  | bicsReg => exact List.mem_of_getElem? (i := 19) rfl
  | madd => exact List.mem_of_getElem? (i := 20) rfl
  | msub => exact List.mem_of_getElem? (i := 21) rfl
  | strUoff => exact List.mem_of_getElem? (i := 22) rfl
  | ldrUoff => exact List.mem_of_getElem? (i := 23) rfl
  | strPre => exact List.mem_of_getElem? (i := 24) rfl
  | ldrPre => exact List.mem_of_getElem? (i := 25) rfl
  | strPost => exact List.mem_of_getElem? (i := 26) rfl
  | ldrPost => exact List.mem_of_getElem? (i := 27) rfl
  | strReg => exact List.mem_of_getElem? (i := 28) rfl
  | ldrReg => exact List.mem_of_getElem? (i := 29) rfl
  | ldrLit => exact List.mem_of_getElem? (i := 30) rfl
  | b => exact List.mem_of_getElem? (i := 31) rfl
  | bCond => exact List.mem_of_getElem? (i := 32) rfl
  | br => exact List.mem_of_getElem? (i := 33) rfl
  | _ => simp [Instr.isCanonical, Instr.canonical] at hi

/-- A word a row of the map takes decodes to an instruction of that row. -/
theorem decode_of_mem_opcodeMap {r : OpcodeRow} (hr : r ∈ opcodeMap) {v : Word}
    (ht : r.takes v = true) : ∃ i, decode v = .ok i ∧ i.row = r := by
  obtain ⟨j, hj, rfl⟩ := List.mem_map.1 hr
  exact ⟨_, decode_of_takes (canonicalSamples_spec j hj).1 ht, readFrom_row v j⟩

/-- The rows of the map are distinct. -/
theorem opcodeMap_nodup : opcodeMap.Nodup :=
  List.Nodup.of_map OpcodeRow.pattern (by decide)

/-- The only row that takes an accepted word is the decoded instruction's. -/
theorem filter_opcodeMap {v : Word} {i : Instr} (h : decode v = .ok i) :
    opcodeMap.filter (fun r => r.takes v) = [i.row] := by
  obtain ⟨hi, ht, -⟩ := decode_eq_ok h
  have only : ∀ r, r ∈ opcodeMap.filter (fun r => r.takes v) ↔ r ∈ [i.row] := by
    intro r
    rw [List.mem_filter, List.mem_singleton]
    refine ⟨fun ⟨hr, hv⟩ => ?_, fun e => e ▸ ⟨row_mem_opcodeMap hi, ht⟩⟩
    obtain ⟨j, hj, rfl⟩ := decode_of_mem_opcodeMap hr hv
    cases h.symm.trans hj
    rfl
  exact List.perm_singleton.1
    ((List.perm_ext_iff_of_nodup (opcodeMap_nodup.filter _) (List.nodup_singleton _)).2 only)

/-- Settles O4, from the one row that takes an accepted word and the decoding of every word a row
takes. -/
theorem acceptedWordsTakeExactlyOneRow : Obligations.AcceptedWordsTakeExactlyOneRow := by
  refine ⟨fun v i => filter_opcodeMap, fun v ⟨r, hr, ht⟩ => ?_, fun v => ?_, fun r hr => ?_⟩
  · obtain ⟨i, hi, -⟩ := decode_of_mem_opcodeMap hr ht
    exact ⟨i, hi⟩
  · cases hd : opcodeMap.filter (fun r => r.takes v) with
    | nil => exact Nat.zero_le 1
    | cons r rs =>
      obtain ⟨hr, ht⟩ := List.mem_filter.1 (hd ▸ List.mem_cons_self : r ∈ _)
      obtain ⟨i, hi, -⟩ := decode_of_mem_opcodeMap hr ht
      rw [← hd, filter_opcodeMap hi, List.length_singleton]
  · obtain ⟨j, hj, rfl⟩ := List.mem_map.1 hr
    obtain ⟨canonical, wf⟩ := canonicalSamples_spec j hj
    exact ⟨encode j, j, decodeOfEncodeIsTheInstruction j wf canonical, rfl⟩

/-! ## Faults of the decoder -/

theorem decode_ne_category {v : Word} (h : v.toNat / 2 ^ 25 % 16 ∉ [0, 1, 2, 3, 7, 15]) :
    decode v ≠ .error .category := by
  intro e
  have d := decode_decoding v
  rw [e] at d
  cases d with
  | category selector => exact h selector

/-- Settles O5, from `decode` as one choice by the selector. -/
theorem categorySelectorDispatches : Obligations.CategorySelectorDispatches := by
  intro v ht
  have dispatch := decode_of_ne_terminateWord ht
  refine ⟨fun h => ?_, fun h => ?_, fun h => ?_, fun h => ?_, fun h => ?_, fun h => ?_⟩
  · rw [dispatch, if_pos h]
  · rcases List.mem_pair.1 h with h | h <;> rw [dispatch, h] <;> rfl
  · simp only [List.mem_cons, List.not_mem_nil, or_false] at h
    rcases h with h | h | h | h <;> rw [dispatch, h] <;> rfl
  · rcases List.mem_pair.1 h with h | h <;> rw [dispatch, h] <;> rfl
  · exact Classical.byContradiction fun hn => decode_ne_category hn h
  · simp only [List.mem_cons, List.not_mem_nil, or_false] at h
    rcases h with h | h | h | h | h | h <;> rw [dispatch, h] <;> rfl

/-- A code names no condition exactly outside the table of 30_encoding.md R119. -/
theorem condOfCode_eq_none_iff (c : BitVec 4) :
    condOfCode c = none ↔ c.toNat ∉ [0, 1, 10, 11, 12, 13, 14] := by
  revert c
  decide

theorem decode_eq_condition_iff (v : Word) :
    decode v = .error .condition ↔ slice 31 24 v = 0b01010100#8 ∧ v.getLsbD 4 = false ∧
      condOfCode (slice 3 0 v) = none := by
  constructor
  · intro e
    have d := decode_decoding v
    rw [e] at d
    cases d with
    | condition layout bit4 unknown => exact ⟨layout, bit4, unknown⟩
  · rintro ⟨layout, bit4, unknown⟩
    have hm := fixed_or (fixed_of_slice layout) (fixed_of_getLsbD bit4)
    simp (disch := decide) only [decode, decodeBranch, unknown, fixed_tests hm, Bool.false_eq_true,
      if_true, if_false, and_self, false_and]

theorem decode_eq_illegalShift_iff (v : Word) :
    decode v = .error .illegalShift ↔ slice 28 24 v = 0b01011#5 ∧ slice 23 22 v = 0b11#2 ∧
      v.getLsbD 21 = false := by
  constructor
  · intro e
    have d := decode_decoding v
    rw [e] at d
    cases d with
    | illegalShift layout rotate bit21 => exact ⟨layout, rotate, bit21⟩
  · rintro ⟨layout, rotate, bit21⟩
    have hm := fixed_or (fixed_of_slice layout)
      (fixed_or (fixed_of_slice rotate) (fixed_of_getLsbD bit21))
    have rotates : ¬arithShiftAllowed (shiftKindOfBits true true) = true := by decide
    simp (disch := decide) only [decode, decodeDPReg, fixed_tests hm, rotates,
      Bool.false_eq_true, if_true, if_false]

/-- Settles O6, from the two faults' exact bits, read as numbers. -/
theorem conditionAndShiftFaultsAreExact : Obligations.ConditionAndShiftFaultsAreExact := by
  intro v
  have hv : v.toNat < 2 ^ 32 := v.isLt
  constructor
  · rw [decode_eq_condition_iff, slice_eq_iff, getLsbD_eq_false_iff, condOfCode_eq_none_iff,
      toNat_slice]
    refine and_congr ?_ (and_congr ?_ ?_)
    · rw [BitVec.toNat_ofNat]; omega
    · rfl
    · rw [Nat.pow_zero, Nat.div_one]
      rfl
  · rw [decode_eq_illegalShift_iff, slice_eq_iff, slice_eq_iff, getLsbD_eq_false_iff]
    rfl

/-- Settles O7, by running the decoder on each word. -/
theorem writtenOutWordsDecode : Obligations.WrittenOutWordsDecode := by
  unfold Obligations.WrittenOutWordsDecode
  exact ⟨rfl, rfl, rfl, rfl, rfl, rfl, rfl, rfl, rfl, rfl⟩

end Sys2Proof.Laws

end

section
/-! PROOFS of the data-processing instructions: the ALU on numbers (40_execution_cycle.md R172 to
R175), the results of 41_dp_immediate.md and 42_dp_register.md, and their aliases (30_encoding.md
R135).

Every one of these instructions ends in one shape: a register and perhaps the flags written and the
PC advanced. `writesOnly_data` says once that this shape is the whole effect `WritesOnly` speaks of;
what is left for each instruction is its result and its flags as numbers. -/

namespace Sys2Proof.Machine

/-! ## Sign extension (00_scope.md R10) -/

theorem toNat_sext {n : Nat} (v : BitVec n) (h64 : n ≤ 64) :
    (sext v).toNat = if v.toNat < 2 ^ (n - 1) then v.toNat else 2 ^ 64 - 2 ^ n + v.toNat := by
  rw [sext, BitVec.toNat_signExtend, BitVec.toNat_setWidth_of_le h64, BitVec.msb_eq_decide]
  by_cases h : v.toNat < 2 ^ (n - 1)
  · simp [h, Nat.not_le.2 h]
  · simp [h, Nat.not_lt.1 h, Nat.add_comm]

/-- Settles O9, from the value of the extended field and the low bits it keeps. -/
theorem signExtensionLaws : Obligations.SignExtensionLaws := by
  intro n v _ h64
  refine ⟨toNat_sext v h64, ?_⟩
  have low : (sext v).setWidth n = v := by
    refine BitVec.eq_of_getLsbD_eq fun k hk => ?_
    rw [sext, BitVec.getLsbD_setWidth, BitVec.getLsbD_signExtend, if_pos hk]
    simp [hk, Nat.lt_of_lt_of_le hk h64]
  rw [low]

/-! ## The ALU on numbers -/

theorem Flags.ext_fields {f g : Flags} (hn : f.n = g.n) (hz : f.z = g.z) (hc : f.c = g.c)
    (hv : f.v = g.v) : f = g := by
  cases f; cases g; simp_all

section

variable {w : Width} (a b : BitVec w.bits)

theorem toNat_add_eq_sumNat : (a + b).toNat = sumNat w a.toNat b.toNat :=
  BitVec.toNat_add a b

theorem toNat_sub_eq_diffNat : (a - b).toNat = diffNat w a.toNat b.toNat := by
  have ha := a.isLt
  have hb := b.isLt
  rw [diffNat, BitVec.toNat_sub]
  cases w <;> simp only [Width.bits] at ha hb ⊢ <;> omega

theorem toNat_not_eq_notNat : (~~~a).toNat = notNat w a.toNat :=
  BitVec.toNat_not

/-- The top bit as a comparison of numbers. -/
theorem msb_eq_decide_le : a.msb = decide (2 ^ (w.bits - 1) ≤ a.toNat) :=
  BitVec.msb_eq_decide a

theorem beq_zero_eq_decide : (a == 0) = decide (a.toNat = 0) := by
  rw [Bool.eq_iff_iff, beq_iff_eq, decide_eq_true_eq, ← BitVec.toNat_inj]
  simp

/-- An integer is its own signed value at a width exactly where it fits (00_scope.md R11). -/
theorem bmod_eq_self_iff (w : Width) (k : Int) :
    k.bmod (2 ^ w.bits) = k ↔ fitsSigned w k = true := by
  rw [Int.bmod_eq_iff (Nat.two_pow_pos _), fitsSigned, Bool.and_eq_true, decide_eq_true_eq,
    decide_eq_true_eq]
  cases w <;> simp only [Width.bits] <;> omega

/-- V of an addition: the exact signed sum does not fit (40_execution_cycle.md R172). -/
theorem addFlags_v : (addFlags a b (a + b)).v = !fitsSigned w (a.toInt + b.toInt) := by
  rw [addFlags, bne, Bool.not_inj_iff, Bool.eq_iff_iff, beq_iff_eq, ← bmod_eq_self_iff,
    BitVec.toInt_add, eq_comm]

/-- V of a subtraction: the exact signed difference does not fit (40_execution_cycle.md R172). -/
theorem subFlags_v : (subFlags a b (a - b)).v = !fitsSigned w (a.toInt - b.toInt) := by
  rw [subFlags, bne, Bool.not_inj_iff, Bool.eq_iff_iff, beq_iff_eq, ← bmod_eq_self_iff,
    BitVec.toInt_sub, eq_comm]

theorem addFlags_eq_sumFlags : addFlags a b (a + b) = sumFlags w a.toNat b.toNat := by
  refine Flags.ext_fields ?_ ?_ rfl ?_
  · exact (msb_eq_decide_le (a + b)).trans (by rw [toNat_add_eq_sumNat, sumFlags])
  · exact (beq_zero_eq_decide (a + b)).trans (by rw [toNat_add_eq_sumNat, sumFlags])
  · rw [addFlags_v, sumFlags, signedAt_toNat, signedAt_toNat]

theorem subFlags_eq_diffFlags : subFlags a b (a - b) = diffFlags w a.toNat b.toNat := by
  refine Flags.ext_fields ?_ ?_ rfl ?_
  · exact (msb_eq_decide_le (a - b)).trans (by rw [toNat_sub_eq_diffNat, diffFlags])
  · exact (beq_zero_eq_decide (a - b)).trans (by rw [toNat_sub_eq_diffNat, diffFlags])
  · rw [subFlags_v, diffFlags, signedAt_toNat, signedAt_toNat]

theorem logicFlags_eq_bitFlags : logicFlags a = bitFlags w a.toNat :=
  Flags.ext_fields (msb_eq_decide_le a) (beq_zero_eq_decide a) rfl rfl

end

/-! ## `AddSub` is `AddWithCarry` (40_execution_cycle.md R173) -/

section

variable {w : Width} (a b : BitVec w.bits)

/-- A signed sum that does not fit overflows. -/
theorem not_fitsSigned_add : (!fitsSigned w (a.toInt + b.toInt)) = a.saddOverflow b := by
  rw [Bool.eq_iff_iff, fitsSigned, BitVec.saddOverflow]
  simp only [Bool.not_eq_true', Bool.and_eq_false_iff, Bool.or_eq_true, decide_eq_true_eq,
    decide_eq_false_iff_not]
  omega

/-- A signed difference that does not fit overflows. -/
theorem not_fitsSigned_sub : (!fitsSigned w (a.toInt - b.toInt)) = a.ssubOverflow b := by
  rw [Bool.eq_iff_iff, fitsSigned, BitVec.ssubOverflow]
  simp only [Bool.not_eq_true', Bool.and_eq_false_iff, Bool.or_eq_true, decide_eq_true_eq,
    decide_eq_false_iff_not]
  omega

/-- V of an addition is a rule about sign bits (40_execution_cycle.md R173). -/
theorem addFlags_v_iff :
    (addFlags a b (a + b)).v = true ↔ a.msb = b.msb ∧ (a + b).msb ≠ a.msb := by
  rw [addFlags_v, not_fitsSigned_add, BitVec.saddOverflow_eq, Bool.and_eq_true, beq_iff_eq,
    Bool.not_eq_true', beq_eq_false_iff_ne]

/-- V of a subtraction is a rule about sign bits (40_execution_cycle.md R173). -/
theorem subFlags_v_iff :
    (subFlags a b (a - b)).v = true ↔ a.msb ≠ b.msb ∧ (a - b).msb ≠ a.msb := by
  rw [subFlags_v, not_fitsSigned_sub, BitVec.ssubOverflow_eq]
  cases a.msb <;> cases b.msb <;> simp

/-- `AddWithCarry` where the word and the integers it sums are known by other names
(40_execution_cycle.md R173). -/
theorem addWithCarry_eq {n : Nat} {x y r : BitVec n} {carry c : Bool} {k : Int}
    (hr : r.toNat = (x.toNat + y.toNat + carry.toNat) % 2 ^ n)
    (hc : c = true ↔ 2 ^ n ≤ x.toNat + y.toNat + carry.toNat)
    (hk : k = x.toInt + y.toInt + carry.toNat) :
    addWithCarry x y carry = (r, { n := r.msb, z := r == 0, c := c, v := k != r.toInt }) := by
  have result : BitVec.ofNat n (x.toNat + y.toNat + carry.toNat) = r :=
    BitVec.eq_of_toNat_eq (by rw [BitVec.toNat_ofNat, hr])
  have carries : (r.toNat != x.toNat + y.toNat + carry.toNat) = c := by
    rw [Bool.eq_iff_iff, bne_iff_ne, hc, hr, Ne, Nat.mod_eq_iff_lt (Nat.two_pow_pos n).ne',
      Nat.not_lt]
  simp only [addWithCarry, result, carries, hk, bne_comm]

theorem addSub_false_eq_addWithCarry : addSub a b false = addWithCarry a b false := by
  symm
  refine addWithCarry_eq (BitVec.toNat_add a b) decide_eq_true_iff (by simp)

theorem addSub_true_eq_addWithCarry : addSub a b true = addWithCarry a (~~~b) true := by
  symm
  have ha := a.isLt
  have hb := b.isLt
  refine addWithCarry_eq ?_ (decide_eq_true_iff.trans ?_) ?_
  · rw [BitVec.toNat_sub, BitVec.toNat_not, Bool.toNat_true]
    congr 1
    omega
  · rw [BitVec.toNat_not, Bool.toNat_true]
    omega
  · rw [BitVec.toInt_eq_toNat_cond (~~~b), BitVec.toInt_eq_toNat_cond b, BitVec.toNat_not,
      Bool.toNat_true]
    cases w <;> simp only [Width.bits] at hb ⊢ <;> split_ifs <;> omega

/-- Settles O11, from `AddWithCarry` on the operand or its complement and the sign rules of V. -/
theorem addSubIsAddWithCarry : Obligations.AddSubIsAddWithCarry :=
  fun _ a b => ⟨addSub_false_eq_addWithCarry a b, addSub_true_eq_addWithCarry a b,
    addFlags_v_iff a b, subFlags_v_iff a b⟩

end

/-! ## Conditions after a compare (40_execution_cycle.md R179) -/

section

variable {w : Width} (a b : BitVec w.bits)

/-- After a subtraction N and V differ exactly where the signed difference is negative. -/
theorem subFlags_n_ne_v_iff :
    (subFlags a b (a - b)).n ≠ (subFlags a b (a - b)).v ↔ a.toInt < b.toInt := by
  have hr := (Int.bmod_eq_iff (Nat.two_pow_pos _)).1 (BitVec.toInt_sub (x := a) (y := b)).symm
  have bounds : ∀ x : BitVec w.bits, -2 ^ (w.bits - 1) ≤ x.toInt ∧ x.toInt < 2 ^ (w.bits - 1) :=
    fun x => ⟨BitVec.le_toInt x, BitVec.toInt_lt⟩
  have ha := bounds a
  have hb := bounds b
  rw [subFlags, BitVec.msb_eq_toInt, Ne, Bool.eq_iff_iff, decide_eq_true_eq, bne_iff_ne]
  cases w <;> simp only [Width.bits] at hr ha hb ⊢ <;> omega

theorem subFlags_z_iff : (subFlags a b (a - b)).z = true ↔ a.toInt = b.toInt := by
  rw [BitVec.toInt_inj, subFlags, beq_iff_eq]
  exact sub_eq_zero

/-- The flags of a subtraction answer each condition as the signed comparison it names. -/
theorem comparesSigned_subFlags : ComparesSigned (subFlags a b (a - b)) a.toInt b.toInt := by
  have hz := subFlags_z_iff a b
  have hlt := subFlags_n_ne_v_iff a b
  have hge : (subFlags a b (a - b)).n = (subFlags a b (a - b)).v ↔ b.toInt ≤ a.toInt := by
    rw [← not_iff_not, Int.not_le]
    exact hlt
  simp only [ComparesSigned, condHolds, Bool.not_eq_true', Bool.and_eq_true, beq_iff_eq, bne_iff_ne,
    ← Bool.not_eq_true, hz, hge, hlt, true_and, and_true]
  constructor <;> omega

end

/-! ## The one shape of a data-processing result -/

/-- The state a data-processing instruction leaves shows the whole effect `WritesOnly` speaks of. -/
theorem writesOnly_data (s : State) {w : Width} (rd : RegIdx) {v : BitVec w.bits} {r : Nat}
    (f : Flags) (hr : v.toNat = r) :
    WritesOnly s (((s.setXw w rd v).setFlags f).setPc (s.pc + 4#64)) rd r f := by
  refine ⟨fun h => (s.x_setXw_self_toNat w v h).trans hr, fun j h => s.x_setXw_of_ne w v h,
    rfl, rfl, ?_, fun a => ?_, ?_⟩
  · exact BitVec.toNat_add s.pc 4#64
  · rw [State.setPc_mem, State.setFlags_mem, State.setXw_mem]
  · rw [State.setPc_run, State.setFlags_run, State.setXw_run]

theorem regNat_eq (s : State) (w : Width) (i : RegIdx) : regNat s w i = (s.xw w i).toNat :=
  (s.xw_toNat w i).symm

@[simp] theorem regNat_zr (s : State) (w : Width) : regNat s w zr = 0 := by
  rw [regNat_eq, State.xw_zr, BitVec.toNat_ofNat, Nat.zero_mod]

/-- The sum or difference modulo `2 ^ w` (40_execution_cycle.md R172). -/
def addSubNat (sub : Bool) (w : Width) (a b : Nat) : Nat :=
  if sub then diffNat w a b else sumNat w a b

/-- The flags of a sum or difference (40_execution_cycle.md R172). -/
def addSubFlags (sub : Bool) (w : Width) (a b : Nat) : Flags :=
  if sub then diffFlags w a b else sumFlags w a b

theorem toNat_addSub {w : Width} (a b : BitVec w.bits) (sub : Bool) :
    (addSub a b sub).1.toNat = addSubNat sub w a.toNat b.toNat := by
  cases sub
  · exact toNat_add_eq_sumNat a b
  · exact toNat_sub_eq_diffNat a b

theorem addSub_flags {w : Width} (a b : BitVec w.bits) (sub : Bool) :
    (addSub a b sub).2 = addSubFlags sub w a.toNat b.toNat := by
  cases sub
  · exact addFlags_eq_sumFlags a b
  · exact subFlags_eq_diffFlags a b

/-- The arithmetic immediate as a number, which fits either width (30_encoding.md R121). -/
theorem toNat_arithImmediate (w : Width) (sh : Bool) (imm12 : BitVec 12) :
    (arithImmediate w sh imm12).toNat = immNat sh imm12 := by
  have h := imm12.isLt
  rw [arithImmediate, immNat, BitVec.toNat_shiftLeft, BitVec.toNat_setWidth, Nat.shiftLeft_eq]
  cases sh <;> cases w <;>
    simp only [Width.bits, Bool.false_eq_true, if_true, if_false] <;> omega

/-- The shifted register operand as a number (40_execution_cycle.md R171). -/
theorem toNat_shiftedReg (s : State) (w : Width) (shift : ShiftKind) (rm : RegIdx)
    (imm6 : BitVec 6) :
    (shiftedReg s w shift rm imm6).toNat = shiftNat w shift imm6.toNat (regNat s w rm) := by
  rw [shiftedReg, toNat_shiftBy, regNat_eq]

section

variable (sub setflags : Bool) (w : Width) (rn rd rm : RegIdx) (s : State)

/-- The arithmetic immediates complete with the sum or difference (41_dp_immediate.md R200 to
R203). -/
theorem arithImm_result (sh : Bool) (imm12 : BitVec 12) :
    ∃ t, arithImm sub setflags w sh imm12 rn rd s = .next t ∧
      WritesOnly s t rd (addSubNat sub w (regNat s w rn) (immNat sh imm12))
        (if setflags then addSubFlags sub w (regNat s w rn) (immNat sh imm12) else s.flags) := by
  refine ⟨_, arithImm_eq .., ?_⟩
  rw [addSub_flags, ← regNat_eq, toNat_arithImmediate]
  exact writesOnly_data s rd _ (by rw [toNat_addSub, ← regNat_eq, toNat_arithImmediate])

/-- The arithmetic shifted-register instructions complete with the sum or difference
(42_dp_register.md R240 to R243). -/
theorem arithReg_result (shift : ShiftKind) (imm6 : BitVec 6) :
    ∃ t, arithReg sub setflags w shift rm imm6 rn rd s = .next t ∧
      WritesOnly s t rd
        (addSubNat sub w (regNat s w rn) (shiftNat w shift imm6.toNat (regNat s w rm)))
        (if setflags then
          addSubFlags sub w (regNat s w rn) (shiftNat w shift imm6.toNat (regNat s w rm))
        else s.flags) := by
  refine ⟨_, arithReg_eq .., ?_⟩
  rw [addSub_flags, ← regNat_eq, toNat_shiftedReg]
  exact writesOnly_data s rd _ (by rw [toNat_addSub, ← regNat_eq, toNat_shiftedReg])

/-- MADD and MSUB complete with the exact sum or difference modulo `2 ^ w`
(42_dp_register.md R260, R261). -/
theorem multiply_result (ra : RegIdx) :
    ∃ t, multiply sub w rm ra rn rd s = .next t ∧
      WritesOnly s t rd (addSubNat sub w (regNat s w ra) (regNat s w rn * regNat s w rm))
        s.flags := by
  have result : (mulAcc (s.xw w rn) (s.xw w rm) (s.xw w ra) sub).toNat =
      addSubNat sub w (regNat s w ra) (regNat s w rn * regNat s w rm) := by
    have exact_result := natCast_toNat_mulAcc (s.xw w rn) (s.xw w rm) (s.xw w ra) sub
    rw [← regNat_eq, ← regNat_eq, ← regNat_eq] at exact_result
    cases sub
    · rw [if_neg Bool.false_ne_true] at exact_result
      exact_mod_cast exact_result
    · rw [addSubNat, if_pos rfl, diffNat, Nat.cast_mul, ← Int.toNat_natCast (mulAcc ..).toNat,
        exact_result, if_pos rfl]
  refine ⟨_, multiply_eq .., ?_⟩
  have w := writesOnly_data s rd s.flags result
  rwa [State.setFlags_self] at w

/-- The bitwise operations on numbers (40_execution_cycle.md R174). -/
def logicNat (op : LogicOp) (a b : Nat) : Nat :=
  match op with
  | .and => a &&& b
  | .orr => a ||| b
  | .eor => a ^^^ b

theorem toNat_logic {n : Nat} (op : LogicOp) (a b : BitVec n) :
    (logic op a b).toNat = logicNat op a.toNat b.toNat :=
  match op with
  | .and => BitVec.toNat_and a b
  | .orr => BitVec.toNat_or a b
  | .eor => BitVec.toNat_xor a b

/-- The second operand of a logical instruction as a number (40_execution_cycle.md R170). -/
theorem toNat_logicOperand (N : Bool) (shift : ShiftKind) (imm6 : BitVec 6) :
    (logicOperand s w N shift rm imm6).toNat =
      if N then notNat w (shiftNat w shift imm6.toNat (regNat s w rm))
      else shiftNat w shift imm6.toNat (regNat s w rm) := by
  cases N
  · exact toNat_shiftedReg s w shift rm imm6
  · exact (toNat_not_eq_notNat _).trans (by rw [toNat_shiftedReg, if_pos rfl])

/-- The logical instructions complete with their bitwise result (42_dp_register.md R250 to R257). -/
theorem logicReg_result (op : LogicOp) (N : Bool) (shift : ShiftKind) (imm6 : BitVec 6) {a b : Nat}
    (ha : a = regNat s w rn)
    (hb : b = if N then notNat w (shiftNat w shift imm6.toNat (regNat s w rm))
      else shiftNat w shift imm6.toNat (regNat s w rm)) :
    ∃ t, logicReg op N setflags w shift rm imm6 rn rd s = .next t ∧
      WritesOnly s t rd (logicNat op a b)
        (if setflags then bitFlags w (logicNat op a b) else s.flags) := by
  have result :
      (logic op (s.xw w rn) (logicOperand s w N shift rm imm6)).toNat = logicNat op a b := by
    rw [toNat_logic, toNat_logicOperand, ← hb, ← regNat_eq, ← ha]
  refine ⟨_, logicReg_eq .., ?_⟩
  rw [logicFlags_eq_bitFlags, result]
  exact writesOnly_data s rd _ result

end

/-! ## The instructions -/

/-- Settles O15, from the arithmetic immediates' result. -/
theorem arithmeticImmediateResults : Obligations.ArithmeticImmediateResults :=
  fun w sh imm12 rn rd s =>
    ⟨arithImm_result false false w rn rd s sh imm12, arithImm_result false true w rn rd s sh imm12,
      arithImm_result true false w rn rd s sh imm12, arithImm_result true true w rn rd s sh imm12⟩

/-- Settles O17, from the arithmetic shifted-register instructions' result. -/
theorem arithmeticRegisterResults : Obligations.ArithmeticRegisterResults := by
  rintro w shift rm imm6 rn rd s _ _ - - rfl rfl
  exact ⟨arithReg_result false false w rn rd rm s shift imm6,
    arithReg_result false true w rn rd rm s shift imm6,
    arithReg_result true false w rn rd rm s shift imm6,
    arithReg_result true true w rn rd rm s shift imm6⟩

/-- Settles O18, from the logical instructions' result without flags. -/
theorem logicalResults : Obligations.LogicalResults := by
  intro w shift rm imm6 rn rd s a b _ ha hb
  have plain (op : LogicOp) := logicReg_result false w rn rd rm s op false shift imm6 ha hb
  have complemented (op : LogicOp) :=
    logicReg_result false w rn rd rm s op true shift imm6 ha (congrArg (notNat w) hb)
  exact ⟨fun _ => plain .and, complemented .and, plain .orr, complemented .orr, plain .eor,
    complemented .eor⟩

/-- Settles O19, from the logical instructions' result with flags. -/
theorem logicalFlagResults : Obligations.LogicalFlagResults := by
  intro w shift rm imm6 rn rd s a b _ ha hb
  exact ⟨logicReg_result true w rn rd rm s .and false shift imm6 ha hb,
    logicReg_result true w rn rd rm s .and true shift imm6 ha (congrArg (notNat w) hb)⟩

/-- Settles O20, from the multiplies' result. -/
theorem multiplyResults : Obligations.MultiplyResults :=
  fun w rm ra rn rd s =>
    ⟨multiply_result false w rn rd rm s ra, multiply_result true w rn rd rm s ra⟩

/-- What a write to index 31 leaves is independent of the number discarded (10_state.md R32). -/
theorem writesOnly_zr {s t : State} {r : Nat} {f : Flags} (h : WritesOnly s t zr r f) (r' : Nat) :
    WritesOnly s t zr r' f :=
  ⟨fun hne => (hne rfl).elim, h.2⟩

theorem discards_result {i : Result} {s : State} {r : Nat} {f : Flags}
    (h : ∃ t, i = .next t ∧ WritesOnly s t zr r f) : ∃ t, i = .next t ∧ WritesOnly s t zr 0 f := by
  obtain ⟨t, ht, hw⟩ := h
  exact ⟨t, ht, writesOnly_zr hw 0⟩

/-- Settles O21, from the results of the canonical instructions with index 31 as destination. -/
theorem compareAliasResults : Obligations.CompareAliasResults := by
  refine ⟨fun w sh imm12 rn s => ⟨?_, ?_⟩,
    fun w shift rm imm6 rn s a b _ ha hb => ⟨fun _ => ?_, fun _ => ?_, ?_⟩⟩
  · exact discards_result (arithImm_result true true w rn zr s sh imm12)
  · exact discards_result (arithImm_result false true w rn zr s sh imm12)
  · subst ha hb
    exact discards_result (arithReg_result true true w rn zr rm s shift imm6)
  · subst ha hb
    exact discards_result (arithReg_result false true w rn zr rm s shift imm6)
  · exact discards_result (logicReg_result true w rn zr rm s .and false shift imm6 ha hb)

/-- Settles O22, from the results of the subtractions with index 31 as first operand. -/
theorem negateAliasResults : Obligations.NegateAliasResults := by
  refine ⟨fun w sh imm12 rd s => ?_, ?_⟩
  · have neg (setflags : Bool) := arithImm_result true setflags w zr rd s sh imm12
    rw [regNat_zr] at neg
    exact ⟨neg false, neg true⟩
  · rintro w shift rm imm6 rd s _ - - rfl
    have neg (setflags : Bool) := arithReg_result true setflags w zr rd rm s shift imm6
    rw [regNat_zr] at neg
    exact ⟨neg false, neg true⟩

/-- An instruction that writes a register and advances completes with that register written. -/
theorem advance_result (s : State) {w : Width} (rd : RegIdx) {v : BitVec w.bits} {r : Nat}
    (hr : v.toNat = r) :
    ∃ t, advance (s.setXw w rd v) = .next t ∧ WritesOnly s t rd r s.flags := by
  refine ⟨_, advance_eq _, ?_⟩
  have frame := writesOnly_data s rd s.flags hr
  rwa [State.setFlags_self, ← State.setXw_pc s w rd v] at frame

/-- Settles O23, from the results of ORN and ORR with index 31 as first operand and of the
multiplies with index 31 as addend. -/
theorem moveAndMultiplyAliasResults : Obligations.MoveAndMultiplyAliasResults := by
  refine ⟨fun w shift rm imm6 rd s _ => ?_, fun w rm rd s => ?_, fun w rm rn rd s => ?_⟩
  · have result := logicReg_result false w zr rd rm s .orr true shift imm6 rfl rfl
    rw [regNat_zr, logicNat, Nat.zero_or] at result
    exact result
  · have result := logicReg_result false w zr rd rm s .orr false .lsl 0#6 rfl rfl
    rw [regNat_zr, logicNat, Nat.zero_or, if_neg Bool.false_ne_true, ← toNat_shiftedReg, shiftedReg,
      BitVec.toNat_ofNat, Nat.zero_mod, shiftBy_zero, ← regNat_eq] at result
    exact result
  · have result (sub : Bool) := multiply_result sub w rn rd rm s zr
    rw [regNat_zr] at result
    refine ⟨?_, result true⟩
    have sum := result false
    rw [addSubNat, if_neg Bool.false_ne_true, sumNat, Nat.zero_add] at sum
    exact sum

/-! ## Conditions after a compare -/

theorem comparesSigned_diffFlags {w : Width} (a b : BitVec w.bits) :
    ComparesSigned (diffFlags w a.toNat b.toNat) (signedAt w a.toNat) (signedAt w b.toNat) := by
  rw [← subFlags_eq_diffFlags, signedAt_toNat, signedAt_toNat]
  exact comparesSigned_subFlags a b

/-- Settles O13, from the flags a comparison leaves and what those flags answer. -/
theorem conditionsAfterCompare : Obligations.ConditionsAfterCompare := by
  refine ⟨fun w sh imm12 rn s => ?_, fun w shift rm imm6 rn s _ _ => ?_⟩
  · obtain ⟨t, ht, -, -, -, hflags, -⟩ := arithImm_result true true w rn zr s sh imm12
    refine ⟨t, ht, ?_⟩
    rw [hflags, regNat_eq, ← toNat_arithImmediate w]
    exact comparesSigned_diffFlags _ _
  · obtain ⟨t, ht, -, -, -, hflags, -⟩ := arithReg_result true true w rn zr rm s shift imm6
    refine ⟨t, ht, ?_⟩
    rw [hflags, regNat_eq s w rn, ← toNat_shiftedReg]
    exact comparesSigned_diffFlags _ _

/-! ## Wide moves (41_dp_immediate.md R210 to R212) -/

/-- A halfword position that fits a width leaves room for the halfword (30_encoding.md R127). -/
theorem halfwordBit_le {w : Width} {hw : BitVec 2} (h : halfwordFits w hw = true) :
    halfwordBit hw + 16 ≤ w.bits := by
  have := hw.isLt
  cases w
  · simp only [halfwordFits, halfwordBit, Width.bits, Bool.or_eq_true, beq_iff_eq,
      decide_eq_true_eq, reduceCtorEq, false_or] at h ⊢
    omega
  · simp only [halfwordBit, Width.bits]
    omega

/-- The wide-move immediate as a number, which fits where its position does (30_encoding.md
R121). -/
theorem toNat_wideImmediate {w : Width} {hw : BitVec 2} (h : halfwordFits w hw = true)
    (imm16 : BitVec 16) :
    (wideImmediate w hw imm16).toNat = imm16.toNat * 2 ^ (16 * hw.toNat) := by
  have room := halfwordBit_le h
  have fits : imm16.toNat * 2 ^ halfwordBit hw < 2 ^ w.bits :=
    calc imm16.toNat * 2 ^ halfwordBit hw
        < 2 ^ 16 * 2 ^ halfwordBit hw :=
          Nat.mul_lt_mul_of_pos_right imm16.isLt (Nat.two_pow_pos _)
      _ = 2 ^ (halfwordBit hw + 16) := by rw [Nat.add_comm, Nat.pow_add]
      _ ≤ 2 ^ w.bits := Nat.pow_le_pow_right (by decide) room
  rw [wideImmediate, BitVec.toNat_shiftLeft, BitVec.toNat_setWidth_of_le (by omega),
    Nat.shiftLeft_eq, Nat.mod_eq_of_lt fits]
  rfl

/-- Each bit of MOVK's result: of the immediate inside the halfword, else of the old register
(41_dp_immediate.md R212). -/
theorem getLsbD_keepHalfwords {w : Width} {hw : BitVec 2} (h : halfwordFits w hw = true)
    (imm16 : BitVec 16) (old : BitVec w.bits) (k : Nat) :
    (keepHalfwords w hw imm16 old).getLsbD k =
      if 16 * hw.toNat ≤ k ∧ k < 16 * hw.toNat + 16 then imm16.getLsbD (k - 16 * hw.toNat)
      else old.getLsbD k := by
  have room := halfwordBit_le h
  rw [halfwordBit] at room
  simp only [keepHalfwords, wideImmediate, halfwordBit, BitVec.getLsbD_or, BitVec.getLsbD_and,
    BitVec.getLsbD_not, BitVec.getLsbD_shiftLeft, BitVec.getLsbD_setWidth, BitVec.getLsbD_allOnes]
  generalize 16 * hw.toNat = p at room ⊢
  have old_inside : old.getLsbD k = true → k < w.bits := BitVec.lt_of_getLsbD
  rcases Nat.lt_or_ge k p with below | above
  · simpa [-BitVec.getLsbD_eq_getElem, below, Nat.not_le.2 below] using old_inside
  rcases Nat.lt_or_ge k (p + 16) with inside | past
  · have hk : k < w.bits := by omega
    have hfield : k - p < w.bits := by omega
    have hhalf : k - p < 16 := by omega
    simp [-BitVec.getLsbD_eq_getElem, above, inside, Nat.not_lt.2 above, hk, hfield, hhalf]
  · have hhalf : ¬k - p < 16 := by omega
    have himm : imm16.getLsbD (k - p) = false := BitVec.getLsbD_of_ge _ _ (by omega)
    simpa [-BitVec.getLsbD_eq_getElem, Nat.not_lt.2 past, hhalf, himm] using old_inside

/-- Settles O16, from the immediate as a number and MOVK's bits. -/
theorem wideMoveResults : Obligations.WideMoveResults := by
  intro w hw imm16 rd s h
  refine ⟨advance_result s rd ?_, advance_result s rd (toNat_wideImmediate h imm16), ?_⟩
  · rw [toNat_not_eq_notNat, toNat_wideImmediate h]
  · obtain ⟨t, ht, hwrites⟩ := advance_result s rd (v := keepHalfwords w hw imm16 (s.xw w rd)) rfl
    refine ⟨t, _, ht, hwrites, fun k => ?_⟩
    rw [BitVec.testBit_toNat, getLsbD_keepHalfwords h, State.xw, BitVec.getLsbD_setWidth]

/-! ## Aliases run as their canonical instructions (30_encoding.md R136) -/

/-- Settles O3, from the aliases' words and meanings as their canonical instructions' and the
result of `neg rd, #imm`. -/
theorem aliasesDecodeAndRunAsCanonical : Obligations.AliasesDecodeAndRunAsCanonical := by
  refine ⟨fun i => Laws.decode_encode, Laws.canonical_isCanonical,
    fun i s => (Laws.exec_canonical i s).symm, fun w sh imm12 rd s h => ?_⟩
  obtain ⟨⟨t, ht, hrd, -⟩, -⟩ := negateAliasResults.1 w sh imm12 rd s
  exact ⟨t, ht, hrd h⟩

end Sys2Proof.Machine
end

section
/-! PROOFS of 43_load_store.md and 20_memory.md: the address translator (R290, R291), the loads and
stores in bounds (R295, R320 to R328), and what a store leaves in memory for reads and fetches
(20_memory.md R61, R65, R75).

A load or store in bounds leaves one state, `afterLoad` or `afterStore`, in every addressing mode.
Its frame and its memory are said once for all modes; each form then adds what its writeback does to
the registers. -/

namespace Sys2Proof.Machine

/-! ## The address translator (43_load_store.md R290, R291) -/

theorem sext_eq_ofInt {n : Nat} (v : BitVec n) : sext v = BitVec.ofInt 64 v.toInt := rfl

theorem add_sext_eq_ofInt {n : Nat} (x : DWord) (v : BitVec n) :
    x + sext v = BitVec.ofInt 64 (x.toNat + v.toInt) := by
  rw [sext_eq_ofInt, BitVec.ofInt_add, BitVec.ofInt_natCast, BitVec.ofNat_toNat, BitVec.setWidth_eq]

/-- A PC-relative address is the target `simm` instruction units away (44_branch.md R340). -/
theorem pcRelative_eq_branchTarget {n : Nat} (s : State) (simm : BitVec n) :
    pcRelative s simm = branchTarget s simm.toInt := by
  rw [pcRelative, branchTarget, sext_eq_ofInt, BitVec.ofInt_add, BitVec.ofInt_mul,
    BitVec.ofInt_natCast, BitVec.ofNat_toNat, BitVec.setWidth_eq]
  rfl

theorem natCast_toNat_ofInt (k : Int) : ((BitVec.ofInt 64 k).toNat : Int) = k % 2 ^ 64 := by
  rw [BitVec.toNat_ofInt, Int.toNat_of_nonneg (Int.emod_nonneg _ (by decide))]
  rfl

/-- Settles O24, from each mode's sum. -/
theorem effectiveAddressFormulas : Obligations.EffectiveAddressFormulas := by
  refine fun s w rn => ⟨fun imm12 => ?_, fun rm => ?_, fun simm9 => ?_, fun _ => rfl,
    fun simm19 => ?_⟩
  · have scaled : (imm12.setWidth 64 * BitVec.ofNat 64 w.bytes).toNat = imm12.toNat * w.bytes := by
      have h := imm12.isLt
      cases w <;>
        simp only [Width.bytes, BitVec.toNat_mul, BitVec.toNat_setWidth, BitVec.toNat_ofNat] <;>
        omega
    rw [effAddr, BitVec.toNat_add, scaled]
  · exact BitVec.toNat_add _ _
  · rw [effAddr, add_sext_eq_ofInt, natCast_toNat_ofInt]
  · rw [pcRelative_eq_branchTarget, branchTarget, natCast_toNat_ofInt]

/-! ## Frames -/

theorem pcAdvanced_of_pc {s t : State} (h : t.pc = s.pc + 4#64) : PcAdvanced s t := by
  rw [PcAdvanced, h]
  exact BitVec.toNat_add s.pc 4#64

theorem memoryKept_of_mem {s t : State} (h : t.mem = s.mem) : MemoryKept s t :=
  fun a => congrArg (Memory.readByte · a) h

/-! ## Loads -/

theorem Width.bits_eq (w : Width) : w.bits = 8 * w.bytes := by cases w <;> rfl

/-- A byte that a width keeps. -/
theorem byteAt_setWidth {n m k : Nat} (v : BitVec n) (h : 8 * k + 8 ≤ m) :
    byteAt (v.setWidth m) k = byteAt v k := by
  refine BitVec.eq_of_getLsbD_eq fun i hi => ?_
  have inside : 8 * k + i < m := by omega
  simp only [byteAt, BitVec.getLsbD_extractLsb', BitVec.getLsbD_setWidth, inside, decide_true,
    Bool.true_and]

/-- A byte past the end of a value is zero. -/
theorem byteAt_of_le {n k : Nat} (v : BitVec n) (h : n ≤ 8 * k) : byteAt v k = 0#8 := by
  refine BitVec.eq_of_getLsbD_eq fun i hi => ?_
  rw [byteAt, BitVec.getLsbD_extractLsb', BitVec.getLsbD_of_ge v _ (by omega), Bool.and_false,
    BitVec.getLsbD_zero]

/-- The bytes of a loaded value, zero-extended (20_memory.md R60, R69). -/
theorem byteAt_setWidth_read (m : Memory) (a : Nat) (w : Width) {k : Nat} (hk : k < 8) :
    byteAt ((m.read a w).setWidth 64) k = if k < w.bytes then m.readByte (a + k) else 0#8 := by
  rw [byteAt_setWidth _ (by omega)]
  split
  next h => exact m.byteAt_read a w h
  next h => exact byteAt_of_le _ (by rw [Width.bits_eq]; omega)

section

variable (w : Width) (mode : AddrMode) (rn rt : RegIdx) (s : State)

/-- The state a load in bounds leaves (43_load_store.md R296). -/
def afterLoad : State :=
  (writebackAfter s ((writebackBefore s w mode rn).setXw w rt
    (s.mem.read (effAddr s w mode rn).toNat w)) mode rn).setPc (s.pc + 4#64)

/-- The state a store in bounds leaves (43_load_store.md R296). -/
def afterStore : State :=
  (writebackAfter s { writebackBefore s w mode rn with
    mem := s.mem.write (effAddr s w mode rn).toNat w ((writebackBefore s w mode rn).xw w rt) }
    mode rn).setPc (s.pc + 4#64)

theorem load_eq_next_iff (t : State) :
    load w mode rn rt s = .next t ↔
      (effAddr s w mode rn).toNat + w.bytes ≤ memSize ∧ afterLoad w mode rn rt s = t := by
  rw [load_eq, ← inBounds_iff]
  cases inBounds (effAddr s w mode rn) w.bytes <;> simp [afterLoad]

theorem store_eq_next_iff (t : State) :
    store w mode rn rt s = .next t ↔
      (effAddr s w mode rn).toNat + w.bytes ≤ memSize ∧ afterStore w mode rn rt s = t := by
  rw [store_eq, ← inBounds_iff]
  cases inBounds (effAddr s w mode rn) w.bytes <;> simp [afterStore]

theorem transferFrame_afterLoad : TransferFrame s (afterLoad w mode rn rt s) :=
  ⟨by simp [afterLoad], by simp [afterLoad], pcAdvanced_of_pc rfl⟩

theorem transferFrame_afterStore : TransferFrame s (afterStore w mode rn rt s) :=
  ⟨by simp [afterStore], by simp [afterStore], pcAdvanced_of_pc rfl⟩

theorem memoryKept_afterLoad : MemoryKept s (afterLoad w mode rn rt s) :=
  memoryKept_of_mem (by simp [afterLoad])

theorem afterStore_mem :
    (afterStore w mode rn rt s).mem =
      s.mem.write (effAddr s w mode rn).toNat w ((writebackBefore s w mode rn).xw w rt) := by
  simp [afterStore]

/-- A register that holds the loaded value holds its bytes. -/
theorem holdsBytes_of_x {t : State} {a : DWord}
    (h : t.x rt = (s.mem.read a.toNat w).setWidth 64) : HoldsBytes s t rt a w.bytes :=
  fun k hk => by rw [h, byteAt_setWidth_read _ _ _ hk]

end

/-- The effect of a load that writes no base back. -/
theorem afterLoad_effect_of_regs {w : Width} {mode : AddrMode} {rn rt : RegIdx} {s : State}
    (h : ∀ j, (afterLoad w mode rn rt s).x j =
      (s.setXw w rt (s.mem.read (effAddr s w mode rn).toNat w)).x j) :
    (rt ≠ zr → HoldsBytes s (afterLoad w mode rn rt s) rt (effAddr s w mode rn) w.bytes) ∧
      (∀ j, j ≠ rt → (afterLoad w mode rn rt s).x j = s.x j) ∧
      TransferFrame s (afterLoad w mode rn rt s) ∧ MemoryKept s (afterLoad w mode rn rt s) :=
  ⟨fun hne => holdsBytes_of_x _ _ _ (by rw [h, State.x_setXw, if_pos ⟨rfl, hne⟩]),
    fun j hj => by rw [h, State.x_setXw_of_ne _ _ _ hj], transferFrame_afterLoad ..,
    memoryKept_afterLoad _ _ _ _ _⟩

/-- Settles O25: neither form writes its base back, so the loaded register is the one that
changes. -/
theorem offsetLoadResults : Obligations.OffsetLoadResults := by
  intro w rn rt s
  refine ⟨?unsignedOffset, ?regOffset⟩
  case unsignedOffset =>
    rintro imm12 _ rfl bound
    exact ⟨_, (load_eq_next_iff ..).2 ⟨bound, rfl⟩, afterLoad_effect_of_regs fun _ => rfl⟩
  case regOffset =>
    rintro rm _ rfl bound
    exact ⟨_, (load_eq_next_iff ..).2 ⟨bound, rfl⟩, afterLoad_effect_of_regs fun _ => rfl⟩

/-- Settles O26: the base is written first, so a loaded value in the same register stays. -/
theorem preIndexLoadResults : Obligations.PreIndexLoadResults := by
  rintro w simm9 rn rt s ea rfl bound
  have regs (j : RegIdx) : (afterLoad w (.preIndex simm9) rn rt s).x j =
      ((s.setX rn (effAddr s w (.preIndex simm9) rn)).setXw w rt
        (s.mem.read (effAddr s w (.preIndex simm9) rn).toNat w)).x j := rfl
  refine ⟨_, (load_eq_next_iff ..).2 ⟨bound, rfl⟩, fun hrt => ?_, fun hrn hne => ?_,
    fun j hjt hjn => ?_, rfl, transferFrame_afterLoad .., memoryKept_afterLoad _ _ _ _ _⟩
  · exact holdsBytes_of_x _ _ _ (by rw [regs, State.x_setXw, if_pos ⟨rfl, hrt⟩])
  · rw [regs, State.x_setXw_of_ne _ _ _ hne, State.x_setX_self _ _ hrn]
  · rw [regs, State.x_setXw_of_ne _ _ _ hjt, State.x_setX_of_ne _ _ hjn]

/-- Settles O27: the base is written last, so it replaces a loaded value in the same register. -/
theorem postIndexLoadResults : Obligations.PostIndexLoadResults := by
  rintro w simm9 rn rt s ea rfl bound
  have regs (j : RegIdx) : (afterLoad w (.postIndex simm9) rn rt s).x j =
      ((s.setXw w rt (s.mem.read (effAddr s w (.postIndex simm9) rn).toNat w)).setX rn
        (s.x rn + sext simm9)).x j := rfl
  refine ⟨_, (load_eq_next_iff ..).2 ⟨bound, rfl⟩, fun hrt hne => ?_, fun hrn => ?_,
    fun j hjt hjn => ?_, rfl, transferFrame_afterLoad .., memoryKept_afterLoad _ _ _ _ _⟩
  · exact holdsBytes_of_x _ _ _
      (by rw [regs, State.x_setX_of_ne _ _ hne, State.x_setXw, if_pos ⟨rfl, hrt⟩])
  · rw [regs, State.x_setX_self _ _ hrn, add_sext_eq_ofInt]
  · rw [regs, State.x_setX_of_ne _ _ hjn, State.x_setXw_of_ne _ _ _ hjt]

/-- Settles O28, from all a literal load can do. -/
theorem literalLoadResults : Obligations.LiteralLoadResults := by
  rintro w simm19 rt s ea rfl bound
  refine ⟨_, (execLdrLit_eq ..).trans (if_pos ((inBounds_iff _ _).2 bound)), fun hrt => ?_,
    fun j hj => ?_, ⟨?_, ?_, pcAdvanced_of_pc rfl⟩, memoryKept_of_mem ?_⟩
  · exact holdsBytes_of_x _ _ _ (by rw [State.x_setPc, State.x_setXw, if_pos ⟨rfl, hrt⟩])
  · rw [State.x_setPc, State.x_setXw_of_ne _ _ _ hj]
  · rw [State.setPc_flags, State.setXw_flags]
  · rw [State.setPc_run, State.setXw_run]
  · rw [State.setPc_mem, State.setXw_mem]

/-! ## Stores -/

/-- A stored value changes exactly the addressed bytes (20_memory.md R61). -/
theorem memoryStored_of_mem {s t : State} (hs : s.Inv) {w : Width} {ea v : DWord}
    (h : t.mem = s.mem.write ea.toNat w (v.setWidth w.bits)) : MemoryStored s t ea w.bytes v := by
  intro b
  rw [h, Memory.readByte_write hs.1]
  split
  next inside => exact byteAt_setWidth v (by rw [Width.bits_eq]; omega)
  next => rfl

/-- Settles O29: neither form writes a register. -/
theorem offsetStoreResults : Obligations.OffsetStoreResults := by
  intro w rn rt s hs
  refine ⟨?unsignedOffset, ?regOffset⟩
  case unsignedOffset =>
    rintro imm12 _ rfl bound
    exact ⟨_, (store_eq_next_iff ..).2 ⟨bound, rfl⟩, memoryStored_of_mem hs (afterStore_mem ..),
      fun _ => rfl, transferFrame_afterStore ..⟩
  case regOffset =>
    rintro rm _ rfl bound
    exact ⟨_, (store_eq_next_iff ..).2 ⟨bound, rfl⟩, memoryStored_of_mem hs (afterStore_mem ..),
      fun _ => rfl, transferFrame_afterStore ..⟩

/-- Settles O30: the stored register is read after the base is written. -/
theorem preIndexStoreResults : Obligations.PreIndexStoreResults := by
  rintro w simm9 rn rt s ea hs rfl bound
  have regs (j : RegIdx) : (afterStore w (.preIndex simm9) rn rt s).x j =
      (s.setX rn (effAddr s w (.preIndex simm9) rn)).x j := rfl
  refine ⟨_, (store_eq_next_iff ..).2 ⟨bound, rfl⟩, ?_, fun hrn => ?_, fun j hj => ?_, rfl,
    transferFrame_afterStore ..⟩
  · rw [← State.x_setX]
    exact memoryStored_of_mem hs (afterStore_mem ..)
  · rw [regs, State.x_setX_self _ _ hrn]
  · rw [regs, State.x_setX_of_ne _ _ hj]

/-- Settles O31: the stored register is read before the base is written. -/
theorem postIndexStoreResults : Obligations.PostIndexStoreResults := by
  rintro w simm9 rn rt s ea hs rfl bound
  have regs (j : RegIdx) : (afterStore w (.postIndex simm9) rn rt s).x j =
      (s.setX rn (s.x rn + sext simm9)).x j := by
    simp only [afterStore, writebackAfter, writebackBefore, State.x_setPc, State.x_setX,
      State.withMem_x]
  refine ⟨_, (store_eq_next_iff ..).2 ⟨bound, rfl⟩, memoryStored_of_mem hs (afterStore_mem ..),
    fun hrn => ?_, fun j hj => ?_, rfl, transferFrame_afterStore ..⟩
  · rw [regs, State.x_setX_self _ _ hrn, add_sext_eq_ofInt]
  · rw [regs, State.x_setX_of_ne _ _ hj]

/-! ## The memory primitives -/

/-- Settles O34, from the bytes a write stores and the canonical form it keeps. -/
theorem memWriteRule : Obligations.MemWriteRule := by
  intro s w ea v hs
  refine ⟨fun h => ?_, fun h => State.storeData_of_not_inBounds ((not_inBounds_iff _ _).2 h)⟩
  exact ⟨_, State.storeData_of_inBounds ((inBounds_iff _ _).2 h),
    fun b => Memory.readByte_write hs.1 ea.toNat b w v, rfl, rfl, rfl, rfl, Memory.wf_write hs h v⟩

/-- A 4-byte read inside a stored value gives its bits there (20_memory.md R65). -/
theorem Memory.read_w32_write {m : Memory} (hm : m.wf) (a : Nat) {w : Width} (v : BitVec w.bits)
    {o : Nat} (ho : o + 4 ≤ w.bytes) :
    (m.write a w v).read (a + o) .w32 = v.extractLsb' (8 * o) 32 := by
  refine eq_of_byteAt (w := .w32) fun k hk => ?_
  have hk4 : k < 4 := hk
  rw [Memory.byteAt_read _ _ _ hk, Memory.readByte_write hm.1, if_pos (by omega)]
  refine BitVec.eq_of_getLsbD_eq fun i hi => ?_
  simp only [byteAt, BitVec.getLsbD_extractLsb', hi, decide_true, Bool.true_and]
  rw [decide_eq_true (by omega : 8 * k + i < 32), Bool.true_and]
  congr 1
  omega

/-- Settles O35, from the 4-byte reads inside the stored value. -/
theorem mixedWidthAccessesSeeBytes : Obligations.MixedWidthAccessesSeeBytes := by
  intro s t ea v hs h
  obtain ⟨hbound, rfl⟩ := State.storeData_eq_ok.1 h
  rw [inBounds_iff] at hbound
  have low := Memory.read_w32_write hs ea.toNat (w := .w64) v (o := 0) (by decide)
  have high := Memory.read_w32_write hs ea.toNat (w := .w64) v (o := 4) (by decide)
  have hea : (ea + 4#64).toNat = ea.toNat + 4 := by
    rw [memSize_eq] at hbound
    simp only [Width.bytes] at hbound
    rw [BitVec.toNat_add, show (4#64).toNat = 4 from rfl, Nat.mod_eq_of_lt (by omega)]
  have lowIn : inBounds ea 4 = true :=
    (inBounds_iff _ _).2 (by simp only [Width.bytes] at hbound; omega)
  have highIn : inBounds (ea + 4#64) 4 = true := (inBounds_iff _ _).2 (by rw [hea]; exact hbound)
  rw [← hea] at high
  exact ⟨State.loadData_eq_ok.2 ⟨lowIn, low⟩, State.loadData_eq_ok.2 ⟨highIn, high⟩,
    (fetchWord_of_inBounds lowIn).trans (congrArg Except.ok low),
    (fetchWord_of_inBounds highIn).trans (congrArg Except.ok high)⟩

/-- The next fetch after a store at the next instruction reads the low bits stored. -/
theorem fetchWord_afterStore {w : Width} {mode : AddrMode} {rn rt : RegIdx} {s t : State}
    (hs : s.Inv) (hea : effAddr s w mode rn = s.pc + 4#64) (h : store w mode rn rt s = .next t) :
    fetchWord false t = .ok (((writebackBefore s w mode rn).x rt).extractLsb' 0 32) := by
  obtain ⟨bound, rfl⟩ := (store_eq_next_iff ..).1 h
  have four_le : 4 ≤ w.bytes := by cases w <;> decide
  have pc : (afterStore w mode rn rt s).pc = effAddr s w mode rn := hea.symm
  rw [fetchWord_of_inBounds (by rw [pc, inBounds_iff]; omega), pc, afterStore_mem]
  refine congrArg Except.ok ((Memory.read_w32_write hs _ (o := 0) _ four_le).trans ?_)
  refine BitVec.eq_of_getLsbD_eq fun i hi => ?_
  have inside : i < w.bits := by rw [Width.bits_eq]; omega
  simp only [State.xw, BitVec.getLsbD_extractLsb', BitVec.getLsbD_setWidth, Nat.mul_zero,
    Nat.zero_add, inside, decide_true, Bool.true_and]

/-- Settles O36, from the fetch after a store in any mode. -/
theorem nextFetchSeesTheStore : Obligations.NextFetchSeesTheStore := by
  intro w rn rt s t hs
  refine ⟨fun _ => fetchWord_afterStore hs, fun _ => fetchWord_afterStore hs,
    fun _ => fetchWord_afterStore hs, fun simm9 hea h => ?_⟩
  rw [fetchWord_afterStore hs hea h, writebackBefore, State.x_setX, hea]

end Sys2Proof.Machine
end

section
/-! PROOFS of 44_branch.md, 40_execution_cycle.md R161 to R165, 60_exceptions.md R372 to R376 and of
the whole-machine rules of 10_state.md and 20_memory.md.

What an instruction can keep is said once, in `ExecKeeps`, by the one case split on the shapes of
`exec_ends`; the invariant of memory, the flags, the run state and the alignment of the PC are its
fields. What an instruction can fault with is said once in `exec_eq_fault`. A step adds the fetch
and the decoder to that. -/

namespace Sys2Proof.Machine

/-! ## Branches and the terminate word -/

/-- Settles O37, from the target of a PC-relative branch. -/
theorem unconditionalBranchResults : Obligations.UnconditionalBranchResults :=
  ⟨fun simm26 s => by rw [exec_b, redirect_eq, pcRelative_eq_branchTarget],
    fun rn s _ => by rw [exec_br, redirect_eq], fun s => by rw [exec_br, redirect_eq, State.x_zr]⟩

/-- A conditional branch, with its two states by name (44_branch.md R341). -/
theorem branchOn_result (cond : Cond) (simm19 : BitVec 19) (s : State) :
    branchOn cond simm19 s =
      .next (if condHolds cond s.flags then s.setPc (branchTarget s simm19.toInt)
        else s.setPc (s.pc + 4#64)) := by
  rw [branchOn_eq, pcRelative_eq_branchTarget, apply_ite s.setPc]

theorem branchOn_result_of_iff {cond : Cond} {simm19 : BitVec 19} {s : State} {p : Prop}
    [Decidable p] (h : condHolds cond s.flags = true ↔ p) :
    branchOn cond simm19 s =
      .next (if p then s.setPc (branchTarget s simm19.toInt) else s.setPc (s.pc + 4#64)) := by
  simp only [branchOn_result, h]

/-- Settles O38, from the two states of a conditional branch. -/
theorem conditionalBranchResult : Obligations.ConditionalBranchResult := by
  intro simm19 cond s
  rw [exec_bCond, branchOn_result]
  exact ⟨fun h => by rw [if_pos h], fun h => by rw [h, if_neg Bool.false_ne_true]⟩

/-- Settles O39, from the two states of a conditional branch and the test of each condition. -/
theorem conditionalBranchSpellings : Obligations.ConditionalBranchSpellings := by
  rintro simm19 s _ _ rfl rfl
  rw [exec_bEq, exec_bNe, exec_bGe, exec_bLt, exec_bGt, exec_bLe, exec_bAl]
  refine ⟨branchOn_result .eq simm19 s, ?ne, branchOn_result_of_iff beq_iff_eq, ?lt,
    branchOn_result_of_iff ?gt, branchOn_result_of_iff ?le, branchOn_result .al simm19 s⟩
  case ne =>
    rw [branchOn_result_of_iff (p := ¬s.flags.z = true) (by simp [condHolds]), ite_not]
  case lt =>
    rw [branchOn_result_of_iff (p := ¬s.flags.n = s.flags.v) (by simp [condHolds]), ite_not]
  case gt => simp [condHolds]
  case le =>
    simp only [condHolds, Bool.not_eq_true', Bool.and_eq_false_iff, Bool.not_eq_false',
      beq_eq_false_iff_ne]

/-- Settles O40, from all the halt writes. -/
theorem haltResult : Obligations.HaltResult :=
  fun s => ⟨_, (exec_halt s).trans (halt_eq s), rfl, rfl, rfl, rfl, rfl⟩

/-! ## What an instruction keeps -/

/-- What a completing instruction keeps of the state. -/
structure ExecKeeps (i : Instr) (s t : State) : Prop where
  /-- The flags, unless it is a flag writer (10_state.md R36). -/
  flags : i.writesFlags = false → t.flags = s.flags
  /-- The memory, unless it is a store. -/
  mem : i.isStore = false → t.mem = s.mem
  /-- The run state, unless it is HALT (40_execution_cycle.md R165). -/
  run : i ≠ .halt → t.run = s.run
  /-- The alignment of the PC, unless it is BR (20_memory.md R68). -/
  aligned : (∀ rn, i ≠ .br rn) → s.pc.toNat % 4 = 0 → t.pc.toNat % 4 = 0
  /-- The canonical form of memory. -/
  inv : s.Inv → t.Inv

theorem inv_of_mem {s t : State} (h : t.mem = s.mem) (hs : s.Inv) : t.Inv := by
  rwa [State.Inv, h]

theorem exec_keeps {i : Instr} {s t : State} (h : exec i s = .next t) : ExecKeeps i s t := by
  have ends := exec_ends i s
  generalize exec i s = r at ends h
  cases ends with
  | data w rd v f keepsFlags _ _ =>
    cases h
    exact ⟨keepsFlags, fun _ => by simp, fun _ => by simp, fun _ => aligned_next,
      inv_of_mem (by simp)⟩
  | jump target aligned _ =>
    cases h
    exact ⟨fun _ => rfl, fun _ => rfl, fun _ => rfl, aligned, id⟩
  | halted isHalt =>
    cases h
    exact ⟨fun _ => rfl, fun _ => rfl, fun hne => (hne isHalt).elim, fun _ => id, id⟩
  | load w mode rn rt _ _ _ =>
    obtain ⟨-, rfl⟩ := (load_eq_next_iff ..).1 h
    exact ⟨fun _ => (transferFrame_afterLoad ..).1, fun _ => by simp [afterLoad],
      fun _ => (transferFrame_afterLoad ..).2.1, fun _ => aligned_next,
      inv_of_mem (by simp [afterLoad])⟩
  | store w mode rn rt _ isStore _ _ =>
    obtain ⟨bound, rfl⟩ := (store_eq_next_iff ..).1 h
    refine ⟨fun _ => (transferFrame_afterStore ..).1, fun hn => ?_,
      fun _ => (transferFrame_afterStore ..).2.1, fun _ => aligned_next, fun hs => ?_⟩
    · rw [isStore] at hn
      cases hn
    · rw [State.Inv, afterStore_mem]
      exact Memory.wf_write hs bound _
  | literal w simm19 rt _ _ _ =>
    rw [execLdrLit_eq] at h
    split at h
    next =>
      cases h
      exact ⟨fun _ => by simp, fun _ => by simp, fun _ => by simp, fun _ => aligned_next,
        inv_of_mem (by simp)⟩
    next => cases h

/-- Settles O48, from the flags an instruction keeps. -/
theorem onlyFlagWritersChangeFlags : Obligations.OnlyFlagWritersChangeFlags :=
  fun _ _ _ h => (exec_keeps h).flags

/-- Settles O49, from the memory an instruction keeps. -/
theorem onlyStoresChangeMemory : Obligations.OnlyStoresChangeMemory :=
  fun _ _ _ h hs => memoryKept_of_mem ((exec_keeps h).mem hs)

/-! ## What an instruction faults with -/

/-- A result guarded by the bounds test faults only past the end of memory. -/
theorem guard_eq_fault {ea : DWord} {n : Nat} {t : State} {f g : Fault}
    (h : (if inBounds ea n then .next t else .fault g : Result) = .fault f) :
    f = g ∧ memSize < ea.toNat + n := by
  split at h
  next => cases h
  next hb =>
    cases h
    exact ⟨rfl, (not_inBounds_iff ea n).1 (Bool.eq_false_of_not_eq_true hb)⟩

/-- The only fault of an instruction is a transfer's access out of bounds
(60_exceptions.md R372, R373). -/
theorem exec_eq_fault {i : Instr} {s : State} {f : Fault} (h : exec i s = .fault f) :
    i.isTransfer = true ∧ ∃ ea n, f = .dataBounds ea n s.pc ∧ memSize < ea.toNat + n := by
  have ends := exec_ends i s
  generalize exec i s = r at ends h
  cases ends with
  | data | jump | halted => cases h
  | load w mode rn rt isTransfer =>
    rw [load_eq] at h
    exact ⟨isTransfer, _, _, guard_eq_fault h⟩
  | store w mode rn rt isTransfer =>
    rw [store_eq] at h
    exact ⟨isTransfer, _, _, guard_eq_fault h⟩
  | literal w simm19 rt isTransfer =>
    rw [execLdrLit_eq] at h
    exact ⟨isTransfer, _, _, guard_eq_fault h⟩

theorem guard_ne_refused {ea : DWord} {n : Nat} {t : State} {f : Fault} {r : Refusal} :
    (if inBounds ea n then .next t else .fault f : Result) ≠ .refused r := by
  split <;> nofun

/-- Every instruction has a meaning. -/
theorem exec_ne_refused (i : Instr) (s : State) (r : Refusal) : exec i s ≠ .refused r := by
  have ends := exec_ends i s
  generalize exec i s = result at ends
  cases ends with
  | data | jump | halted => nofun
  | load => rw [load_eq]; exact guard_ne_refused
  | store => rw [store_eq]; exact guard_ne_refused
  | literal => rw [execLdrLit_eq]; exact guard_ne_refused

/-- Settles O50, from the one fault an instruction can raise. -/
theorem onlyTransfersFaultAfterDecode : Obligations.OnlyTransfersFaultAfterDecode := by
  refine fun i s => ⟨fun f h => ?_, exec_ne_refused i s⟩
  obtain ⟨isTransfer, ea, n, hf, -⟩ := exec_eq_fault h
  exact ⟨isTransfer, ea, n, hf⟩

/-! ## The step -/

section

variable {s : State}

theorem step_of_decode_ok {i : Instr} (hr : s.run = .running) (hb : s.pc.toNat + 4 ≤ memSize)
    (hd : decode s.nextWord = .ok i) : step s = exec i s := by
  rw [State.nextWord] at hd
  rw [step_of_running hr, if_pos ((inBounds_iff _ _).2 hb), hd]

theorem step_of_decode_error {e : DecodeError} (hr : s.run = .running)
    (hb : s.pc.toNat + 4 ≤ memSize) (hd : decode s.nextWord = .error e) :
    step s = .fault (faultOfDecodeError e s.nextWord s.pc) := by
  rw [State.nextWord] at hd ⊢
  rw [step_of_running hr, if_pos ((inBounds_iff _ _).2 hb), hd]

theorem step_of_fetch_out_of_bounds (hr : s.run = .running) (hb : memSize < s.pc.toNat + 4) :
    step s = .fault (.fetchBounds s.pc) := by
  rw [step_of_running hr, (not_inBounds_iff _ _).2 hb, if_neg Bool.false_ne_true]

/-- A step that completes ran the instruction its word decodes to. -/
theorem step_eq_next {t : State} (h : step s = .next t) :
    s.run = .running ∧ s.pc.toNat + 4 ≤ memSize ∧
      ∃ i, decode s.nextWord = .ok i ∧ exec i s = .next t := by
  have hr : s.run = .running := by
    by_contra hr
    rw [step_of_not_running hr] at h
    cases h
  have hb : s.pc.toNat + 4 ≤ memSize := by
    by_contra hb
    rw [step_of_fetch_out_of_bounds hr (Nat.not_le.1 hb)] at h
    cases h
  refine ⟨hr, hb, ?_⟩
  cases hd : decode s.nextWord with
  | error e => rw [step_of_decode_error hr hb hd] at h; cases h
  | ok i => exact ⟨i, rfl, (step_of_decode_ok hr hb hd).symm.trans h⟩

/-- A running machine is never refused a step (40_execution_cycle.md R161). -/
theorem step_ne_refused (hr : s.run = .running) (r : Refusal) : step s ≠ .refused r := by
  rcases Nat.lt_or_ge memSize (s.pc.toNat + 4) with hb | hb
  · rw [step_of_fetch_out_of_bounds hr hb]
    nofun
  cases hd : decode s.nextWord with
  | error e => rw [step_of_decode_error hr hb hd]; nofun
  | ok i => rw [step_of_decode_ok hr hb hd]; exact exec_ne_refused i s r

end

/-- Settles O45, from the memory every instruction keeps in canonical form. -/
theorem everyStepKeepsTheInvariant : Obligations.EveryStepKeepsTheInvariant := by
  intro s t hs h
  obtain ⟨-, -, i, -, hexec⟩ := step_eq_next h
  exact (exec_keeps hexec).inv hs

/-- Settles O46: nothing is listed after reset. -/
theorem resetMeetsTheInvariant : Obligations.ResetMeetsTheInvariant :=
  Memory.wf_nil

/-- Settles O41: the four bytes at the PC are the word the step decodes. -/
theorem stepRunsTheDecodedInstruction : Obligations.StepRunsTheDecodedInstruction :=
  fun _ _ hr hb hd => step_of_decode_ok hr hb hd

/-- Settles O42, from what a step does in each of the cases of its tests. -/
theorem faultOrderOfAStep : Obligations.FaultOrderOfAStep := by
  intro s hr
  refine ⟨step_of_fetch_out_of_bounds hr, fun hb => ⟨step_of_decode_error hr hb,
    step_of_decode_error hr hb, step_of_decode_error hr hb, step_of_decode_error hr hb,
    fun i f hd h => ?_⟩⟩
  rw [step_of_decode_ok hr hb hd] at h
  exact exec_eq_fault h

/-- Settles O43, from the refusal where the machine does not run and none where it does. -/
theorem stepsExistExactlyWhileRunning : Obligations.StepsExistExactlyWhileRunning :=
  fun _ => ⟨fun ⟨r, h⟩ hr => step_ne_refused hr r h, fun hr => ⟨_, step_of_not_running hr⟩⟩

/-- The terminate word alone decodes to HALT (30_encoding.md R103). -/
theorem decode_eq_halt_iff (v : Word) : decode v = .ok .halt ↔ v = terminateWord := by
  refine ⟨fun h => ?_, fun h => by rw [h]; rfl⟩
  exact (Laws.encodeOfDecodedWordIsTheWord v .halt h).2.2.symm

/-- Settles O51: HALT alone changes the run state, and the terminate word alone is HALT. -/
theorem stepHaltsExactlyAtTheTerminateWord : Obligations.StepHaltsExactlyAtTheTerminateWord := by
  intro s t h
  obtain ⟨hr, -, i, hd, hexec⟩ := step_eq_next h
  by_cases hw : s.nextWord = terminateWord
  · obtain rfl : Instr.halt = i := by
      rw [(decode_eq_halt_iff _).2 hw] at hd
      exact Except.ok.inj hd
    cases hexec
    exact ⟨iff_of_true rfl hw, fun _ => rfl, fun hne => (hne hw).elim⟩
  · have hne : i ≠ .halt := fun e => hw ((decode_eq_halt_iff _).1 (e ▸ hd))
    have hrun : t.run = .running := ((exec_keeps hexec).run hne).trans hr
    exact ⟨iff_of_false (by rw [hrun]; nofun) hw, fun he => (hw he).elim, fun _ => hrun⟩

/-! ## The alignment of a fetch (20_memory.md R68) -/

theorem pcAligned_iff (s : State) : s.pcAligned = true ↔ s.pc.toNat % 4 = 0 := by
  rw [State.pcAligned, beq_iff_eq]

theorem slice_pc_eq_zero_iff (s : State) : slice 1 0 s.pc = 0b00#2 ↔ s.pcAligned = true := by
  rw [pcAligned_iff, Laws.slice_eq_iff, Nat.pow_zero, Nat.div_one]
  rfl

theorem fetchWord_true_of_aligned {s : State} (h : s.pcAligned = true) :
    fetchWord true s = fetchWord false s := by
  rw [fetchWord, (slice_pc_eq_zero_iff s).2 h]
  rfl

theorem fetchWord_true_of_unaligned {s : State} (h : s.pcAligned = false) :
    fetchWord true s = .error (.fetchAlign s.pc) := by
  have hs : slice 1 0 s.pc ≠ 0b00#2 := by
    rw [Ne, slice_pc_eq_zero_iff, h]
    exact Bool.false_ne_true
  rw [fetchWord, Bool.true_and, if_pos (bne_iff_ne.2 hs)]

/-- Settles O44, from the fetch at an aligned and at an unaligned PC and the alignment an
instruction keeps. -/
theorem fetchAlignmentRule : Obligations.FetchAlignmentRule := by
  refine ⟨step_eq, fun s hb => ?_, fun s hr hu => ?_, fun s ha => ?_, fun i s t ha h hbr => ?_⟩
  · exact ⟨_, fetchWord_of_inBounds ((inBounds_iff _ _).2 hb),
      fun k hk => s.mem.byteAt_read _ .w32 hk⟩
  · simp only [stepWith, hr, fetchInstr, fetchWord_true_of_unaligned hu, raise_eq]
  · simp only [stepWith, fetchInstr, fetchWord_true_of_aligned ha]
  · exact (pcAligned_iff t).2 ((exec_keeps h).aligned hbr ((pcAligned_iff s).1 ha))

end Sys2Proof.Machine
end

section
/-! PROOFS of 70_reset_and_hazards.md and of the run rules of 40_execution_cycle.md: the image load
(R401), the report (R410, R411), a branch to itself (40_execution_cycle.md R163) and ended runs
(10_state.md R40). -/

namespace Sys2Proof.Machine

/-! ## The image load (70_reset_and_hazards.md R401) -/

/-- The state a loaded image gives. -/
def imageState (image : List Byte) : State :=
  { State.reset with mem := Memory.writeBytes State.reset.mem 0 image }

theorem loadImage_eq_some_iff (image : List Byte) (s : State) :
    loadImage image = some s ↔ image.length ≤ memSize ∧ imageState image = s := by
  rw [loadImage]
  split
  next h => exact ⟨fun e => ⟨h, Option.some.inj e⟩, fun e => congrArg some e.2⟩
  next h => exact ⟨nofun, fun e => (h e.1).elim⟩

/-- The loaded memory is the image, zero past its end. -/
theorem readByte_imageState (image : List Byte) (a : Nat) :
    (imageState image).mem.readByte a = (image[a]?).getD 0#8 :=
  (Memory.readByte_writeBytes .nil 0 a image).trans (if_pos (Nat.zero_le a))

/-- Settles O52, from the state a loaded image gives. -/
theorem imageLoadRule : Obligations.ImageLoadRule := by
  refine fun image => ⟨fun h => ?_, fun h => if_neg (Nat.not_le.2 h)⟩
  exact ⟨_, (loadImage_eq_some_iff ..).2 ⟨h, rfl⟩, readByte_imageState image, State.reset_x,
    State.reset_nzcv, rfl, rfl, Memory.wf_writeBytes Memory.wf_nil (by omega)⟩

/-- Byte `4 * k + j` of an image is byte `j` of its `k`-th word (30_encoding.md R144). -/
theorem getElem?_imageOf {vs : List Word} {k : Nat} {v : Word} (h : vs[k]? = some v) {j : Nat}
    (hj : j < 4) : (imageOf vs)[4 * k + j]? = some (byteAt v j) := by
  induction vs generalizing k with
  | nil => simp at h
  | cons u us ih =>
    rw [imageOf, List.flatMap_cons]
    cases k with
    | zero =>
      obtain rfl : u = v := by simpa using h
      rw [List.getElem?_append_left (by simpa using hj)]
      simp [hj]
    | succ k =>
      rw [List.getElem?_append_right (by simp; omega)]
      have := ih (k := k) (by simpa using h)
      rw [← this, imageOf]
      congr 1
      simp
      omega

/-- Settles O53, from the bytes of the loaded image. -/
theorem loadedImageHoldsItsWords : Obligations.LoadedImageHoldsItsWords := by
  intro vs s h k v hk
  obtain ⟨-, rfl⟩ := (loadImage_eq_some_iff ..).1 h
  refine eq_of_byteAt (w := .w32) fun j hj => ?_
  rw [Memory.byteAt_read _ _ _ hj, readByte_imageState, getElem?_imageOf hk hj, Option.getD_some]

/-! ## The report (70_reset_and_hazards.md R410, R411) -/

theorem regs_getElem? (s : State) {i : RegIdx} (h : i ≠ zr) : s.regs[i.toNat]? = some (s.x i) := by
  have stored := regIdx_lt_of_ne_zr h
  rw [State.x, dif_pos stored, Vector.getElem?_eq_getElem stored]

theorem mem_nonzeroWords_iff (m : Memory) (a : Nat) (v : Word) :
    (a, v) ∈ nonzeroWords m ↔
      a % 4 = 0 ∧ a + 4 ≤ memSize ∧ m.read a .w32 = v ∧ v ≠ 0#32 := by
  have hsize := memSize_eq
  rw [nonzeroWords, List.mem_filterMap]
  constructor
  · rintro ⟨k, hk, h⟩
    rw [List.mem_range] at hk
    split at h
    next => cases h
    next hne =>
      cases h
      exact ⟨by omega, by omega, rfl, hne⟩
  · rintro ⟨ha, hb, rfl, hne⟩
    obtain ⟨k, rfl⟩ : ∃ k, a = 4 * k := ⟨a / 4, by omega⟩
    exact ⟨k, List.mem_range.2 (by omega), if_neg hne⟩

theorem pairwise_nonzeroWords (m : Memory) :
    (nonzeroWords m).Pairwise (fun p q => p.1 < q.1) := by
  refine List.Pairwise.filterMap _ (fun j k hjk p hp q hq => ?_) List.pairwise_lt_range
  split at hp <;> cases hp
  split at hq <;> cases hq
  exact Nat.mul_lt_mul_of_pos_left hjk (by decide)

theorem report_mem (s : State) : (report s).mem = nonzeroWords s.mem := by rw [report]

/-- Settles O54, from the entries of the register file and the words the walk over memory keeps. -/
theorem reportContents : Obligations.ReportContents := by
  refine fun s => ⟨fun _ => regs_getElem? s, rfl, rfl, ?_⟩
  rw [report_mem]
  exact ⟨mem_nonzeroWords_iff s.mem, pairwise_nonzeroWords s.mem⟩

/-! ## Runs -/

/-- The branch to itself leaves the whole state, the PC included (40_execution_cycle.md R163). -/
theorem step_of_branch_to_itself {s : State} (hr : s.run = .running)
    (hb : s.pc.toNat + 4 ≤ memSize) (hw : s.nextWord = 0x14000000#32) : step s = .next s := by
  have hd : decode s.nextWord = .ok (.b 0#26) := by rw [hw]; rfl
  rw [step_of_decode_ok hr hb hd, exec_b, redirect_eq]
  refine congrArg Host.Outcome.next (State.ext_fields rfl rfl ?_ rfl rfl)
  simp [pcRelative, sext]

/-- Settles O55, by induction on the number of steps. -/
theorem branchToItselfHangs : Obligations.BranchToItselfHangs := by
  intro s hr hb hw k
  have same : runFor k s = .next s := by
    induction k with
    | zero => rfl
    | succ k ih => rw [runFor_succ k hr, step_of_branch_to_itself hr hb hw]; exact ih
  exact ⟨same, by rw [same, observe, hr]⟩

/-- A run that reached a machine that does not run stays there (10_state.md R40). -/
theorem runFor_add_of_next {s t : State} {k : Nat} (n : Nat) (h : runFor k s = .next t)
    (ht : t.run ≠ .running) : runFor (k + n) s = .next t := by
  induction k generalizing s with
  | zero =>
    cases h
    exact runFor_of_not_running _ ht
  | succ k ih =>
    by_cases hr : s.run = .running
    · rw [Nat.add_right_comm, runFor_succ _ hr]
      rw [runFor_succ _ hr] at h
      cases hs : step s with
      | next u => rw [hs] at h; exact ih h
      | fault f => rw [hs] at h; cases h
      | refused r => rw [hs] at h; cases h
    · rw [runFor_of_not_running _ hr] at h ⊢
      exact h

/-- A run that faulted stays so (10_state.md R40). -/
theorem runFor_add_of_fault {s : State} {f : Fault} {k : Nat} (n : Nat)
    (h : runFor k s = .fault f) : runFor (k + n) s = .fault f := by
  induction k generalizing s with
  | zero => cases h
  | succ k ih =>
    by_cases hr : s.run = .running
    · rw [Nat.add_right_comm, runFor_succ _ hr]
      rw [runFor_succ _ hr] at h
      cases hs : step s with
      | next u => rw [hs] at h; exact ih h
      | fault g => rw [hs] at h; exact h
      | refused r => rw [hs] at h; cases h
    · rw [runFor_of_not_running _ hr] at h
      cases h

/-- No run is refused: it takes a step only where one exists (40_execution_cycle.md R161, R167). -/
theorem runFor_ne_refused (s : State) (k : Nat) (r : Refusal) : runFor k s ≠ .refused r := by
  induction k generalizing s with
  | zero => nofun
  | succ k ih =>
    by_cases hr : s.run = .running
    · rw [runFor_succ _ hr]
      cases hs : step s with
      | next u => exact ih u
      | fault f => nofun
      | refused q => exact (step_ne_refused hr q hs).elim
    · rw [runFor_of_not_running _ hr]
      nofun

/-- Settles O56, from the runs that stay ended and that none is refused. -/
theorem endedRunsStayEnded : Obligations.EndedRunsStayEnded :=
  fun s k n _ => ⟨fun t h ht => runFor_add_of_next n h (by rw [ht]; nofun),
    fun _ h => runFor_add_of_fault n h, runFor_ne_refused s k⟩

end Sys2Proof.Machine
end

section
/-! PROOFS of the assembler's encoder (30_encoding.md R135, R140 to R145; the encoder sections of
41_dp_immediate.md, 42_dp_register.md, 43_load_store.md and 44_branch.md).

Each family's encoder is read through one equation for each shape it takes and, for the round trip,
through one lemma that says what it can choose. -/

namespace Sys2Proof.Machine

open Laws

/-! ## Every choice of the encoder is well-formed and canonical (30_encoding.md R145) -/

/-- An instruction some word encodes, and the one that word decodes to (30_encoding.md R145). -/
def RoundTrips (i : Instr) : Prop :=
  i.wf = true ∧ i.isCanonical = true

/-- An amount below the width fits its field (30_encoding.md R127). -/
theorem amountFits_ofInt {w : Width} {amount : Int} (h : 0 ≤ amount ∧ amount < w.bits) :
    amountFits w (BitVec.ofInt 6 amount) = true := by
  cases w with
  | w64 => rfl
  | w32 =>
    have below : amount < 32 := h.2
    have value := toNat_ofInt_of_fits (n := 6) h.1 (by omega)
    exact decide_eq_true (by omega)

/-- A shift below the width is a halfword position that fits its field (30_encoding.md R127). -/
theorem halfwordFits_ofInt {w : Width} {s : Int} (h : 0 ≤ s ∧ s < w.bits) :
    halfwordFits w (BitVec.ofInt 2 (s / 16)) = true := by
  cases w with
  | w64 => rfl
  | w32 =>
    have below : s < 32 := h.2
    have value := toNat_ofInt_of_fits (n := 2) (v := s / 16) (by omega) (by omega)
    exact decide_eq_true (by omega)

theorem assembleArith_roundTrips {immForm regForm} {ops : List Operand} {i : Instr}
    (h : assembleArith immForm regForm ops = .ok i)
    (himm : ∀ w sh imm12 rn rd, RoundTrips (immForm w sh imm12 rn rd))
    (hreg : ∀ w k rm imm6 rn rd, arithShiftAllowed k = true → amountFits w imm6 = true →
      RoundTrips (regForm w k rm imm6 rn rd)) : RoundTrips i := by
  unfold assembleArith at h
  split at h
  next w rd w1 rn v rest =>
    split at h
    next => cases h
    next k s hs =>
      split_ifs at h
      cases h
      exact himm ..
  next w rd w1 rn w2 rm rest =>
    split at h
    next => cases h
    next k amount hs =>
      split_ifs at h with hbad hfits
      cases h
      refine hreg _ _ _ _ _ _ ?_ (amountFits_ofInt hfits)
      by_contra hk
      exact hbad (.inr (.inr (Bool.eq_false_of_not_eq_true hk)))
  next => cases h

theorem assembleWideMove_roundTrips {form} {ops : List Operand} {i : Instr}
    (h : assembleWideMove form ops = .ok i)
    (hform : ∀ w hw imm16 rd, halfwordFits w hw = true → RoundTrips (form w hw imm16 rd)) :
    RoundTrips i := by
  unfold assembleWideMove at h
  split at h
  next w rd v rest =>
    split at h
    next => cases h
    next k s hs =>
      split_ifs at h with hfits
      cases h
      exact hform _ _ _ _ (halfwordFits_ofInt ⟨hfits.2.2.2.2.1, hfits.2.2.2.2.2⟩)
  next => cases h

theorem assembleLogic_roundTrips {form} {ops : List Operand} {i : Instr}
    (h : assembleLogic form ops = .ok i)
    (hform : ∀ w k rm imm6 rn rd, amountFits w imm6 = true → RoundTrips (form w k rm imm6 rn rd)) :
    RoundTrips i := by
  unfold assembleLogic at h
  split at h
  next w rd w1 rn w2 rm rest =>
    split at h
    next => cases h
    next k amount hs =>
      split_ifs at h with hbad hfits
      cases h
      exact hform _ _ _ _ _ _ (amountFits_ofInt hfits)
  next => cases h

theorem assembleMultiply_roundTrips {form} {ops : List Operand} {i : Instr}
    (h : assembleMultiply form ops = .ok i)
    (hform : ∀ w rm ra rn rd, RoundTrips (form w rm ra rn rd)) : RoundTrips i := by
  unfold assembleMultiply at h
  split at h
  next w rd w1 rn w2 rm w3 ra =>
    split_ifs at h
    cases h
    exact hform ..
  next => cases h

theorem assembleTransfer_roundTrips {isLoad : Bool} {ops : List Operand} {addr : BitVec 32}
    {i : Instr} (h : assembleTransfer isLoad ops addr = .ok i) : RoundTrips i := by
  unfold assembleTransfer at h
  split at h
  next w rt wb rn v =>
    split_ifs at h
    all_goals
      cases h
      exact ⟨rfl, beq_self_eq_true _⟩
  next w rt wb rn v =>
    split_ifs at h
    all_goals
      split at h
      next => cases h
      next simm9 _ =>
        cases h
        exact ⟨rfl, beq_self_eq_true _⟩
  next w rt wb rn v =>
    split_ifs at h
    all_goals
      split at h
      next => cases h
      next simm9 _ =>
        cases h
        exact ⟨rfl, beq_self_eq_true _⟩
  next w rt wb rn wi rm =>
    split_ifs at h
    all_goals
      cases h
      exact ⟨rfl, beq_self_eq_true _⟩
  next w rt t _ _ _ _ =>
    split_ifs at h
    split at h
    next => cases h
    next simm19 _ =>
      cases h
      exact ⟨rfl, beq_self_eq_true _⟩
  next => cases h

theorem assembleBranch_roundTrips {m : Mnemonic} {ops : List Operand} {addr : BitVec 32}
    {i : Instr} (h : assembleBranch m ops addr = .ok i) : RoundTrips i := by
  unfold assembleBranch at h
  split at h
  next t =>
    split at h
    next => cases h
    next simm26 _ =>
      cases h
      exact ⟨rfl, beq_self_eq_true _⟩
  next cond t =>
    split at h
    next => cases h
    next simm19 _ =>
      cases h
      exact ⟨rfl, beq_self_eq_true _⟩
  next rn =>
    cases h
    exact ⟨rfl, beq_self_eq_true _⟩
  next => cases h

theorem andOrHalt_roundTrips {w : Width} {k : ShiftKind} {rm rn rd : RegIdx} {imm6 : BitVec 6}
    (h : amountFits w imm6 = true) : RoundTrips (andOrHalt w k rm imm6 rn rd) := by
  unfold andOrHalt
  split
  next => exact ⟨rfl, rfl⟩
  next hs => exact ⟨by simp [Instr.wf, h, hs], beq_self_eq_true _⟩

/-- What the encoder chooses for a line is well-formed and canonical (30_encoding.md R145). -/
theorem assembleCanonical_roundTrips {a : AsmInstr} {addr : BitVec 32} {i : Instr}
    (h : assembleCanonical a addr = .ok i) : RoundTrips i := by
  obtain ⟨m, ops⟩ := a
  cases m
  case add | adds | sub | subs =>
    exact assembleArith_roundTrips h (fun _ _ _ _ _ => ⟨rfl, beq_self_eq_true _⟩)
      (fun _ _ _ _ _ _ hk hf => ⟨Bool.and_eq_true_iff.2 ⟨hk, hf⟩, beq_self_eq_true _⟩)
  case and => exact assembleLogic_roundTrips h (fun _ _ _ _ _ _ hf => andOrHalt_roundTrips hf)
  case ands | bic | bics | eor | orr | eon | orn =>
    exact assembleLogic_roundTrips h (fun _ _ _ _ _ _ hf => ⟨hf, beq_self_eq_true _⟩)
  case movk | movn | movz =>
    exact assembleWideMove_roundTrips h (fun _ _ _ _ hf => ⟨hf, beq_self_eq_true _⟩)
  case madd | msub =>
    exact assembleMultiply_roundTrips h (fun _ _ _ _ _ => ⟨rfl, beq_self_eq_true _⟩)
  case b | bCond | br => exact assembleBranch_roundTrips h
  case ldr | str => exact assembleTransfer_roundTrips h
  case cmp | cmn | neg | negs | tst | mov | mvn | mul | mneg | unknown => cases h

/-- Settles O57, from what the encoder can choose and the round trip of the words (O1). -/
theorem assembledWordsDecodeBack : Obligations.AssembledWordsDecodeBack := by
  intro a addr v h
  unfold encodeAsm at h
  split at h
  next => cases h
  next i hi =>
    cases h
    obtain ⟨hwf, hcanonical⟩ := assembleCanonical_roundTrips hi
    exact ⟨i, hi, hwf, hcanonical, decodeOfEncodeIsTheInstruction i hwf hcanonical⟩

/-! ## Targets -/

/-- An offset a field of `n` bits holds in instruction units (44_branch.md R350 to R352;
43_load_store.md R309 to R311). -/
def OffsetFits (n : Nat) (offset : Int) : Prop :=
  offset % 4 = 0 ∧ -2 ^ (n + 1) ≤ offset ∧ offset ≤ 2 ^ (n + 1) - 4

theorem targetField_label {target : BitVec 32} (h : target ≠ 0xFFFFFFFF#32) (n : Nat)
    (addr : BitVec 32) :
    targetField n (.label target) addr = offsetField n target.toNat addr := by
  simp only [targetField, targetAddress, if_neg h]

/-- The field's own test of the offset in instruction units is the test in bytes. -/
theorem fieldTest_iff_offsetFits {n : Nat} (hn : 0 < n) (offset : Int) :
    offset % 4 = 0 ∧ -2 ^ (n - 1) ≤ offset / 4 ∧ offset / 4 ≤ 2 ^ (n - 1) - 1 ↔
      OffsetFits n offset := by
  obtain ⟨m, rfl⟩ : ∃ m, n = m + 1 := ⟨n - 1, by omega⟩
  have scale : (2 : Int) ^ (m + 1 + 1) = 4 * 2 ^ m := by ring
  rw [OffsetFits, scale, Nat.add_sub_cancel]
  omega

theorem targetField_of_fits {n : Nat} (hn : 0 < n) {target addr : BitVec 32}
    (ht : target ≠ 0xFFFFFFFF#32) (h : OffsetFits n (target.toNat - addr.toNat)) :
    ∃ simm, targetField n (.label target) addr = .ok simm ∧
      simm.toInt * 4 = target.toNat - addr.toNat := by
  have field : offsetField n target.toNat addr = .ok _ :=
    if_pos ((fieldTest_iff_offsetFits hn _).2 h)
  exact ⟨_, (targetField_label ht n addr).trans field, (offsetField_ok_iff hn _ _ _).1 field⟩

theorem targetField_of_not_fits {n : Nat} (hn : 0 < n) {target addr : BitVec 32}
    (ht : target ≠ 0xFFFFFFFF#32) (h : ¬OffsetFits n (target.toNat - addr.toNat)) :
    targetField n (.label target) addr = .error .eRange :=
  (targetField_label ht n addr).trans (if_neg (mt (fieldTest_iff_offsetFits hn _).1 h))

/-- The field of an offset from the instruction's own address leads to the target. -/
theorem pcRelative_eq_target {n : Nat} {simm : BitVec n} {target addr : BitVec 32} {s : State}
    (hpc : s.pc = addr.setWidth 64) (h : simm.toInt * 4 = target.toNat - addr.toNat) :
    pcRelative s simm = target.setWidth 64 := by
  have inside := addr.isLt
  have start : (s.pc.toNat : Int) = addr.toNat := by rw [hpc, BitVec.toNat_setWidth]; omega
  rw [pcRelative_eq_branchTarget, branchTarget, start, h, add_sub_cancel, BitVec.ofInt_natCast,
    BitVec.ofNat_toNat]

/-- Settles O58, from the field of an offset and the address it leads to. -/
theorem assembledTargetsAreReached : Obligations.AssembledTargetsAreReached := by
  rintro target addr offset s ht rfl hpc
  refine ⟨fun h => ?_, fun h => ?_, fun cond hcond h => ?_, fun cond h => ?_, fun w rt h => ?_,
    fun w rt h => ?_⟩
  · obtain ⟨simm26, field, reached⟩ := targetField_of_fits (n := 26) (by decide) ht h
    refine ⟨.b simm26, by simp only [assembleInstr_b, assembleBranch, field], ?_⟩
    rw [exec_b, redirect_eq, pcRelative_eq_target hpc reached]
  · have field := targetField_of_not_fits (n := 26) (by decide) ht h
    simp only [assembleInstr_b, assembleBranch, field]
  · obtain ⟨simm19, field, reached⟩ := targetField_of_fits (n := 19) (by decide) ht h
    refine ⟨.bCond simm19 cond, by simp only [assembleInstr_bCond, assembleBranch, field], ?_⟩
    rw [exec_bCond, branchOn_eq, if_pos hcond, pcRelative_eq_target hpc reached]
  · have field := targetField_of_not_fits (n := 19) (by decide) ht h
    simp only [assembleInstr_bCond, assembleBranch, field]
  · obtain ⟨simm19, field, reached⟩ := targetField_of_fits (n := 19) (by decide) ht h
    refine ⟨simm19, ?_, pcRelative_eq_target hpc reached⟩
    simp only [assembleInstr_ldr, assembleTransfer, field, if_true]
  · have field := targetField_of_not_fits (n := 19) (by decide) ht h
    simp only [assembleInstr_ldr, assembleTransfer, field, if_true]

/-! ## Byte offsets -/

/-- The field of an unsigned offset, a multiple of the transfer size (43_load_store.md R303). -/
theorem unsignedOffset_field {w : Width} {offset : Int}
    (h : offset % w.bytes = 0 ∧ 0 ≤ offset ∧ offset ≤ 4095 * w.bytes) :
    ((BitVec.ofInt 12 (offset / w.bytes)).toNat : Int) * w.bytes = offset := by
  obtain ⟨multiple, nonneg, small⟩ := h
  cases w <;> simp only [Width.bytes] at * <;>
    rw [toNat_ofInt_of_fits (by omega) (by omega)] <;> omega

/-- The field's own test of the offset in units of the transfer size is the test in bytes. -/
theorem unsignedOffsetTest_iff (w : Width) (offset : Int) :
    offset % w.bytes = 0 ∧ 0 ≤ offset ∧ offset / w.bytes ≤ 4095 ↔
      offset % w.bytes = 0 ∧ 0 ≤ offset ∧ offset ≤ 4095 * w.bytes := by
  cases w <;> simp only [Width.bytes] <;> omega

theorem assembleTransfer_offset (isLoad : Bool) (w : Width) (rt rn : RegIdx) (offset : Int)
    (addr : BitVec 32) :
    assembleTransfer isLoad [.reg w rt, .offset .w64 rn offset] addr =
      if offset % w.bytes = 0 ∧ 0 ≤ offset ∧ offset / w.bytes ≤ 4095 then
        .ok (if isLoad then .ldrUoff w (BitVec.ofInt 12 (offset / w.bytes)) rn rt
          else .strUoff w (BitVec.ofInt 12 (offset / w.bytes)) rn rt)
      else .error .eRange := rfl

/-- Where the unsigned-offset form goes is base plus the bytes its field stands for. -/
theorem effAddr_unsignedOffset_of_value {s : State} {w : Width} {imm12 : BitVec 12} {rn : RegIdx}
    {offset : Int} (h : (imm12.toNat : Int) * w.bytes = offset) :
    effAddr s w (.unsignedOffset imm12) rn = BitVec.ofInt 64 ((s.x rn).toNat + offset) := by
  obtain ⟨formula, -⟩ := effectiveAddressFormulas s w rn
  apply BitVec.eq_of_toNat_eq
  have value :
      (((s.x rn).toNat + imm12.toNat * w.bytes : Nat) : Int) = (s.x rn).toNat + offset := by
    push_cast
    rw [h]
  rw [formula, ← value, BitVec.ofInt_natCast, BitVec.toNat_ofNat]

/-- Settles O59, from each field's range and the address its value gives. -/
theorem assembledOffsetsAddressTheirBytes : Obligations.AssembledOffsetsAddressTheirBytes := by
  intro w rn rt offset addr s
  refine ⟨fun h => ?_, fun h => ?_, fun h => ?_, fun h => ?_⟩
  · have test := (unsignedOffsetTest_iff w offset).2 h
    refine ⟨_, ?_, ?_, effAddr_unsignedOffset_of_value (unsignedOffset_field h)⟩
    · rw [assembleInstr_ldr, assembleTransfer_offset, if_pos test]
      rfl
    · rw [assembleInstr_str, assembleTransfer_offset, if_pos test]
      rfl
  · have test := mt (unsignedOffsetTest_iff w offset).1 h
    constructor
    · rw [assembleInstr_ldr, assembleTransfer_offset, if_neg test]
    · rw [assembleInstr_str, assembleTransfer_offset, if_neg test]
  · obtain ⟨simm9, field, value⟩ := simm9Field_of_fits h
    have moved : s.x rn + sext simm9 = BitVec.ofInt 64 ((s.x rn).toNat + offset) := by
      rw [add_sext_eq_ofInt, value]
    refine ⟨simm9, value, ?_, ?_, ?_, ?_, moved, rfl, fun t hrn => ?_⟩
    · simp [assembleInstr_ldr, assembleTransfer, field]
    · simp [assembleInstr_str, assembleTransfer, field]
    · simp [assembleInstr_ldr, assembleTransfer, field]
    · simp [assembleInstr_str, assembleTransfer, field]
    · rw [writebackAfter, State.x_setX_self _ _ hrn, moved]
  · have field := simm9Field_of_not_fits h
    refine ⟨?_, ?_, ?_, ?_⟩
    · simp [assembleInstr_ldr, assembleTransfer, field]
    · simp [assembleInstr_str, assembleTransfer, field]
    · simp [assembleInstr_ldr, assembleTransfer, field]
    · simp [assembleInstr_str, assembleTransfer, field]

end Sys2Proof.Machine
end

section
/-! PROOFS of what each line assembles to (30_encoding.md R135, R142, R143; 41_dp_immediate.md
section 3, 42_dp_register.md section 4, 43_load_store.md section 3, 44_branch.md section 2).

A mnemonic, canonical or one of the aliases, is sent to its family's encoder by an equation that
holds by computation, so each kind of line is settled once for its family. -/

namespace Sys2Proof.Machine

/-! ## Suffixes -/

theorem shiftSuffix_shift (k : ShiftKind) (amount : Int) :
    shiftSuffix [.shift k amount] = .ok (k, amount) := rfl

/-- A suffix that is absent or one shift is read as some kind and amount. -/
theorem shiftSuffix_of_shape {suffix : List Operand} {k : ShiftKind} {amount : Int}
    (h : suffix = [] ∨ suffix = [.shift k amount]) : ∃ p, shiftSuffix suffix = .ok p := by
  rcases h with rfl | rfl
  · exact ⟨_, rfl⟩
  · exact ⟨_, rfl⟩

/-- An immediate line's suffix, absent or `lsl`, is read as a left shift. -/
theorem shiftSuffix_of_lsl {suffix : List Operand} {s : Int}
    (h : suffix = [] ∧ s = 0 ∨ suffix = [.shift .lsl s]) :
    shiftSuffix suffix = .ok (.lsl, s) := by
  rcases h with ⟨rfl, rfl⟩ | rfl
  · rfl
  · rfl

/-! ## Lines of each family that are in their limits or not -/

/-- A line that reaches the arithmetic encoder with an immediate third (41_dp_immediate.md R220). -/
theorem assemblesArithImm_of_family {immForm regForm} {m : Mnemonic} {front : List Operand}
    {addr : BitVec 32} {w : Width} {rd rn : RegIdx}
    (family : ∀ rest, assembleInstr ⟨m, front ++ rest⟩ addr =
      assembleArith immForm regForm (.reg w rd :: .reg w rn :: rest)) :
    AssemblesArithImm m front addr (fun sh imm12 => immForm w sh imm12 rn rd) := by
  refine fun v s suffix => ⟨fun hsuffix => ⟨fun h => ?_, fun h => ?_⟩, fun hsuffix => ?_⟩
  · have read := shiftSuffix_of_lsl hsuffix
    refine ⟨decide (s = 12), BitVec.ofInt 12 v, decide_eq_true_iff,
      toNat_ofInt_of_fits h.1 (by omega), ?_⟩
    rw [family, assembleArith_imm _ _ _ _ _ _ read, if_neg (by simp [arithShiftAllowed]),
      if_pos ⟨rfl, h⟩]
  · have read := shiftSuffix_of_lsl hsuffix
    rw [family, assembleArith_imm _ _ _ _ _ _ read, if_neg (by simp [arithShiftAllowed]),
      if_neg fun held => h held.2]
  · rcases hsuffix with rfl | rfl
    all_goals
      rw [family, assembleArith_imm _ _ _ _ _ _ (shiftSuffix_shift _ _),
        if_neg (by simp [arithShiftAllowed]), if_neg (by simp)]

/-- A line that reaches the wide-move encoder (41_dp_immediate.md R221). -/
theorem assemblesWideMove_of_family {form} {m : Mnemonic} {addr : BitVec 32} (w : Width)
    (rd : RegIdx) (family : ∀ ops, assembleInstr ⟨m, ops⟩ addr = assembleWideMove form ops) :
    AssemblesWideMove m w rd addr (fun hw imm16 => form w hw imm16 rd) := by
  refine fun v s suffix => ⟨fun hsuffix => ⟨fun h => ?_, fun h => ?_⟩, fun k hk hsuffix => ?_⟩
  · have read := shiftSuffix_of_lsl hsuffix
    have inside : s < 64 := lt_of_lt_of_le h.2.2.2.2 (by cases w <;> decide)
    refine ⟨BitVec.ofInt 2 (s / 16), BitVec.ofInt 16 v, ?_,
      toNat_ofInt_of_fits h.1 (by omega), ?_⟩
    · rw [toNat_ofInt_of_fits (by omega) (by omega)]
      omega
    · rw [family, assembleWideMove_imm _ _ _ read, if_pos ⟨rfl, h⟩]
  · have read := shiftSuffix_of_lsl hsuffix
    rw [family, assembleWideMove_imm _ _ _ read, if_neg fun held => h held.2]
  · subst hsuffix
    rw [family, assembleWideMove_imm _ _ _ (shiftSuffix_shift _ _), if_neg fun held => hk held.1]

/-- An amount below the width keeps its value in its field. -/
theorem toNat_amountField {w : Width} {amount : Int} (h : 0 ≤ amount ∧ amount < w.bits) :
    ((BitVec.ofInt 6 amount).toNat : Int) = amount := by
  have inside : amount < 64 := lt_of_lt_of_le h.2 (by cases w <;> decide)
  exact toNat_ofInt_of_fits h.1 (by omega)

/-- A line that reaches the arithmetic encoder with a register third (42_dp_register.md R270). -/
theorem assemblesShifted_of_arith {immForm regForm} {m : Mnemonic} {front : List Operand}
    {addr : BitVec 32} {w : Width} {k : ShiftKind} {rd rn rm : RegIdx} (hk : k ≠ .ror)
    (family : ∀ rest, assembleInstr ⟨m, front ++ rest⟩ addr =
      assembleArith immForm regForm (.reg w rd :: .reg w rn :: rest)) :
    AssemblesShifted w k rm addr m front (fun imm6 => regForm w k rm imm6 rn rd) := by
  intro amount suffix hsuffix
  have read := (shiftSuffix_ok_iff suffix k amount).2 hsuffix
  have allowed : ¬(w ≠ w ∨ w ≠ w ∨ arithShiftAllowed k = false) := by
    simp [arithShiftAllowed, hk]
  rw [family, assembleArith_reg _ _ _ _ _ _ _ _ read, if_neg allowed]
  exact ⟨fun h => ⟨_, toNat_amountField h, if_pos h⟩, fun h => if_neg h⟩

/-- A line that reaches the logical encoder (42_dp_register.md R271). -/
theorem assemblesShifted_of_logic {form} {m : Mnemonic} {front : List Operand}
    {addr : BitVec 32} {w : Width} {k : ShiftKind} {rd rn rm : RegIdx}
    (family : ∀ rest, assembleInstr ⟨m, front ++ rest⟩ addr =
      assembleLogic form (.reg w rd :: .reg w rn :: rest)) :
    AssemblesShifted w k rm addr m front (fun imm6 => form w k rm imm6 rn rd) := by
  intro amount suffix hsuffix
  have read := (shiftSuffix_ok_iff suffix k amount).2 hsuffix
  rw [family, assembleLogic_reg _ _ _ _ _ _ _ read, if_neg (by simp)]
  exact ⟨fun h => ⟨_, toNat_amountField h, if_pos h⟩, fun h => if_neg h⟩

/-! ## Operands of another width (30_encoding.md R142) -/

theorem assembleArith_imm_otherWidth {immForm regForm} {w w1 : Width} {rd rn : RegIdx} {v : Int}
    {suffix : List Operand} (hsuffix : ∃ p, shiftSuffix suffix = .ok p) (h : w1 ≠ w) :
    assembleArith immForm regForm (.reg w rd :: .reg w1 rn :: .imm v :: suffix) =
      .error .eSyntax := by
  obtain ⟨⟨k, s⟩, read⟩ := hsuffix
  rw [assembleArith_imm _ _ _ _ _ _ read, if_pos (.inl h)]

theorem assembleArith_reg_otherWidth {immForm regForm} {w w1 w2 : Width} {rd rn rm : RegIdx}
    {suffix : List Operand} (hsuffix : ∃ p, shiftSuffix suffix = .ok p) (h : w1 ≠ w ∨ w2 ≠ w) :
    assembleArith immForm regForm (.reg w rd :: .reg w1 rn :: .reg w2 rm :: suffix) =
      .error .eSyntax := by
  obtain ⟨⟨k, amount⟩, read⟩ := hsuffix
  rw [assembleArith_reg _ _ _ _ _ _ _ _ read, if_pos (by tauto)]

theorem assembleArith_reg_ror {immForm regForm} (w w1 w2 : Width) (rd rn rm : RegIdx)
    (amount : Int) :
    assembleArith immForm regForm
      [.reg w rd, .reg w1 rn, .reg w2 rm, .shift .ror amount] = .error .eSyntax := by
  rw [assembleArith_reg _ _ _ _ _ _ _ _ (shiftSuffix_shift _ _), if_pos (.inr (.inr rfl))]

theorem assembleLogic_reg_otherWidth {form} {w w1 w2 : Width} {rd rn rm : RegIdx}
    {suffix : List Operand} (hsuffix : ∃ p, shiftSuffix suffix = .ok p) (h : w1 ≠ w ∨ w2 ≠ w) :
    assembleLogic form (.reg w rd :: .reg w1 rn :: .reg w2 rm :: suffix) = .error .eSyntax := by
  obtain ⟨⟨k, amount⟩, read⟩ := hsuffix
  rw [assembleLogic_reg _ _ _ _ _ _ _ read, if_pos h]

theorem assembleMultiply_otherWidth {form} {w w1 w2 w3 : Width} {rd rn rm ra : RegIdx}
    (h : w1 ≠ w ∨ w2 ≠ w ∨ w3 ≠ w) :
    assembleMultiply form [.reg w rd, .reg w1 rn, .reg w2 rm, .reg w3 ra] = .error .eSyntax :=
  if_pos h

theorem assembleMultiply_sameWidth (form) (w : Width) (rd rn rm ra : RegIdx) :
    assembleMultiply form [.reg w rd, .reg w rn, .reg w rm, .reg w ra] =
      .ok (form w rm ra rn rd) :=
  if_neg (by simp)

/-- Each arithmetic mnemonic reaches the arithmetic encoder. -/
theorem arithMnemonic_family {m : Mnemonic} (h : m ∈ [Mnemonic.add, .adds, .sub, .subs])
    (addr : BitVec 32) : ∃ immForm regForm, ∀ ops,
      assembleInstr ⟨m, ops⟩ addr = assembleArith immForm regForm ops := by
  fin_cases h
  all_goals exact ⟨_, _, fun _ => rfl⟩

/-- Each logical mnemonic reaches the logical encoder. -/
theorem logicMnemonic_family {m : Mnemonic}
    (h : m ∈ [Mnemonic.and, .bic, .orr, .orn, .eor, .eon, .ands, .bics]) (addr : BitVec 32) :
    ∃ form, ∀ ops, assembleInstr ⟨m, ops⟩ addr = assembleLogic form ops := by
  fin_cases h
  all_goals exact ⟨_, fun _ => rfl⟩

/-- Each of the arithmetic aliases reaches the arithmetic encoder with two registers of its first
operand's width in front (30_encoding.md R135). -/
theorem arithAlias_family {m : Mnemonic} (h : m ∈ [Mnemonic.cmp, .cmn, .neg, .negs]) (w : Width)
    (a : RegIdx) (addr : BitVec 32) : ∃ immForm regForm rd rn, ∀ rest,
      assembleInstr ⟨m, .reg w a :: rest⟩ addr =
        assembleArith immForm regForm (.reg w rd :: .reg w rn :: rest) := by
  fin_cases h
  all_goals exact ⟨_, _, _, _, fun _ => rfl⟩

/-- Each of the logical aliases with a shift reaches the logical encoder so (30_encoding.md
R135). -/
theorem logicAlias_family {m : Mnemonic} (h : m ∈ [Mnemonic.tst, .mvn]) (w : Width)
    (a : RegIdx) (addr : BitVec 32) : ∃ form rd rn, ∀ rest,
      assembleInstr ⟨m, .reg w a :: rest⟩ addr =
        assembleLogic form (.reg w rd :: .reg w rn :: rest) := by
  fin_cases h
  all_goals exact ⟨_, _, _, fun _ => rfl⟩

theorem multiplyMnemonic_family {m : Mnemonic} (h : m ∈ [Mnemonic.madd, .msub])
    (addr : BitVec 32) :
    ∃ form, ∀ ops, assembleInstr ⟨m, ops⟩ addr = assembleMultiply form ops := by
  fin_cases h
  all_goals exact ⟨_, fun _ => rfl⟩

theorem multiplyAlias_family {m : Mnemonic} (h : m ∈ [Mnemonic.mul, .mneg]) (w : Width)
    (a : RegIdx) (addr : BitVec 32) : ∃ form, ∀ rn rm,
      assembleInstr ⟨m, [.reg w a, rn, rm]⟩ addr =
        assembleMultiply form [.reg w a, rn, rm, .reg w zr] := by
  fin_cases h
  all_goals exact ⟨_, fun _ _ => rfl⟩

theorem transferMnemonic_family {m : Mnemonic} (h : m ∈ [Mnemonic.ldr, .str])
    (addr : BitVec 32) :
    ∃ isLoad, ∀ ops, assembleInstr ⟨m, ops⟩ addr = assembleTransfer isLoad ops addr := by
  fin_cases h
  all_goals exact ⟨_, fun _ => rfl⟩

theorem registerLine_otherWidth {m : Mnemonic}
    (h : m ∈ [Mnemonic.add, .adds, .sub, .subs, .and, .bic, .orr, .orn, .eor, .eon, .ands, .bics])
    {w w1 w2 : Width} (rd rn rm : RegIdx) (addr : BitVec 32) {suffix : List Operand}
    (hsuffix : ∃ p, shiftSuffix suffix = .ok p) (hw : w1 ≠ w ∨ w2 ≠ w) :
    assembleInstr ⟨m, .reg w rd :: .reg w1 rn :: .reg w2 rm :: suffix⟩ addr = .error .eSyntax := by
  change m ∈ [Mnemonic.add, .adds, .sub, .subs] ++ _ at h
  rcases List.mem_append.1 h with harith | hlogic
  · obtain ⟨immForm, regForm, family⟩ := arithMnemonic_family harith addr
    rw [family, assembleArith_reg_otherWidth hsuffix hw]
  · obtain ⟨form, family⟩ := logicMnemonic_family hlogic addr
    rw [family, assembleLogic_reg_otherWidth hsuffix hw]

theorem aliasLine_otherWidth {m : Mnemonic}
    (h : m ∈ [Mnemonic.cmp, .cmn, .neg, .negs, .tst, .mvn]) {w w1 : Width} (a b : RegIdx)
    (addr : BitVec 32) {suffix : List Operand} (hsuffix : ∃ p, shiftSuffix suffix = .ok p)
    (hw : w1 ≠ w) :
    assembleInstr ⟨m, .reg w a :: .reg w1 b :: suffix⟩ addr = .error .eSyntax := by
  change m ∈ [Mnemonic.cmp, .cmn, .neg, .negs] ++ _ at h
  rcases List.mem_append.1 h with harith | hlogic
  · obtain ⟨immForm, regForm, rd, rn, family⟩ := arithAlias_family harith w a addr
    rw [family, assembleArith_reg_otherWidth hsuffix (.inr hw)]
  · obtain ⟨form, rd, rn, family⟩ := logicAlias_family hlogic w a addr
    rw [family, assembleLogic_reg_otherWidth hsuffix (.inr hw)]

theorem refusesOtherWidths {w w' : Width} (h : w' ≠ w) (a b c d : RegIdx) (addr : BitVec 32) :
    RefusesOtherWidths w w' a b c d addr := by
  refine ⟨fun suffix v s _ _ hsuffix m hm => ?_,
    fun suffix k amount hsuffix => ⟨fun m hm => ?_, fun m hm => ?_⟩, ?_, fun m hm => ?_,
    fun m hm => ?_⟩
  · obtain ⟨immForm, regForm, family⟩ := arithMnemonic_family hm addr
    rw [family, assembleArith_imm_otherWidth (shiftSuffix_of_shape (hsuffix.imp_right And.left)) h]
  · have read := shiftSuffix_of_shape (hsuffix.imp_right And.left)
    exact ⟨registerLine_otherWidth hm a b c addr read (.inl h),
      registerLine_otherWidth hm a b c addr read (.inr h)⟩
  · exact aliasLine_otherWidth hm a b addr (shiftSuffix_of_shape (hsuffix.imp_right And.left)) h
  · rw [assembleInstr_mov, assembleLogic_reg_otherWidth ⟨_, rfl⟩ (.inr h)]
  · obtain ⟨form, family⟩ := multiplyMnemonic_family hm addr
    refine ⟨?_, ?_, ?_⟩
    · rw [family, assembleMultiply_otherWidth (.inl h)]
    · rw [family, assembleMultiply_otherWidth (.inr (.inl h))]
    · rw [family, assembleMultiply_otherWidth (.inr (.inr h))]
  · obtain ⟨form, family⟩ := multiplyAlias_family hm w a addr
    constructor
    · rw [family, assembleMultiply_otherWidth (.inl h)]
    · rw [family, assembleMultiply_otherWidth (.inr (.inl h))]

theorem refuses32BitAddresses (w : Width) (a b c : RegIdx) (addr : BitVec 32) :
    Refuses32BitAddresses w a b c addr := by
  refine ⟨fun m hm => ?_, rfl⟩
  obtain ⟨isLoad, family⟩ := transferMnemonic_family hm addr
  refine ⟨fun v _ _ _ => ?_, fun v _ _ => ⟨?_, ?_⟩, fun wb wi h => ?_⟩
  · rw [family, assembleTransfer, if_pos (by decide)]
  · rw [family, assembleTransfer, if_pos (by decide)]
  · rw [family, assembleTransfer, if_pos (by decide)]
  · rw [family, assembleTransfer, if_pos (by tauto)]

/-- A rotate is no suffix of an arithmetic line or of its aliases (42_dp_register.md D39). -/
theorem rotateLine_refused (w : Width) (a b c : RegIdx) (amount : Int) (addr : BitVec 32) :
    (∀ m ∈ [Mnemonic.add, .adds, .sub, .subs],
      assembleInstr ⟨m, [.reg w a, .reg w b, .reg w c, .shift .ror amount]⟩ addr
        = .error .eSyntax) ∧
    (∀ m ∈ [Mnemonic.cmp, .cmn, .neg, .negs],
      assembleInstr ⟨m, [.reg w a, .reg w c, .shift .ror amount]⟩ addr = .error .eSyntax) := by
  constructor
  · intro m hm
    obtain ⟨immForm, regForm, family⟩ := arithMnemonic_family hm addr
    rw [family, assembleArith_reg_ror]
  · intro m hm
    obtain ⟨immForm, regForm, rd, rn, family⟩ := arithAlias_family hm w a addr
    rw [family, assembleArith_reg_ror]

/-! ## The lines and the instructions they spell -/

/-- Settles O60, by sending each mnemonic to its family's encoder. -/
theorem assembledLinesAreTheInstructionsTheySpell :
    Obligations.AssembledLinesAreTheInstructionsTheySpell := by
  intro w a b c d addr
  refine ⟨⟨?_, ?_, ?_, ?_, ?_, ?_, ?_, ?_⟩, ⟨?_, ?_, ?_⟩, fun k hk => ?_, fun k => ?_,
    fun amount _ _ => rotateLine_refused w a b c amount addr, ⟨?_, ?_, ?_, ?_, ?_⟩,
    fun w' h => refusesOtherWidths h a b c d addr, refuses32BitAddresses w a b c addr,
    fun text ops h => ?_, ⟨?_, ?_, ?_⟩⟩
  · exact assemblesArithImm_of_family fun _ => assembleInstr_add _ _
  · exact assemblesArithImm_of_family fun _ => assembleInstr_adds _ _
  · exact assemblesArithImm_of_family fun _ => assembleInstr_sub _ _
  · exact assemblesArithImm_of_family fun _ => assembleInstr_subs _ _
  · exact assemblesArithImm_of_family fun _ => assembleInstr_cmp _ _ _ _
  · exact assemblesArithImm_of_family fun _ => assembleInstr_cmn _ _ _ _
  · exact assemblesArithImm_of_family fun _ => assembleInstr_neg _ _ _ _
  · exact assemblesArithImm_of_family fun _ => assembleInstr_negs _ _ _ _
  · exact assemblesWideMove_of_family w a fun _ => assembleInstr_movn _ _
  · exact assemblesWideMove_of_family w a fun _ => assembleInstr_movz _ _
  · exact assemblesWideMove_of_family w a fun _ => assembleInstr_movk _ _
  · refine ⟨?_, ?_, ?_, ?_, ?_, ?_, ?_, ?_⟩
    · exact assemblesShifted_of_arith hk fun _ => assembleInstr_add _ _
    · exact assemblesShifted_of_arith hk fun _ => assembleInstr_adds _ _
    · exact assemblesShifted_of_arith hk fun _ => assembleInstr_sub _ _
    · exact assemblesShifted_of_arith hk fun _ => assembleInstr_subs _ _
    · exact assemblesShifted_of_arith hk fun _ => assembleInstr_cmp _ _ _ _
    · exact assemblesShifted_of_arith hk fun _ => assembleInstr_cmn _ _ _ _
    · exact assemblesShifted_of_arith hk fun _ => assembleInstr_neg _ _ _ _
    · exact assemblesShifted_of_arith hk fun _ => assembleInstr_negs _ _ _ _
  · refine ⟨?_, ?_, ?_, ?_, ?_, ?_, ?_, ?_, ?_, ?_⟩
    · exact assemblesShifted_of_logic (form := andOrHalt) fun _ => assembleInstr_and _ _
    · exact assemblesShifted_of_logic fun _ => assembleInstr_bic _ _
    · exact assemblesShifted_of_logic fun _ => assembleInstr_orr _ _
    · exact assemblesShifted_of_logic fun _ => assembleInstr_orn _ _
    · exact assemblesShifted_of_logic fun _ => assembleInstr_eor _ _
    · exact assemblesShifted_of_logic fun _ => assembleInstr_eon _ _
    · exact assemblesShifted_of_logic fun _ => assembleInstr_ands _ _
    · exact assemblesShifted_of_logic fun _ => assembleInstr_bics _ _
    · exact assemblesShifted_of_logic fun _ => assembleInstr_tst _ _ _ _
    · exact assemblesShifted_of_logic fun _ => assembleInstr_mvn _ _ _ _
  · rw [assembleInstr_madd, assembleMultiply_sameWidth]
  · rw [assembleInstr_msub, assembleMultiply_sameWidth]
  · rw [assembleInstr_mul, assembleMultiply_sameWidth]
  · rw [assembleInstr_mneg, assembleMultiply_sameWidth]
  · have inside : (0 : Int) ≤ 0 ∧ (0 : Int) < w.bits := ⟨le_rfl, by cases w <;> decide⟩
    rw [assembleInstr_mov, assembleLogic_reg _ _ _ _ _ _ _ rfl, if_neg (by simp), if_pos inside]
    rfl
  · rw [mnemonicOfText_of_not_mem h, assembleInstr_unknown]
  · rfl
  · rfl
  · rfl

end Sys2Proof.Machine
end
